-- ==== Sys2Proof/Word.lean ====
section
/-! DEFINITION. The byte, the one word of the engine (spec/00_scope.md R11, spec/20_memory.md R56). -/

namespace Sys2Proof

/-- `u8` of R11: an unsigned 8-bit value, bit 7 the most significant.
Addition of bytes is `+8` and subtraction is `-8`: both wrap modulo 256. -/
abbrev Byte := BitVec 8

end Sys2Proof
end

