-- ==== Sys2Proof/Config.lean ====
section
/-! DEFINITION. The configuration parameters of spec/00_scope.md R7 and R8, the reference configuration of R10,
and the free values (the draws of R12). -/

namespace Sys2Proof

/-- A logic level of a sense line (R11). -/
inductive Level where
  | high
  | low
deriving DecidableEq, Repr, Inhabited

/-- The half-duplex direction (R11, R25). -/
inductive Direction where
  | rx
  | tx
deriving DecidableEq, Repr, Inhabited

/-- A feature descriptor (R80). -/
inductive Feature where
  /-- `note(ch, min, max)` -/
  | note (ch min max : Byte)
  /-- `light(ch, min, max)` -/
  | light (ch min max : Byte)
  /-- `control(ch, min, max)` -/
  | control (ch min max : Byte)
  /-- `offset(v : s16)`, `v` in two's complement (R84) -/
  | offset (v : BitVec 16)
deriving DecidableEq, Repr

/-- What the instrument returns from a LIGHT or CONTROL call: `(handled, answer)` (R188, R193). -/
structure Answer where
  handled : Bool
  reply : Option (List Byte)
deriving DecidableEq, Repr, Inhabited

/-- The two admitted effects of the platform's device reset (R292). -/
inductive ResetEffect where
  | engineKept
  | powerOn
deriving DecidableEq, Repr, Inhabited

/-- `SYNC`, the frame-start marker (R7, R70). -/
def syncByte : Byte := 0xE0
/-- `MARK`, the escape marker (R7, R70). -/
def markByte : Byte := 0xD0
/-- `MASTER`, the address of the bus controller (R7, R71). -/
def masterAddr : Byte := 0x00
/-- `BROADCAST` (R7, R71). -/
def broadcastAddr : Byte := 0xFF
/-- `UNSET`, the identity of a node that has no address: the same value as `BROADCAST` (R7). -/
def unsetId : Byte := 0xFF
/-- `CMD_ASSIGN_ADDR`, the one command code the source gives (R7). -/
def cmdAssignAddr : Byte := 0xF1
/-- `FEAT_PAD`, the pad and terminator of a feature sequence (R7, R80). -/
def featPad : Byte := 0x00

/-- The `OPEN` parameters of R8, one field each, as the platform fixes them at setup (R293).
`CNTR_BITS` is decided (8, R24), `CMD_ASSIGN_ADDR` is fixed (R7), and `DEVICE_RESET_EFFECT`
is a draw at every device reset (R292, `Config.freeResetEffect`). -/
structure Config where
  rxBufCap : Nat
  txBufCap : Nat
  cmdReset : Byte
  cmdReadId : Byte
  cmdGetCmdVersion : Byte
  cmdGetJvsVersion : Byte
  cmdGetCommVersion : Byte
  cmdGetFeatures : Byte
  cmdReqRetransmit : Byte
  cmdPing : Byte
  cmdGetSense : Byte
  cmdIncr : Byte
  cmdCntr : Byte
  cmdNoteDown : Byte
  cmdNoteUp : Byte
  cmdLight : Byte
  cmdControl : Byte
  resetCheck : Byte
  statusOk : Byte
  statusUnknownCmd : Byte
  statusSumErr : Byte
  statusOverflow : Byte
  statusUnknown : Byte
  reportOk : Byte
  reportParamMissing : Byte
  reportParamInvalid : Byte
  reportBusy : Byte
  verCmd : Byte
  verJvs : Byte
  verComm : Byte
  featNote : Byte
  featLight : Byte
  featControl : Byte
  featOffset : Byte
  timeBytes : Nat
  idString : List Byte
  features : List Feature
deriving DecidableEq, Repr

/-- The sixteen command codes of R9 item 1, in its order. -/
def Config.codes (c : Config) : List Byte :=
  [c.cmdReset, cmdAssignAddr, c.cmdReadId, c.cmdGetCmdVersion, c.cmdGetJvsVersion, c.cmdGetCommVersion,
   c.cmdGetFeatures, c.cmdReqRetransmit, c.cmdPing, c.cmdGetSense, c.cmdIncr, c.cmdCntr, c.cmdNoteDown,
   c.cmdNoteUp, c.cmdLight, c.cmdControl]

/-- The reference configuration `REF` (R10), the `REF` column of R8. DESIGN CHOICE (log 1): the machine right
after reset and `decodeTableWord` need one closed configuration; no operation or meaning names it.
R8 gives `STATUS_UNKNOWN` no `REF` value; `0x00` stands here, and the engine never sends it (log 1). -/
def Config.ref : Config where
  rxBufCap := 32
  txBufCap := 32
  cmdReset := 0xF0
  cmdReadId := 0x10
  cmdGetCmdVersion := 0x11
  cmdGetJvsVersion := 0x12
  cmdGetCommVersion := 0x13
  cmdGetFeatures := 0x14
  cmdReqRetransmit := 0x2F
  cmdPing := 0x70
  cmdGetSense := 0x71
  cmdIncr := 0x72
  cmdCntr := 0x73
  cmdNoteDown := 0x74
  cmdNoteUp := 0x75
  cmdLight := 0x76
  cmdControl := 0x77
  resetCheck := 0xD9
  statusOk := 0x01
  statusUnknownCmd := 0x02
  statusSumErr := 0x03
  statusOverflow := 0x04
  statusUnknown := 0x00
  reportOk := 0x01
  reportParamMissing := 0x02
  reportParamInvalid := 0x03
  reportBusy := 0x04
  verCmd := 0x13
  verJvs := 0x30
  verComm := 0x10
  featNote := 0x01
  featLight := 0x02
  featControl := 0x03
  featOffset := 0x04
  timeBytes := 1
  idString := [0x41, 0x42]
  features := [.note 0 79 108, .offset 0]

/-! ## Draws

R12 makes every draw a free input of its own step. DESIGN CHOICE (log 26): a node's draws are a stream of its own,
`stream` tells the streams of different nodes apart, and draw number `n` of a stream is the constant applied to both. -/

/-- `draw u8` (R12): the byte of draw number `n` of a node's stream. Free value: nothing constrains it, and nothing
relates it to another draw of the stream or to a draw of another stream (log 3, log 26). -/
opaque Config.freeByte (stream n : Nat) : Byte

/-- What the platform's device reset does at draw number `n` of a node's stream (R292: both values are admitted at every
`DevReset()`). Free value (log 4, log 26). -/
opaque Config.freeResetEffect (stream n : Nat) : ResetEffect

/-- What the instrument answers at draw number `n` of a node's stream (R193: "answers are draws, under no law beyond
their types"). Free value (log 5, log 26). -/
opaque Config.freeAnswer (stream n : Nat) : Answer

end Sys2Proof
end

