-- ==== Sys2Proof/Syntax.lean ====
section
/-! DEFINITION. The instructions: the sixteen commands and "unknown" of spec/30_encoding.md R77, and the two
reserved wire bytes of R70; one constructor for each row of spec/opcode_table.json. -/

namespace Sys2Proof

/-- A command carries the decoded body bytes of its request frame (R72: `BODY[0..n-1]`), all of them, whether its
rule reads them or not (R81: other bytes are ignored). The operands are positions in the body (R81), read by
`Machine.bodyAt`, which draws the bytes the body lacks (R173). -/
inductive Instr where
  /-- R174, body `[check]` -/
  | reset (body : List Byte)
  /-- R175, body `[addr]` -/
  | assignAddr (body : List Byte)
  /-- R176 -/
  | readId (body : List Byte)
  /-- R177 -/
  | getCmdVersion (body : List Byte)
  /-- R178 -/
  | getJvsVersion (body : List Byte)
  /-- R179 -/
  | getCommVersion (body : List Byte)
  /-- R180 -/
  | getFeatures (body : List Byte)
  /-- R181 -/
  | reqRetransmit (body : List Byte)
  /-- R182 -/
  | ping (body : List Byte)
  /-- R183 -/
  | getSense (body : List Byte)
  /-- R184 -/
  | incr (body : List Byte)
  /-- R185 -/
  | cntr (body : List Byte)
  /-- R186, body `[time, channel, note, velocity]` -/
  | noteDown (body : List Byte)
  /-- R187, body as R186 -/
  | noteUp (body : List Byte)
  /-- R188, body `[time, channel, light_id, value]` -/
  | light (body : List Byte)
  /-- R189, body `[time, channel, control_id, value]` -/
  | control (body : List Byte)
  /-- R190, any code outside the command map -/
  | unknown (code : Byte) (body : List Byte)
  /-- the raw wire byte `SYNC` (R70): a frame start -/
  | sync
  /-- the raw wire byte `MARK` (R70, R112): the next wire byte plus 1 is the payload -/
  | mark
deriving DecidableEq, Repr

/-- The two raw wire bytes, which no request frame carries. -/
def Instr.isWire : Instr → Bool
  | .sync => true
  | .mark => true
  | .reset _ | .assignAddr _ | .readId _ | .getCmdVersion _ | .getJvsVersion _ | .getCommVersion _
  | .getFeatures _ | .reqRetransmit _ | .ping _ | .getSense _ | .incr _ | .cntr _ | .noteDown _
  | .noteUp _ | .light _ | .control _ | .unknown _ _ => false

/-- The body bytes a command's request frame carries (R72); the wire bytes have none. -/
def Instr.body : Instr → List Byte
  | .reset b | .assignAddr b | .readId b | .getCmdVersion b | .getJvsVersion b | .getCommVersion b
  | .getFeatures b | .reqRetransmit b | .ping b | .getSense b | .incr b | .cntr b | .noteDown b
  | .noteUp b | .light b | .control b | .unknown _ b => b
  | .sync => []
  | .mark => []

end Sys2Proof
end

