-- ==== Sys2Proof/WellFormed.lean ====
section
/-! DEFINITION. When an instruction is one that a request frame of a configuration can carry. -/

namespace Sys2Proof

/-- The body fits the receive buffer beside the command and the checksum (R134: `COUNT > RX_BUF_CAP` is refused,
and `COUNT` is the body length plus 2, R73). -/
def Instr.bodyFits (c : Config) (i : Instr) : Bool :=
  decide (i.body.length + 2 ≤ c.rxBufCap)

/-- An "unknown" command's code is no code of the map (R77, R85). -/
def Instr.codeUnmapped (c : Config) : Instr → Bool
  | .unknown code _ => decide (code ∉ c.codes)
  | .reset _ | .assignAddr _ | .readId _ | .getCmdVersion _ | .getJvsVersion _ | .getCommVersion _
  | .getFeatures _ | .reqRetransmit _ | .ping _ | .getSense _ | .incr _ | .cntr _ | .noteDown _
  | .noteUp _ | .light _ | .control _ | .sync | .mark => true

/-- Both checks. Any body length up to the capacity is well formed: no command checks its body length (R81). -/
def Instr.wellFormed (c : Config) (i : Instr) : Bool :=
  i.bodyFits c && i.codeUnmapped c

end Sys2Proof
end

