-- ==== Sys2Proof/Decode.lean ====
section
/-! DEFINITION. Stuffing, the command map, the decoder of wire bytes and the encoder (spec/30_encoding.md,
spec/40_codec.md). -/

namespace Sys2Proof

/-- The two values that are stuffed when they are payload (R70). -/
def reserved (b : Byte) : Bool := b == syncByte || b == markByte

/-- The wire bytes of one payload byte (R70, R88, R110). -/
def stuffByte (b : Byte) : List Byte := if reserved b then [markByte, b - 1] else [b]

/-- `stuff(s)` of R88. -/
def stuff (s : List Byte) : List Byte := s.flatMap stuffByte

/-- The `+8` sum of a byte sequence (R74). -/
def byteSum (s : List Byte) : Byte := s.foldr (· + ·) 0

/-- `BODYLEN(LEN)` of R73: `LEN - 2`, and 0 when `LEN < 2`. -/
def bodyLen (len : Byte) : Nat := len.toNat - 2

/-- The reasons the decoder rejects a byte sequence, by name. -/
inductive DecodeError where
  /-- no byte at all -/
  | empty
  /-- the first byte is no reserved wire byte, so no frame starts here (R131) -/
  | notAFrameStart
  /-- a `MARK` followed by further bytes outside a frame -/
  | markOutsideFrame
  /-- a `SYNC` inside the frame: it starts another frame (R112) -/
  | syncInFrame
  /-- a `MARK` with no byte after it (R112: the engine holds) -/
  | markUnfinished
  /-- fewer decoded bytes than `LEN` asks for (R86: the engine holds) -/
  | truncated
  /-- `LEN` exceeds the receive buffer (R134) -/
  | overCapacity
  /-- decoded bytes after the checksum: they are no part of this frame (R86) -/
  | trailingBytes
  /-- the checksum byte is not the sum (R74, R138) -/
  | checksumMismatch
deriving DecidableEq, Repr

/-- What wire bytes stand for: a raw wire byte, or a whole request frame to a destination. -/
inductive Decoded where
  | wireByte (i : Instr)
  | request (dest : Byte) (i : Instr)
deriving DecidableEq, Repr

/-- The instruction of what was decoded. -/
def Decoded.instr : Decoded → Instr
  | .wireByte i => i
  | .request _ i => i

/-- Destuffing (R112): `escaped` says that the byte before was a `MARK`. `MARK, x` is `x +8 1` for every `x` but
`SYNC`; a raw `SYNC` is never payload. -/
def destuffFrom (escaped : Bool) : List Byte → Except DecodeError (List Byte)
  | [] => if escaped then .error .markUnfinished else .ok []
  | b :: rest =>
    if b = syncByte then .error .syncInFrame
    else if escaped then (destuffFrom false rest).map ((b + 1) :: ·)
    else if b = markByte then destuffFrom true rest
    else (destuffFrom false rest).map (b :: ·)

/-- The decoded sequence of the bytes after a `SYNC`. -/
def destuff (wire : List Byte) : Except DecodeError (List Byte) := destuffFrom false wire

/-- The command map (R77), one row a command. -/
def commandTable (c : Config) : List (Byte × (List Byte → Instr)) :=
  [(c.cmdReset, .reset), (cmdAssignAddr, .assignAddr), (c.cmdReadId, .readId),
   (c.cmdGetCmdVersion, .getCmdVersion), (c.cmdGetJvsVersion, .getJvsVersion),
   (c.cmdGetCommVersion, .getCommVersion), (c.cmdGetFeatures, .getFeatures),
   (c.cmdReqRetransmit, .reqRetransmit), (c.cmdPing, .ping), (c.cmdGetSense, .getSense),
   (c.cmdIncr, .incr), (c.cmdCntr, .cntr), (c.cmdNoteDown, .noteDown), (c.cmdNoteUp, .noteUp),
   (c.cmdLight, .light), (c.cmdControl, .control)]

/-- The command a `CMD` byte selects (R77: all 8 bits are compared; R85: no match is "unknown"). -/
def decodeCommand (c : Config) (code : Byte) (body : List Byte) : Instr :=
  match (commandTable c).find? (fun row => row.1 == code) with
  | some row => row.2 body
  | none => .unknown code body

/-- The request a decoded sequence holds (R72, R73, R74, R134). -/
def parseRequest (c : Config) : List Byte → Except DecodeError Decoded
  | dest :: len :: rest =>
    if c.rxBufCap < len.toNat then .error .overCapacity
    else match rest with
      | code :: tail =>
        let body := tail.take (bodyLen len)
        match tail.drop (bodyLen len) with
        | [] => .error .truncated
        | [cs] =>
          if cs = byteSum (dest :: len :: code :: body) then .ok (.request dest (decodeCommand c code body))
          else .error .checksumMismatch
        | _ :: _ :: _ => .error .trailingBytes
      | [] => .error .truncated
  | [_] => .error .truncated
  | [] => .error .truncated

/-- The decoder, total on any wire bytes: a lone reserved byte is that wire byte, and a `SYNC` with bytes after it
is a request frame (R70, R72). -/
def decode (c : Config) : List Byte → Except DecodeError Decoded
  | [] => .error .empty
  | b :: rest =>
    if b = syncByte then
      match rest with
      | [] => .ok (.wireByte .sync)
      | _ :: _ => (destuff rest).bind (parseRequest c)
    else if b = markByte then
      match rest with
      | [] => .ok (.wireByte .mark)
      | _ :: _ => .error .markOutsideFrame
    else .error .notAFrameStart

/-- The code byte of an instruction: its command code (R77), or the wire byte itself (R70). -/
def Instr.code (c : Config) : Instr → Byte
  | .reset _ => c.cmdReset
  | .assignAddr _ => cmdAssignAddr
  | .readId _ => c.cmdReadId
  | .getCmdVersion _ => c.cmdGetCmdVersion
  | .getJvsVersion _ => c.cmdGetJvsVersion
  | .getCommVersion _ => c.cmdGetCommVersion
  | .getFeatures _ => c.cmdGetFeatures
  | .reqRetransmit _ => c.cmdReqRetransmit
  | .ping _ => c.cmdPing
  | .getSense _ => c.cmdGetSense
  | .incr _ => c.cmdIncr
  | .cntr _ => c.cmdCntr
  | .noteDown _ => c.cmdNoteDown
  | .noteUp _ => c.cmdNoteUp
  | .light _ => c.cmdLight
  | .control _ => c.cmdControl
  | .unknown code _ => code
  | .sync => syncByte
  | .mark => markByte

/-- The decoded bytes of a request before its checksum: `[dest, n+2, code] ++ body` (R88). -/
def requestBytes (dest code : Byte) (body : List Byte) : List Byte :=
  dest :: BitVec.ofNat 8 (body.length + 2) :: code :: body

/-- The wire bytes of a request frame (R72, R88): `SYNC` raw, everything after it stuffed, the checksum last. -/
def encodeRequest (dest code : Byte) (body : List Byte) : List Byte :=
  syncByte :: stuff (requestBytes dest code body ++ [byteSum (requestBytes dest code body)])

/-- The encoder: the wire bytes of an instruction sent to `dest` (R88); a wire byte is itself. -/
def encode (c : Config) (dest : Byte) (i : Instr) : List Byte :=
  if i.isWire then [i.code c] else encodeRequest dest (i.code c) i.body

/-- The summed bytes of a reply: `MASTER`, `m + 2`, status, body (R75, R222). -/
def replyBytes (status : Byte) (body : List Byte) : List Byte :=
  BitVec.ofNat 8 (body.length + 2) :: status :: body

/-- The wire bytes of a reply frame (R75): `SYNC` and `MASTER` raw, everything after them stuffed. -/
def encodeReply (status : Byte) (body : List Byte) : List Byte :=
  syncByte :: masterAddr ::
    stuff (replyBytes status body ++ [byteSum (masterAddr :: replyBytes status body)])

/-- How many body bytes a command's operands take (R81, `TIME_BYTES + 3` for the four events). -/
def operandBytes (c : Config) (code : Byte) : Nat :=
  if code = c.cmdReset ∨ code = cmdAssignAddr then 1
  else if code = c.cmdNoteDown ∨ code = c.cmdNoteUp ∨ code = c.cmdLight ∨ code = c.cmdControl then c.timeBytes + 3
  else 0

/-- The bytes of a table word, the least significant first. -/
def tableBytes (nbits w : Nat) : List Byte :=
  (List.range (nbits / 8)).map fun k => BitVec.ofNat 8 (w >>> (8 * k))

/-- The bytes after the code byte as a body, with zeros up to the command's operand bytes. -/
def tableBody (c : Config) (code : Byte) (rest : List Byte) : List Byte :=
  rest ++ List.replicate (operandBytes c code - rest.length) 0

/-- A table row is the code byte of a command, or a raw wire byte; the wire bytes it stands for. A command row is
laid out as the whole broadcast request frame with its checksum (R72), operand bytes above `nbits` zero. -/
def tableWire (c : Config) (nbits w : Nat) : List Byte :=
  match tableBytes nbits w with
  | [] => []
  | b :: rest => if reserved b then b :: rest else encodeRequest broadcastAddr b (tableBody c b rest)

/-- The instruction the decoder reads from a table word, under `Config.ref` (log 1). -/
def decodeTableWord (nbits w : Nat) : Option Instr :=
  match decode Config.ref (tableWire Config.ref nbits w) with
  | .ok d => some d.instr
  | .error _ => none

end Sys2Proof
end

