-- ==== Sys2Proof/Machine/State.lean ====
section
/-! DEFINITION. The engine's state (spec/10_state.md R20 to R38), its ports, the reasons a step can stop,
and the state at power-on (R36, R290). -/

namespace Sys2Proof.Machine

/-- `RSTATE`, the receive state, the engine's program counter (R26), in the source's order. -/
inductive RState where
  | waiting
  | gotSync
  | readCount
  | readCommand
  | overflow
  | readBody
  | verifySum
deriving DecidableEq, Repr

/-- A synchronous call to the instrument port (R12, R193). `time` is the unsigned value `Time()` of R83. -/
inductive Call where
  | noteDown (time : Nat) (channel note velocity : Byte)
  | noteUp (time : Nat) (channel note velocity : Byte)
  | light (time : Nat) (channel lightId value : Byte)
  | control (time : Nat) (channel controlId value : Byte)
deriving DecidableEq, Repr

/-- An action of the engine on one of its output ports (R37), in the primitives of R12. -/
inductive PortEvent where
  /-- `SetDir(d)` -/
  | dir (d : Direction)
  /-- `TxPush(b)` -/
  | tx (b : Byte)
  /-- `SenseOut(l)` -/
  | senseOut (l : Level)
  /-- `DevReset()` -/
  | devReset
  /-- a call to the instrument -/
  | call (c : Call)
deriving DecidableEq, Repr

/-- One write of one register, or of one byte of a buffer: an internal register update of R5. -/
inductive Write where
  /-- `ID <- v` -/
  | id (v : Byte)
  /-- `CNTR <- v` -/
  | cntr (v : Byte)
  /-- `RSTATE <- r` -/
  | rstate (r : RState)
  /-- `SUM <- v` -/
  | sum (v : Byte)
  /-- `DEST <- v` -/
  | dest (v : Byte)
  /-- `BCAST <- b` -/
  | bcast (b : Bool)
  /-- `COUNT <- v` -/
  | count (v : Byte)
  /-- `CMD <- v` -/
  | cmd (v : Byte)
  /-- `PTR <- v` -/
  | ptr (v : Byte)
  /-- `MemWrite(RxBuf, a, 1, v)` -/
  | rxBuf (a : Nat) (v : Byte)
  /-- `MemWrite(TxBuf, a, 1, v)` -/
  | txBuf (a : Nat) (v : Byte)
  /-- `TLEN <- v` -/
  | tlen (v : Byte)
  /-- `TSUM <- v` (R220, R223) -/
  | tsum (v : Byte)
  /-- `TSUM <- TSUM +8 v` (R110) -/
  | addTsum (v : Byte)
deriving DecidableEq, Repr

/-- What a step between two pops does (R5): an action on a port, or an internal register update. -/
inductive Action where
  /-- an action on an output port -/
  | port (e : PortEvent)
  /-- a write of one register or of one buffer byte -/
  | write (w : Write)
  /-- `return` (R12): the tick ends, with `RSTATE = WAITING` (R141) -/
  | ret
deriving DecidableEq, Repr

/-- A byte store (`RxBuf`, `TxBuf`, R33): address and byte pairs with addresses strictly rising and no byte equal
to what an unlisted address reads as (`Memory.wf`, Machine/Ops.lean). -/
abbrev Memory := List Host.Cell

/-- Reasons the machine stops with a fault. -/
inductive Fault where
  /-- `READ_BODY` would write at an index that is not in `RxBuf` (R50, R51). Raised by the receiver's write.
  Safe: R51 says no write leaves the buffer, and no run reaches it. -/
  | rxBufIndex
deriving DecidableEq, Repr

/-- Reasons a step has no meaning. -/
inductive Refusal where
  /-- An instruction whose arm of `exec` has no meaning. Raised by no arm now. Safe. -/
  | notModelled (mnemonic : String)
  /-- The configuration breaks R9 ("A model refuses any other configuration"). Raised by the step. Safe. -/
  | configuration
  /-- The instrument's reply body does not fit the reply buffer or the length byte
  (R188: "an instrument fault, which a model must refuse"). Raised when a LIGHT or CONTROL call answers. Safe. -/
  | instrumentAnswer
  /-- A reply of the node's own does not fit `TX_BUF_CAP` or the length byte (R53: "A configuration under which one
  would is refused"). Raised by `reply` and the READ_ID fast path. Safe: no admitted configuration reaches it. -/
  | replyDoesNotFit
  /-- A fixed status frame would hold a reserved byte (R224: "A configuration that breaks item 3 is refused").
  Raised by the status frames. Safe: no admitted configuration reaches it. -/
  | statusReserved
deriving DecidableEq, Repr

/-- The engine state tuple of R20, the configuration it reads, its ports (R37), and six fields of the model's own. -/
structure State where
  /-- `ID : u8`, the node identity (R22) -/
  id : Byte
  /-- `SENSE_OUT`, the sense output line (R23) -/
  senseOut : Level
  /-- `CNTR : u8`, the diagnostic counter (R24) -/
  cntr : Byte
  /-- `DIR`, the half-duplex direction output (R25) -/
  dir : Direction
  /-- `RSTATE`, the receive state (R26) -/
  rstate : RState
  /-- `SUM : u8`, the receive checksum accumulator (R27) -/
  sum : Byte
  /-- `DEST : u8`, the destination of the frame (R28) -/
  dest : Byte
  /-- `BCAST : bit`, set when `DEST = BROADCAST` (R28) -/
  bcast : Bool
  /-- `COUNT : u8`, the length byte of the frame (R29) -/
  count : Byte
  /-- `CMD : u8`, the command byte of the frame (R30) -/
  cmd : Byte
  /-- `PTR : u8`, the body read pointer (R31) -/
  ptr : Byte
  /-- `RxBuf`, the receive buffer (R33) -/
  rxBuf : Memory
  /-- `TxBuf`, the reply body buffer (R33) -/
  txBuf : Memory
  /-- `TLEN : u8`, the number of bytes in `TxBuf` (R32) -/
  tlen : Byte
  /-- `TSUM : u8`, the transmit checksum accumulator (R32) -/
  tsum : Byte
  /-- the configuration fixed at setup (R8, R35, R293): `id_rom` and `features` are in it -/
  cfg : Config
  /-- port `rx`: the bytes received and not yet popped, the oldest first (R37, R38) -/
  rx : List Byte
  /-- port `sense_in`: the level `SenseIn()` returns (R12) -/
  senseIn : Level
  /-- port `instr`, in: the answers the instrument gives to its next LIGHT and CONTROL calls (R193, log 5) -/
  answers : List Answer
  /-- port `instr`, in: whether an instrument call returns now (R193, U14, log 6) -/
  instrReady : Bool
  /-- ports `tx`, `dir`, `sense_out`, `dev_reset` and `instr`, out: every action so far, the oldest first (R37, R59) -/
  out : List PortEvent
  /-- the model's own: the actions the tick has still to do, the next one first. A step does one of them (R5, log 9). -/
  todo : List Action
  /-- the model's own: a `MARK` has been popped and the byte after it has not (R112's hold between two pops) -/
  escape : Bool
  /-- the model's own: the byte just popped, of which the next step lists what it asks for (R5, log 9), if any -/
  popped : Option Byte
  /-- the model's own: the instrument call that has not returned yet, if any (R193) -/
  inCall : Option Call
  /-- the model's own: how many draws (R12) have been made, the index of the next one (log 3) -/
  draws : Nat
  /-- the model's own: which stream this node's draws come from (log 26) -/
  stream : Nat
deriving DecidableEq, Repr

/-- Power-on of a node with a configuration (R36, R290). `ID`, `SENSE_OUT`, `DIR`, `RSTATE` and `CNTR` are the
spec's values; the registers and buffers R36 leaves unspecified are zero (DESIGN CHOICE, log 2), and so are the
inputs (log 7): no byte received, sense input high, no answer queued, instrument calls return. The trace of the
outputs starts empty (log 7), and the draws are those of stream 0 (log 26). -/
def State.powerOn (c : Config) : State where
  id := unsetId
  senseOut := .high
  cntr := 0
  dir := .rx
  rstate := .waiting
  sum := 0
  dest := 0
  bcast := false
  count := 0
  cmd := 0
  ptr := 0
  rxBuf := []
  txBuf := []
  tlen := 0
  tsum := 0
  cfg := c
  rx := []
  senseIn := .high
  answers := []
  instrReady := true
  out := []
  todo := []
  escape := false
  popped := none
  inCall := none
  draws := 0
  stream := 0

/-- The machine right after reset, a node at power-on under the reference configuration (log 1). -/
def State.reset : State := State.powerOn Config.ref

end Sys2Proof.Machine
end

