-- ==== Sys2Proof/Machine/Ops.lean ====
section
/-! DEFINITION. The named operations over the buffers, the ports and the registers, the admission of a
configuration (R9), tick exit (R141), the device reset (R292) and the wire codec's send side
(spec/40_codec.md, spec/43_transmitter.md). -/

namespace Sys2Proof.Machine

/-- Go on with the next state of an outcome; a fault or a refusal stays. -/
def andThen (o : Host.Outcome State Fault Refusal) (k : State → Host.Outcome State Fault Refusal) :
    Host.Outcome State Fault Refusal :=
  match o with
  | .next s => k s
  | .fault r => .fault r
  | .refused r => .refused r

/-! ## Admission (R9) -/

/-- R9 item 3 for one status: neither it nor its checksum `status +8 2` is reserved. -/
def statusFrameFits (status : Byte) : Bool := !reserved status && !reserved (status + 2)

/-- The longest reply body: it fits `TxBuf`, and its length byte `m + 2` is at most 255 (R9 item 6, D31). -/
def replyRoom (c : Config) : Nat := min c.txBufCap 253

/-- The bytes of a list are pairwise distinct. -/
def distinct : List Byte → Bool
  | [] => true
  | b :: rest => !rest.elem b && distinct rest

/-- The admitted configurations (R9); the item of R9 beside each line. -/
def admitted (c : Config) : Bool :=
  -- item 5
  decide (2 ≤ c.rxBufCap) && decide (c.rxBufCap ≤ 255)
    -- item 7
    && decide (1 ≤ c.timeBytes) && decide (c.timeBytes + 3 ≤ c.rxBufCap - 2)
    -- item 6
    && decide (1 + 4 * c.features.length + 1 ≤ replyRoom c) && decide (1 + c.idString.length ≤ 253)
    -- items 1, 2, 3, 4
    && distinct c.codes
    && distinct [c.statusOk, c.statusUnknownCmd, c.statusSumErr, c.statusOverflow]
    && statusFrameFits c.statusSumErr && statusFrameFits c.statusOverflow
    && distinct [c.featNote, c.featLight, c.featControl, c.featOffset, featPad]

/-! ## Memory (the buffers, R33, R50) -/

/-- What an address that no entry lists reads as. R33 leaves the buffers' power-on contents open; no rule reads a
byte that was not written in the same frame (R36). DESIGN CHOICE (log 2). -/
def Memory.unlisted : Byte := 0

/-- `MemRead(buf, a, 1)` (R12). -/
def Memory.read : Memory → Nat → Byte
  | [], _ => Memory.unlisted
  | (a, v) :: rest, b => if a = b then v else Memory.read rest b

/-- The memory without an entry for `a`. -/
def Memory.erase : Memory → Nat → Memory
  | [], _ => []
  | (a, v) :: rest, b => if a = b then Memory.erase rest b else (a, v) :: Memory.erase rest b

/-- The memory with the entry `(b, w)`, in its place in the order. -/
def Memory.insert : Memory → Nat → Byte → Memory
  | [], b, w => [(b, w)]
  | (a, v) :: rest, b, w =>
    if b < a then (b, w) :: (a, v) :: rest
    else if a = b then (b, w) :: rest
    else (a, v) :: Memory.insert rest b w

/-- `MemWrite(buf, a, 1, v)` (R12), keeping the canonical form. -/
def Memory.write (m : Memory) (a : Nat) (v : Byte) : Memory :=
  if v = Memory.unlisted then m.erase a else m.insert a v

/-- Bytes written at `a`, `a + 1`, …, in order. -/
def Memory.writeAll (m : Memory) (a : Nat) : List Byte → Memory
  | [] => m
  | v :: rest => Memory.writeAll (m.write a v) (a + 1) rest

/-- The `n` bytes from address 0 on. -/
def Memory.prefixBytes (m : Memory) (n : Nat) : List Byte := (List.range n).map m.read

/-- Every entry lies above `lo`, addresses rise strictly, and no entry reads as an unlisted address does. -/
def Memory.wfFrom (lo : Nat) : Memory → Bool
  | [] => true
  | (a, v) :: rest => decide (lo ≤ a) && decide (v ≠ Memory.unlisted) && Memory.wfFrom (a + 1) rest

/-- The canonical form. -/
def Memory.wf (m : Memory) : Bool := Memory.wfFrom 0 m

/-- Every listed address is below `cap`. -/
def Memory.below (cap : Nat) (m : Memory) : Bool := m.all fun cell => decide (cell.1 < cap)

/-! ## Actions (R5, R12)

A step does one action (R5): a write of one register or buffer byte, an action on a port, or the tick's return. A rule
is the list of its actions, in its order (R59). A step that comes to a rule lists them in `todo` (log 9), and each is
done by a step of its own: `perform`. -/

/-- Some actions after those the tick has still to do. -/
def enqueue (as : List Action) (s : State) : State := { s with todo := s.todo ++ as }

/-- A rule that a model refuses where `fits` is false: else its actions are listed. -/
def listIf (fits : Bool) (r : Refusal) (as : List Action) (s : State) : Host.Outcome State Fault Refusal :=
  if fits then .next (enqueue as s) else .refused r

/-! ## The codec's send side (R110, R111, R116) -/

/-- `TxPush` of each byte in order. -/
def pushes (bytes : List Byte) : List Action := bytes.map fun b => .port (.tx b)

/-- `Encode(v)` (R110): `v` is added to `TSUM`, and then its stuffed form is pushed. -/
def encodeByte (v : Byte) : List Action := .write (.addTsum v) :: pushes (stuffByte v)

/-- `EncodeFinal(v)`: stuffed as `Encode` does, and not added to `TSUM`. -/
def encodeFinal (v : Byte) : List Action := pushes (stuffByte v)

/-- `WriteRaw(b)`. -/
def writeRaw (b : Byte) : Action := .port (.tx b)

/-- `Encode` of each byte in order. -/
def encodeAll (bytes : List Byte) : List Action := bytes.flatMap encodeByte

/-! ## The reply buffer and the transmitter (R53, R220 to R225) -/

/-- The start of a dispatch: `TLEN <- 0` (R170). -/
def freshReply : Action := .write (.tlen 0)

/-- `TxAppend(v)` where `TLEN` is `n` (R53). -/
def txAppend (n : Nat) (v : Byte) : List Action := [.write (.txBuf n v), .write (.tlen (BitVec.ofNat 8 (n + 1)))]

/-- `TxAppend` of each byte in order, from `TLEN = n` on. -/
def txAppendAll : Nat → List Byte → List Action
  | _, [] => []
  | n, v :: rest => txAppend n v ++ txAppendAll (n + 1) rest

/-- `TxBuf[0 .. TLEN-1]`. -/
def replyBody (s : State) : List Byte := s.txBuf.prefixBytes s.tlen.toNat

/-- The checksum of a reply: `TSUM` after the last body byte (R222). -/
def replySum (status : Byte) (body : List Byte) : Byte :=
  masterAddr + BitVec.ofNat 8 (body.length + 2) + status + byteSum body

/-- What `SendReply` and `SendIdReply` share: the direction bracket (R225) round a frame whose body bytes are
encoded one by one (R220). The checksum that `EncodeFinal` sends is what `TSUM` holds when its turn comes (R222). -/
def sendFrame (status : Byte) (body : List Byte) : List Action :=
  [.port (.dir .tx), writeRaw syncByte, writeRaw masterAddr, .write (.tsum masterAddr)] ++
    (encodeByte (BitVec.ofNat 8 (body.length + 2)) ++ encodeByte status ++ encodeAll body ++
      encodeFinal (replySum status body) ++ [.port (.dir .rx)])

/-- `SendReply(status, body)` (R220), where `body` is `TxBuf[0 .. TLEN-1]`. -/
def sendReply (status : Byte) (body : List Byte) : List Action := sendFrame status body

/-- `SendIdReply()` (R223): the body `REPORT_OK ++ ID_STRING` goes straight to `Encode` and not through `TxBuf`. -/
def sendIdReply (c : Config) : List Action := sendFrame c.statusOk (c.reportOk :: c.idString)

/-- `SendStatusFrame(s)` (R224): five bytes, none of them stuffed. -/
def sendStatusFrame (status : Byte) : List Action :=
  .port (.dir .tx) :: (pushes [syncByte, masterAddr, 0x02, status, masterAddr + 0x02 + status] ++ [.port (.dir .rx)])

/-- A fixed status frame, and the tick's return; a status that would need stuffing is refused (R224). -/
def statusFrame (status : Byte) (s : State) : Host.Outcome State Fault Refusal :=
  listIf (statusFrameFits status) .statusReserved (sendStatusFrame status ++ [.ret]) s

/-- A positive reply from an empty `TxBuf` (R171): `before`, `TxAppend` of each body byte, `between`,
`reply(STATUS_OK)`, `after`, and the tick's return. A reply longer than `replyRoom` is refused (R53, D31). -/
def reply (before : List Action) (body : List Byte) (between after : List Action) (s : State) :
    Host.Outcome State Fault Refusal :=
  listIf (decide (body.length ≤ replyRoom s.cfg)) .replyDoesNotFit
    (before ++ txAppendAll 0 body ++ between ++ sendReply s.cfg.statusOk body ++ after ++ [.ret]) s

/-- A command that does nothing but reply (R170, R171). -/
def replyOk (body : List Byte) (s : State) : Host.Outcome State Fault Refusal := reply [freshReply] body [] [] s

/-! ## Tick exit, errors and the device reset -/

/-- Tick exit (R141): `RSTATE = WAITING`. `DIR` is `RX` already, since every reply ends so (R225). -/
def endTick (s : State) : State := { s with rstate := .waiting }

/-- Entry to `GOT_SYNC` (R131, R132, R139): `state <- GOT_SYNC`, `SUM <- 0`. The frame in flight is discarded, a pending
`MARK` with it (R112). -/
def startFrame (s : State) : State :=
  enqueue [.write (.rstate .gotSync), .write (.sum 0)] { s with escape := false }

/-- The five error classes of R260. -/
inductive ErrorClass where
  | framing
  | capacity
  | integrity
  | routing
  | unknownCommand
deriving DecidableEq, Repr

/-- Taking an error: the entry and the return of each class (R261 to R268). Entry saves nothing (R267): a framing
error restarts (R261), a capacity error goes to `OVERFLOW` to be reported unless the frame is broadcast (R262, R134),
an integrity error is always reported (R263), a routing non-match is dropped (R264), an unknown command is reported
unless the frame is broadcast (R265, R190), with an empty body. Every class but the first ends the tick (R268): at
once, or after its reply; a directed capacity error through `reportOverflow`. -/
def takeError (e : ErrorClass) (s : State) : Host.Outcome State Fault Refusal :=
  match e with
  | .framing => .next (startFrame s)
  | .capacity => .next (enqueue [if s.bcast then .ret else .write (.rstate .overflow)] s)
  | .integrity => statusFrame s.cfg.statusSumErr s
  | .routing => .next (enqueue [.ret] s)
  | .unknownCommand =>
    if s.bcast then .next (enqueue [.ret] s)
    else .next (enqueue (sendReply s.cfg.statusUnknownCmd [] ++ [.ret]) s)

/-- The state `OVERFLOW` (R137): the status frame is sent, and the tick returns. -/
def reportOverflow (s : State) : Host.Outcome State Fault Refusal := statusFrame s.cfg.statusOverflow s

/-- The bytes a buffer holds when R36 leaves it unspecified: draws from `d` on of the node's stream (log 4). -/
def drawBytes (stream d n : Nat) : List Byte := (List.range n).map fun k => Config.freeByte stream (d + k)

/-- The node restarted by its platform (R292 `POWER_ON`, R290): the power-on values of R36, every register and both
buffers that R36 leaves unspecified drawn from the node's own stream (log 4, log 26). The configuration is set up
again unchanged (R293), the ports' inputs are kept, since the engine does not clear the receive port (R36, log 14), and
the rest of the tick does not run (R292). -/
def restartNode (s : State) : State :=
  let d := s.draws
  { s with
    id := unsetId
    senseOut := .high
    cntr := 0
    dir := .rx
    rstate := .waiting
    sum := Config.freeByte s.stream d
    dest := Config.freeByte s.stream (d + 1)
    bcast := (Config.freeByte s.stream (d + 2)).getLsbD 0
    count := Config.freeByte s.stream (d + 3)
    cmd := Config.freeByte s.stream (d + 4)
    ptr := Config.freeByte s.stream (d + 5)
    tlen := Config.freeByte s.stream (d + 6)
    tsum := Config.freeByte s.stream (d + 7)
    rxBuf := Memory.writeAll [] 0 (drawBytes s.stream (d + 8) s.cfg.rxBufCap)
    txBuf := Memory.writeAll [] 0 (drawBytes s.stream (d + 8 + s.cfg.rxBufCap) s.cfg.txBufCap)
    todo := []
    escape := false
    popped := none
    inCall := none
    draws := d + 8 + s.cfg.rxBufCap + s.cfg.txBufCap }

/-- What a device reset with a given effect does: under `ENGINE_KEPT` nothing, and the tick goes on to its end, under
`POWER_ON` the rest of the tick does not run (R292). -/
def afterReset (effect : ResetEffect) (s : State) : State :=
  match effect with
  | .engineKept => s
  | .powerOn => restartNode s

/-- The device reset, once requested (R292): one of its two effects, drawn from the node's own stream (log 4, log 26).
-/
def deviceReset (s : State) : State :=
  afterReset (Config.freeResetEffect s.stream s.draws) { s with draws := s.draws + 1 }

/-- An action on an output port (R37): it goes out, `SetDir` and `SenseOut` set their level, `DevReset()` has its effect
(R292), and a call to the instrument is under way until the instrument returns (R193). -/
def doPort (e : PortEvent) (s : State) : State :=
  let s := { s with out := s.out ++ [e] }
  match e with
  | .dir d => { s with dir := d }
  | .tx _ => s
  | .senseOut l => { s with senseOut := l }
  | .devReset => deviceReset s
  | .call c => { s with inCall := some c }

/-- One write of a register or of a buffer byte. -/
def applyWrite (w : Write) (s : State) : State :=
  match w with
  | .id v => { s with id := v }
  | .cntr v => { s with cntr := v }
  | .rstate r => { s with rstate := r }
  | .sum v => { s with sum := v }
  | .dest v => { s with dest := v }
  | .bcast b => { s with bcast := b }
  | .count v => { s with count := v }
  | .cmd v => { s with cmd := v }
  | .ptr v => { s with ptr := v }
  | .rxBuf a v => { s with rxBuf := s.rxBuf.write a v }
  | .txBuf a v => { s with txBuf := s.txBuf.write a v }
  | .tlen v => { s with tlen := v }
  | .tsum v => { s with tsum := v }
  | .addTsum v => { s with tsum := s.tsum + v }

/-- A step that does one action (R5), with `s.todo` left to do after it. -/
def perform (a : Action) (s : State) : State :=
  match a with
  | .port e => doPort e s
  | .write w => applyWrite w s
  | .ret => endTick s

/-- Actions done one after another. -/
def performAll (as : List Action) (s : State) : State := as.foldl (fun s a => perform a s) s

end Sys2Proof.Machine
end

