-- ==== Sys2Proof/Machine/Flags.lean ====
section
/-! DEFINITION. The engine's flag and the tests the receiver and the dispatcher make: `BCAST` (spec/10_state.md R28,
R34), routing (R133), capacity (R134), the checksum (R113, R138) and eligibility (R175, R243). -/

namespace Sys2Proof.Machine

/-- `BCAST` of a destination (R28): 1 if and only if it is `BROADCAST`. -/
def broadcastFlag (dest : Byte) : Bool := dest == broadcastAddr

/-- The routing test of `GOT_SYNC` after the master test (R133): broadcast, or this node's identity. -/
def acceptsDest (s : State) (dest : Byte) : Bool := broadcastFlag dest || dest == s.id

/-- The capacity test of `READ_COUNT` (R134): `COUNT > RX_BUF_CAP`. -/
def overCapacity (s : State) (count : Byte) : Bool := decide (s.cfg.rxBufCap < count.toNat)

/-- `SUM` with one more decoded payload byte (R113): the last thing `Decode()` does (R112). -/
def accumulate (v : Byte) (s : State) : State := enqueue [.write (.sum (s.sum + v))] s

/-- A node is eligible when `SenseIn() = HIGH` and `ID = UNSET` (R243, R175). -/
def eligible (s : State) : Bool := s.senseIn == .high && s.id == unsetId

/-- The byte GET_SENSE reports for a level (R183). -/
def senseByte : Level → Byte
  | .high => 0x01
  | .low => 0x00

end Sys2Proof.Machine
end

