-- ==== Sys2Proof/Machine/Operands.lean ====
section
/-! DEFINITION. The operands of a request body (spec/30_encoding.md R81, R83; spec/42_dispatcher.md R173), the body the
receive buffer holds, and the encoding of a feature descriptor (R80, R84). -/

namespace Sys2Proof.Machine

/-- The body of the validated frame: `RxBuf[0 .. BODYLEN(COUNT)-1]` (R170). -/
def frameBody (s : State) : List Byte := s.rxBuf.prefixBytes (bodyLen s.count)

/-- `Body(i)` of R173, and the index of the draw after it: the body byte, or draw `d` of the node's own stream beyond
the body (R52, log 3, log 26). -/
def bodyAt (stream : Nat) (body : List Byte) (i d : Nat) : Byte × Nat :=
  match body[i]? with
  | some b => (b, d)
  | none => (Config.freeByte stream d, d + 1)

/-- The first `t` bytes as an unsigned big-endian number (R83), and the index of the draw after them. -/
def timeAt (stream : Nat) (body : List Byte) : Nat → Nat → Nat × Nat
  | 0, d => (0, d)
  | t + 1, d =>
    let high := timeAt stream body t d
    let low := bodyAt stream body t high.2
    (high.1 * 256 + low.1.toNat, low.2)

/-- The operands of NOTE_DOWN, NOTE_UP, LIGHT and CONTROL (R81): the time and the three bytes after it. -/
structure EventArgs where
  time : Nat
  channel : Byte
  index : Byte
  value : Byte
deriving DecidableEq, Repr

/-- `time = Time()`, `Body(T)`, `Body(T+1)`, `Body(T+2)` (R81), read in this order, and the index of the draw after. -/
def eventArgs (stream t : Nat) (body : List Byte) (d : Nat) : EventArgs × Nat :=
  let time := timeAt stream body t d
  let channel := bodyAt stream body t time.2
  let index := bodyAt stream body (t + 1) channel.2
  let value := bodyAt stream body (t + 2) index.2
  ({ time := time.1, channel := channel.1, index := index.1, value := value.1 }, value.2)

/-- `hi_byte(x)` of R11. -/
def hiByte (x : BitVec 16) : Byte := x.extractLsb' 8 8

/-- `lo_byte(x)` of R11. -/
def loByte (x : BitVec 16) : Byte := x.extractLsb' 0 8

/-- `enc(d)` of a feature descriptor, four bytes (R80, R84). -/
def encFeature (c : Config) : Feature → List Byte
  | .note ch min max => [c.featNote, ch, min, max]
  | .light ch min max => [c.featLight, ch, min, max]
  | .control ch min max => [c.featControl, ch, min, max]
  | .offset v => [c.featOffset, hiByte v, loByte v, featPad]

/-- The body bytes of a GET_FEATURES reply (R82, R180): report, descriptors in order, terminator. -/
def featuresBody (c : Config) : List Byte := c.reportOk :: (c.features.flatMap (encFeature c) ++ [featPad])

end Sys2Proof.Machine
end

