-- ==== Sys2Proof/Machine/Addressing.lean ====
section
/-! DEFINITION. RESET and ASSIGN_ADDR (spec/42_dispatcher.md R174, R175). -/

namespace Sys2Proof.Machine

/-- RESET (R174, R291): with the right check byte, `ID <- UNSET`, `SenseOut(HIGH)`, `DevReset()`; no reply in either
case. A wrong check byte does nothing (D19). -/
def execReset (body : List Byte) (s : State) : Host.Outcome State Fault Refusal :=
  let check := bodyAt s.stream body 0 s.draws
  let s := { s with draws := check.2 }
  if check.1 = s.cfg.resetCheck then
    .next (enqueue [freshReply, .write (.id unsetId), .port (.senseOut .high), .port .devReset, .ret] s)
  else .next (enqueue [freshReply, .ret] s)

/-- ASSIGN_ADDR (R175): an eligible node takes the address, replies, and then drives its sense output low; any other
node does nothing and sends nothing. The sense input is sampled once, here (D29). -/
def execAssignAddr (body : List Byte) (s : State) : Host.Outcome State Fault Refusal :=
  if eligible s then
    let addr := bodyAt s.stream body 0 s.draws
    reply [freshReply, .write (.id addr.1)] [s.cfg.reportOk] [] [.port (.senseOut .low)] { s with draws := addr.2 }
  else .next (enqueue [freshReply, .ret] s)

end Sys2Proof.Machine
end

