-- ==== Sys2Proof/Machine/Diagnostics.lean ====
section
/-! DEFINITION. PING, GET_SENSE, INCR, CNTR, REQ_RETRANSMIT and the unknown command
(spec/42_dispatcher.md R181 to R185, R190). -/

namespace Sys2Proof.Machine

/-- PING (R182). -/
def execPing (_body : List Byte) (s : State) : Host.Outcome State Fault Refusal :=
  replyOk [s.cfg.reportOk] s

/-- GET_SENSE (R183): the input line, sampled once, not `SENSE_OUT`. -/
def execGetSense (_body : List Byte) (s : State) : Host.Outcome State Fault Refusal :=
  replyOk [s.cfg.reportOk, senseByte s.senseIn] s

/-- INCR (R184): the counter wraps from `0xFF` to `0x00` (D14); no reply. -/
def execIncr (_body : List Byte) (s : State) : Host.Outcome State Fault Refusal :=
  .next (enqueue [freshReply, .write (.cntr (s.cntr + 1)), .ret] s)

/-- CNTR (R185): the counter is appended, then cleared, then the reply is sent. -/
def execCntr (_body : List Byte) (s : State) : Host.Outcome State Fault Refusal :=
  reply [freshReply] [s.cfg.reportOk, s.cntr] [.write (.cntr 0)] [] s

/-- REQ_RETRANSMIT (R181): reserved and not implemented, treated as an unknown command (D18). -/
def execReqRetransmit (_body : List Byte) (s : State) : Host.Outcome State Fault Refusal :=
  takeError .unknownCommand (enqueue [freshReply] s)

/-- An unknown command (R190): reported when directed, dropped when broadcast. -/
def execUnknown (_code : Byte) (_body : List Byte) (s : State) : Host.Outcome State Fault Refusal :=
  takeError .unknownCommand (enqueue [freshReply] s)

end Sys2Proof.Machine
end

