-- ==== Sys2Proof/Machine/Instrument.lean ====
section
/-! DEFINITION. The instrument port (spec/42_dispatcher.md R188, R193): a call, its return, and what the engine does
with the answer. -/

namespace Sys2Proof.Machine

/-- The instrument's next answer: the oldest one queued on its port, or a draw of the node's own stream when none is
(R193, log 5, log 26). -/
def takeAnswer (s : State) : Answer × State :=
  match s.answers with
  | a :: rest => (a, { s with answers := rest })
  | [] => (Config.freeAnswer s.stream s.draws, { s with draws := s.draws + 1 })

/-- What a LIGHT or CONTROL does with `(handled, answer)` (R188): not handled is an unknown command, `Some(bytes)` is
an OK reply with that body, appended from `TLEN = 0` on (R170), `None` is no reply. A body that does not fit is
refused (D31). -/
def useAnswer (a : Answer) (s : State) : Host.Outcome State Fault Refusal :=
  if a.handled then
    match a.reply with
    | none => .next (enqueue [.ret] s)
    | some bytes =>
      listIf (decide (bytes.length ≤ replyRoom s.cfg)) .instrumentAnswer
        (txAppendAll 0 bytes ++ sendReply s.cfg.statusOk bytes ++ [.ret]) s
  else takeError .unknownCommand s

/-- The return of an instrument call (R193): the dispatcher continues where it called. -/
def callReturn (c : Call) (s : State) : Host.Outcome State Fault Refusal :=
  match c with
  | .noteDown _ _ _ _ => .next (enqueue [.ret] s)
  | .noteUp _ _ _ _ => .next (enqueue [.ret] s)
  | .light _ _ _ _ => useAnswer (takeAnswer s).1 (takeAnswer s).2
  | .control _ _ _ _ => useAnswer (takeAnswer s).1 (takeAnswer s).2

/-- NOTE_DOWN, NOTE_UP, LIGHT and CONTROL: the operands are decoded and the call `mk` is made (R186 to R189). The
dispatcher continues at `callReturn` when the instrument returns, and the tick is blocked until then (R193, U14). -/
def forwardEvent (mk : Nat → Byte → Byte → Byte → Call) (body : List Byte) (s : State) :
    Host.Outcome State Fault Refusal :=
  let args := eventArgs s.stream s.cfg.timeBytes body s.draws
  .next (enqueue [freshReply, .port (.call (mk args.1.time args.1.channel args.1.index args.1.value))]
    { s with draws := args.2 })

end Sys2Proof.Machine
end

