-- ==== Sys2Proof/Machine/Events.lean ====
section
/-! DEFINITION. The instrument events (spec/42_dispatcher.md R186 to R189). -/

namespace Sys2Proof.Machine

/-- NOTE_DOWN (R186): no reply, whether the instrument plays the note or not. -/
def execNoteDown (body : List Byte) (s : State) : Host.Outcome State Fault Refusal :=
  forwardEvent .noteDown body s

/-- NOTE_UP (R187). -/
def execNoteUp (body : List Byte) (s : State) : Host.Outcome State Fault Refusal :=
  forwardEvent .noteUp body s

/-- LIGHT (R188). -/
def execLight (body : List Byte) (s : State) : Host.Outcome State Fault Refusal :=
  forwardEvent .light body s

/-- CONTROL (R189). -/
def execControl (body : List Byte) (s : State) : Host.Outcome State Fault Refusal :=
  forwardEvent .control body s

end Sys2Proof.Machine
end

