-- ==== Sys2Proof/Machine/Identification.lean ====
section
/-! DEFINITION. READ_ID, the version queries and GET_FEATURES (spec/42_dispatcher.md R176 to R180). -/

namespace Sys2Proof.Machine

/-- READ_ID (R176): the identification string through the fast path; `TxBuf` is not used. A string whose length byte
would exceed 255 is refused (R9 item 6, D31). -/
def execReadId (_body : List Byte) (s : State) : Host.Outcome State Fault Refusal :=
  listIf (decide (1 + s.cfg.idString.length ≤ 253)) .replyDoesNotFit (freshReply :: sendIdReply s.cfg ++ [.ret]) s

/-- GET_CMD_VERSION (R177). -/
def execGetCmdVersion (_body : List Byte) (s : State) : Host.Outcome State Fault Refusal :=
  replyOk [s.cfg.reportOk, s.cfg.verCmd] s

/-- GET_JVS_VERSION (R178). -/
def execGetJvsVersion (_body : List Byte) (s : State) : Host.Outcome State Fault Refusal :=
  replyOk [s.cfg.reportOk, s.cfg.verJvs] s

/-- GET_COMM_VERSION (R179). -/
def execGetCommVersion (_body : List Byte) (s : State) : Host.Outcome State Fault Refusal :=
  replyOk [s.cfg.reportOk, s.cfg.verComm] s

/-- GET_FEATURES (R180): every descriptor in registration order, then the terminator. -/
def execGetFeatures (_body : List Byte) (s : State) : Host.Outcome State Fault Refusal :=
  replyOk (featuresBody s.cfg) s

end Sys2Proof.Machine
end

