-- ==== Sys2Proof/Machine/Wire.lean ====
section
/-! DEFINITION. The two reserved wire bytes as the receiver meets them (spec/40_codec.md R112,
spec/41_receiver.md R131, R139). -/

namespace Sys2Proof.Machine

/-- A raw `SYNC` popped (R70, R131, R139): a frame starts, in `WAITING` and in every state of a frame; inside a frame
this is the framing error of R261. `OVERFLOW` pops nothing and cannot restart (R139). -/
def execSync (s : State) : Host.Outcome State Fault Refusal :=
  match s.rstate with
  | .waiting => .next (startFrame s)
  | .gotSync | .readCount | .readCommand | .readBody | .verifySum => takeError .framing s
  | .overflow => .next s

/-- A raw `MARK` popped (R112): the next wire byte plus 1 is the payload byte. In `WAITING` it is discarded like any
byte that is not `SYNC` (R131), and `OVERFLOW` pops nothing (R137). -/
def execMark (s : State) : Host.Outcome State Fault Refusal :=
  match s.rstate with
  | .waiting => .next s
  | .gotSync | .readCount | .readCommand | .readBody | .verifySum => .next { s with escape := true }
  | .overflow => .next s

end Sys2Proof.Machine
end

