-- ==== Sys2Proof/Machine/Dispatch.lean ====
section
/-! DEFINITION. One arm for each instruction: the meaning of the rule R170 selects (spec/42_dispatcher.md). -/

namespace Sys2Proof.Machine

def exec (i : Instr) (s : State) : Host.Outcome State Fault Refusal :=
  match i with
  | .reset body => Sys2Proof.Machine.execReset body s
  | .assignAddr body => Sys2Proof.Machine.execAssignAddr body s
  | .readId body => Sys2Proof.Machine.execReadId body s
  | .getCmdVersion body => Sys2Proof.Machine.execGetCmdVersion body s
  | .getJvsVersion body => Sys2Proof.Machine.execGetJvsVersion body s
  | .getCommVersion body => Sys2Proof.Machine.execGetCommVersion body s
  | .getFeatures body => Sys2Proof.Machine.execGetFeatures body s
  | .reqRetransmit body => Sys2Proof.Machine.execReqRetransmit body s
  | .ping body => Sys2Proof.Machine.execPing body s
  | .getSense body => Sys2Proof.Machine.execGetSense body s
  | .incr body => Sys2Proof.Machine.execIncr body s
  | .cntr body => Sys2Proof.Machine.execCntr body s
  | .noteDown body => Sys2Proof.Machine.execNoteDown body s
  | .noteUp body => Sys2Proof.Machine.execNoteUp body s
  | .light body => Sys2Proof.Machine.execLight body s
  | .control body => Sys2Proof.Machine.execControl body s
  | .unknown code body => Sys2Proof.Machine.execUnknown code body s
  | .sync => Sys2Proof.Machine.execSync s
  | .mark => Sys2Proof.Machine.execMark s

end Sys2Proof.Machine
end

