-- ==== Sys2Proof/Machine/Receiver.lean ====
section
/-! DEFINITION. The frame receiver, one step at a time (spec/41_receiver.md R130 to R143): what a step does before it
runs an instruction. A step pops one byte, or does one action, or lists the actions that a popped byte asks for
(R5, log 9). -/

namespace Sys2Proof.Machine

/-- What one step of the receiver comes to: an outcome, or an instruction to run in a state. -/
inductive Fetched where
  | done (o : Host.Outcome State Fault Refusal)
  | run (i : Instr) (s : State)

/-- `READ_BODY`'s write (R51, R136): `RxBuf[PTR] <- v`, `PTR <- PTR + 1`. -/
def storeBody (v : Byte) (s : State) : Host.Outcome State Fault Refusal :=
  if s.ptr.toNat < s.cfg.rxBufCap then
    .next (enqueue [.write (.rxBuf s.ptr.toNat v), .write (.ptr (s.ptr + 1))] s)
  else .fault .rxBufIndex

/-- A decoded payload byte `v` in the state `RSTATE` (R133 to R138), as the list of what its rule writes: `Decode()`
adds it to `SUM` first (R113), and `VERIFY_SUM` compares it with `SUM` as it was before. -/
def receive (v : Byte) (s : State) : Fetched :=
  let t := accumulate v s
  match s.rstate with
  | .gotSync =>
    let t := enqueue [.write (.dest v)] t
    if v = masterAddr then .done (takeError .routing t)
    else
      let t := enqueue [.write (.bcast (broadcastFlag v))] t
      if acceptsDest t v then .done (.next (enqueue [.write (.rstate .readCount)] t))
      else .done (takeError .routing t)
  | .readCount =>
    let t := enqueue [.write (.count v)] t
    if overCapacity t v then .done (takeError .capacity t)
    else .done (.next (enqueue [.write (.rstate .readCommand)] t))
  | .readCommand => .done (.next (enqueue [.write (.cmd v), .write (.ptr 0), .write (.rstate .readBody)] t))
  | .readBody => .done (storeBody v t)
  | .verifySum =>
    if v = s.sum then .run (decodeCommand t.cfg t.cmd (frameBody t)) t
    else .done (takeError .integrity t)
  | .waiting => .done (.next s)
  | .overflow => .done (.next s)

/-- What the byte `b` just popped asks for: a raw `SYNC` or `MARK` is that instruction, any other byte is
discarded in `WAITING` (R131) and is payload inside a frame, plus 1 after a `MARK` (R112). `OVERFLOW` pops nothing
(R137). -/
def receiveWire (b : Byte) (s : State) : Fetched :=
  if b = syncByte then .run .sync s
  else
    match s.rstate with
    | .waiting | .overflow => if b = markByte then .run .mark s else .done (.next s)
    | .gotSync | .readCount | .readCommand | .readBody | .verifySum =>
      if s.escape then receive (b + 1) { s with escape := false }
      else if b = markByte then .run .mark s
      else receive b s

/-- `RxPop()` (R12): the oldest byte leaves the port; its register updates are the next step's (R5, log 9). With no
byte, `WAITING` returns idle (R131) and every other state holds (R140): the state stays as it is either way. -/
def popByte (s : State) : Host.Outcome State Fault Refusal :=
  match s.rx with
  | [] => .next s
  | b :: rest => .next { s with rx := rest, popped := some b }

/-- R9: a model refuses a configuration that is not admitted; it runs nothing under it. -/
def underAdmitted (c : Config) (f : Fetched) : Fetched :=
  if admitted c then f else .done (.refused .configuration)

/-- The rule of `RSTATE` (R131 to R138), with no byte popped. -/
def fetchFrame (s : State) : Host.Outcome State Fault Refusal :=
  match s.rstate with
  | .overflow => reportOverflow s
  | .readBody =>
    if s.ptr.toNat < bodyLen s.count then popByte s
    else .next { s with rstate := .verifySum }
  | .waiting | .gotSync | .readCount | .readCommand | .verifySum => popByte s

/-- The step after an instrument call was made (R193): the dispatcher continues when the instrument returns, and until
then the tick is blocked (U14). -/
def awaitReturn (c : Call) (s : State) : Host.Outcome State Fault Refusal :=
  if s.instrReady then callReturn c { s with inCall := none } else .next s

/-- One step up to the instruction it runs: the return of an instrument call, else the next action the tick has to do,
else what the byte just popped asks for, else the rule of `RSTATE`. -/
def fetch (s : State) : Fetched :=
  underAdmitted s.cfg <|
    match s.inCall with
    | some c => .done (awaitReturn c s)
    | none =>
      match s.todo with
      | a :: rest => .done (.next (perform a { s with todo := rest }))
      | [] =>
        match s.popped with
        | some b => receiveWire b { s with popped := none }
        | none => .done (fetchFrame s)

/-- The state in which the byte just popped is the checksum of a request frame held in the receive registers and `RxBuf`
(R170): `VERIFY_SUM`, with the last wire byte of the stuffed checksum popped (after its `MARK`, if it has one). -/
def placeRequest (dest code : Byte) (body : List Byte) (s : State) : State :=
  let cs := byteSum (requestBytes dest code body)
  { s with
    dest := dest
    bcast := broadcastFlag dest
    count := BitVec.ofNat 8 (body.length + 2)
    cmd := code
    ptr := BitVec.ofNat 8 body.length
    rxBuf := s.rxBuf.writeAll 0 body
    sum := cs
    rstate := .verifySum
    escape := reserved cs
    todo := []
    inCall := none
    popped := some (if reserved cs then cs - 1 else cs) }

/-- A raw wire byte just popped by a node between ticks, with more at the front of its receive port. -/
def placeWire (b : Byte) (bytes : List Byte) (s : State) : State :=
  { s with
    rx := bytes ++ s.rx, popped := some b, rstate := .waiting, escape := false, todo := [], inCall := none }

/-- A table word where the next step fetches it (`Decode.tableWire` says what it stands for). -/
def placeWord (nbits w : Nat) (s : State) : State :=
  match tableBytes nbits w with
  | [] => s
  | b :: rest =>
    if reserved b then placeWire b rest s
    else placeRequest broadcastAddr b (tableBody s.cfg b rest) s

end Sys2Proof.Machine
end

