-- ==== Sys2Proof/Machine/Step.lean ====
section
/-! DEFINITION. One step of the engine (spec/00_scope.md R5): the receiver's step, and the instruction it comes to. -/

namespace Sys2Proof.Machine

/-- One step (R5): a byte popped, or one action (a byte pushed, a level written, a device reset requested, an instrument
call, one register or one buffer byte written, the tick's return). Between them, a step that lists the actions a popped
byte or a call's return asks for, and writes no register of the spec (log 9). -/
def step (s : State) : Host.Outcome State Fault Refusal :=
  match fetch s with
  | .done o => o
  | .run i t => exec i t

/-- A table word stored where `step` fetches its next instruction (log 8). -/
def State.withFetchWord (s : State) (nbits w : Nat) : State := placeWord nbits w s

end Sys2Proof.Machine
end

