-- ==== Sys2Proof/Machine/Tick.lean ====
section
/-! DEFINITION. One activation of the engine by the super-loop (spec/00_scope.md R6, spec/41_receiver.md R130, R140 to
R142). -/

namespace Sys2Proof.Machine

/-- `n` steps, stopping at the first fault or refusal. -/
def steps : Nat → State → Host.Outcome State Fault Refusal
  | 0, s => .next s
  | n + 1, s =>
    match step s with
    | .next t => steps n t
    | .fault r => .fault r
    | .refused r => .refused r

/-- At most `n` steps, while an action is left to do. -/
def actionSteps : Nat → State → Host.Outcome State Fault Refusal
  | 0, s => .next s
  | n + 1, s =>
    match s.todo with
    | [] => .next s
    | _ :: _ => andThen (step s) (actionSteps n)

/-- What is left of a dispatch, one step an action (R5), to its end or to an instrument call. -/
def finishActions (s : State) : Host.Outcome State Fault Refusal := actionSteps s.todo.length s

/-- An instruction dispatched, and its actions done. -/
def dispatch (i : Instr) (s : State) : Host.Outcome State Fault Refusal := andThen (exec i s) finishActions

/-- All the steps of one byte: its pop, the listing of what it asks for, and the actions listed. -/
def takeByte (s : State) : Host.Outcome State Fault Refusal :=
  andThen (step s) fun t => andThen (step t) finishActions

/-- The next step needs an input that is not there: a byte (R131 idle, R140 hold), or the return of an instrument call
(R193). A step leaves such a state as it is. -/
def blocked (s : State) : Bool :=
  match s.inCall with
  | some _ => !s.instrReady
  | none =>
    match s.todo with
    | _ :: _ => false
    | [] =>
      match s.popped with
      | some _ => false
      | none =>
        match s.rstate with
        | .overflow => false
        | .readBody => decide (s.ptr.toNat < bodyLen s.count) && s.rx.isEmpty
        | .waiting | .gotSync | .readCount | .readCommand | .verifySum => s.rx.isEmpty

/-- The tick has returned (R141): the engine is in `WAITING`, with nothing left to do and no byte popped. -/
def returned (s : State) : Bool := s.rstate == .waiting && s.todo.isEmpty && s.popped.isNone

/-- At most `fuel` steps of a tick: it ends when the tick has returned (R141), and pauses where it holds. -/
def tickSteps : Nat → State → Host.Outcome State Fault Refusal
  | 0, s => .next s
  | fuel + 1, s =>
    if blocked s then .next s
    else
      match step s with
      | .next t => if returned t then .next t else tickSteps fuel t
      | .fault r => .fault r
      | .refused r => .refused r

/-- More than the steps one instrument call and one reply take: the call and its return, and the actions of a reply,
whose body has at most 253 bytes (R221), each appended to `TxBuf` in two writes, added to `TSUM`, and pushed in at most
two wire bytes (R53, R70, R110). -/
def replySteps : Nat := 1400

/-- `Tick()` (R142): a byte takes at most eight steps (its pop, the listing, the writes listed, and the end of
`READ_BODY` after it), and the dispatch makes at most one call and sends at most one reply, so this many steps reach the
tick's end or a hold. -/
def tick (s : State) : Host.Outcome State Fault Refusal :=
  tickSteps (8 * s.rx.length + replySteps * (s.todo.length + 4)) s

end Sys2Proof.Machine
end

