-- ==== Sys2Proof/Machine/Chain.lean ====
section
/-! DEFINITION. The daisy chain: several engines on one bus, joined by their sense lines
(spec/44_addressing.md R240 to R246, spec/20_memory.md R64, spec/60_exceptions.md R274). -/

namespace Sys2Proof.Machine

/-- A chain of nodes, node 1 first (R240), and the level of node 1's sense input (R242: a parameter, `HIGH` on a real
chain). A node's own `senseIn` field is what it sampled last; the line itself is `senseInput`. -/
structure Chain where
  firstSense : Level
  nodes : List State
deriving DecidableEq, Repr

/-- The link of R241: the downstream input is high exactly when the upstream output is low. -/
def lineLevel : Level → Level
  | .high => .low
  | .low => .high

/-- The level on the sense input of node `k`, counted from 0 (R241, R242). -/
def senseInput (c : Chain) : Nat → Level
  | 0 => c.firstSense
  | k + 1 =>
    match c.nodes[k]? with
    | some n => lineLevel n.senseOut
    | none => .low

/-- Node `k` with its sense input sampled now (D29). -/
def sampled (c : Chain) (k : Nat) (n : State) : State := { n with senseIn := senseInput c k }

/-- Node `k` does `f` while every other node stays as it is, and draws from its own stream (log 26). Which node moves
next is free (R245, D29). -/
def runNode (k : Nat) (f : State → Host.Outcome State Fault Refusal) (c : Chain) :
    Host.Outcome Chain Fault Refusal :=
  match c.nodes[k]? with
  | none => .next c
  | some n =>
    match f (sampled c k n) with
    | .next t => .next { c with nodes := c.nodes.set k t }
    | .fault r => .fault r
    | .refused r => .refused r

/-- The chain at power-on (R274, R290): each node at its own power-on, with its own configuration and its own stream of
draws, so that no draw of a node is another's (DESIGN CHOICE, log 26). -/
def Chain.powerOn (firstSense : Level) (cfgs : List Config) : Chain where
  firstSense := firstSense
  nodes := cfgs.mapIdx fun k c => { State.powerOn c with stream := k }

/-- One step of node `k`. -/
def stepNode (k : Nat) (c : Chain) : Host.Outcome Chain Fault Refusal := runNode k step c

/-- Node `k` dispatches the instruction `i`; the actions it lists are still to be done. -/
def execNode (i : Instr) (k : Nat) (c : Chain) : Host.Outcome Chain Fault Refusal := runNode k (exec i) c

/-- Node `k` dispatches the instruction `i` and does all its actions while every other node stands still. -/
def dispatchNode (i : Instr) (k : Nat) (c : Chain) : Host.Outcome Chain Fault Refusal :=
  runNode k (dispatch i) c

/-- The nodes dispatch the same instruction, one after another, in the order given (R245). -/
def dispatchInOrder (i : Instr) : List Nat → Chain → Host.Outcome Chain Fault Refusal
  | [], c => .next c
  | k :: rest, c =>
    match dispatchNode i k c with
    | .next d => dispatchInOrder i rest d
    | .fault r => .fault r
    | .refused r => .refused r

/-- The bus delivers bytes to every node's receive port (R64). -/
def deliverAll (bytes : List Byte) (c : Chain) : Chain :=
  { c with nodes := c.nodes.map fun n => { n with rx := n.rx ++ bytes } }

/-- Bytes that one node's receive port sees: another node's reply, or an echo (R64, D24). -/
def deliverTo (k : Nat) (bytes : List Byte) (c : Chain) : Chain :=
  { c with nodes := c.nodes.modify k fun n => { n with rx := n.rx ++ bytes } }

/-- Node `k` is eligible: its input line is high and its identity is unset (R243). -/
def nodeEligible (c : Chain) (k : Nat) : Bool :=
  match c.nodes[k]? with
  | some n => eligible (sampled c k n)
  | none => false

/-- The first `j` nodes hold an address and drive low, every later node is unset and drives high, node 1's input is
high, and no node has an action or a call outstanding: the quiescent chain of R243 part way through a sweep. -/
def sweptTo (j : Nat) (c : Chain) : Prop :=
  j ≤ c.nodes.length ∧ c.firstSense = .high ∧
    ∀ k n, c.nodes[k]? = some n → n.todo = [] ∧ n.inCall = none ∧
      (k < j → n.id ≠ unsetId ∧ n.senseOut = .low) ∧ (j ≤ k → n.id = unsetId ∧ n.senseOut = .high)

/-- The frames of `SWEEP n` (R87): a broadcast RESET, then a broadcast ASSIGN_ADDR for each of `1 .. n`. -/
def sweepFrames (c : Config) (n : Nat) : List (List Byte) :=
  encode c broadcastAddr (.reset [c.resetCheck]) ::
    (List.range n).map fun k => encode c broadcastAddr (.assignAddr [BitVec.ofNat 8 (k + 1)])

end Sys2Proof.Machine
end

