-- ==== Sys2Proof/Safety.lean ====
section
/-! DEFINITION. The terms the statements use: what a reply leaves, the frame in flight, and the invariant of a run
(spec/10_state.md R25 to R31, spec/40_codec.md R113, spec/43_transmitter.md R225, R226). -/

namespace Sys2Proof.Machine

/-- The port actions of one reply: the direction bracket of R225 round the bytes of R75. -/
def replyTrace (status : Byte) (body : List Byte) : List PortEvent :=
  .dir .tx :: ((encodeReply status body).map .tx ++ [.dir .rx])

/-- The port actions among some actions. -/
def portEvents (as : List Action) : List PortEvent :=
  as.filterMap fun a => match a with
    | .port e => some e
    | .write _ | .ret => none

/-- `TSUM` after one action (R110, R220). -/
def sumStep (t : Byte) : Action → Byte
  | .write (.tsum v) => v
  | .write (.addTsum v) => t + v
  | _ => t

/-- `TSUM` after some actions. -/
def sumAfter (t : Byte) (as : List Action) : Byte := as.foldl sumStep t

/-- `s` once everything it has still to do is done. -/
def settled (s : State) : State := performAll s.todo { s with todo := [] }

/-- A dispatch that does nothing: `TLEN` cleared (R170), and the tick's return. -/
def ending (s : State) : State := enqueue [freshReply, .ret] s

/-- What is left when a dispatch that does nothing has come to the tick's end. -/
def ended (s : State) : State := { s with tlen := 0, rstate := .waiting }

/-- A dispatch that replies through `TxBuf` (R53, R170, R220): `TLEN` cleared, the body appended, the reply sent, and
the tick's return. -/
def replying (status : Byte) (body : List Byte) (s : State) : State :=
  enqueue (freshReply :: (txAppendAll 0 body ++ sendReply status body ++ [.ret])) s

/-- A dispatch whose reply does not use `TxBuf` (R223, and the empty reply of R190). -/
def replyingDirect (status : Byte) (body : List Byte) (s : State) : State :=
  enqueue (freshReply :: (sendFrame status body ++ [.ret])) s

/-- What is left when a reply built in `TxBuf` is sent and the tick has returned (R53, R141, R220, R225): the body in
`TxBuf`, its length in `TLEN`, the checksum in `TSUM`, `DIR` at `RX`, `RSTATE = WAITING`, the reply's port actions on
the ports, and nothing else. -/
def replied (status : Byte) (body : List Byte) (s : State) : State :=
  { s with
    txBuf := s.txBuf.writeAll 0 body
    tlen := BitVec.ofNat 8 body.length
    tsum := replySum status body
    dir := .rx
    rstate := .waiting
    out := s.out ++ replyTrace status body }

/-- What is left when a reply that does not use `TxBuf` is sent and the tick has returned. -/
def repliedDirect (status : Byte) (body : List Byte) (s : State) : State :=
  { s with
    tlen := 0
    tsum := replySum status body
    dir := .rx
    rstate := .waiting
    out := s.out ++ replyTrace status body }

/-- The bytes the transmit port carried in a trace of port actions. -/
def txBytes : List PortEvent → List Byte
  | [] => []
  | .tx b :: rest => b :: txBytes rest
  | .dir _ :: rest => txBytes rest
  | .senseOut _ :: rest => txBytes rest
  | .devReset :: rest => txBytes rest
  | .call _ :: rest => txBytes rest

/-- No action of a trace sends a byte or drives the direction. -/
def quiet (events : List PortEvent) : Prop := ∀ e ∈ events, (∀ b, e ≠ .tx b) ∧ ∀ d, e ≠ .dir d

/-- The wire byte `b` is the payload byte `v` for the engine (R112): it is `v` itself, or, after a `MARK`, one less than
`v`; a raw `SYNC` is never payload. -/
def Payload (s : State) (b v : Byte) : Prop :=
  b ≠ syncByte ∧ if s.escape then v = b + 1 else b ≠ markByte ∧ v = b

/-- The byte at the front of the receive port is the payload byte `v`, with `rest` after it. -/
def PayloadAt (s : State) (v : Byte) (rest : List Byte) : Prop := ∃ b, s.rx = b :: rest ∧ Payload s b v

/-- `s` with the byte at the front of its receive port popped, and nothing else done. -/
def justPopped (b : Byte) (rest : List Byte) (s : State) : State := { s with rx := rest, popped := some b }

/-- `s` after `Decode()` has returned `v` (R112): the bytes popped, and `v` added to `SUM`. -/
def decoded (v : Byte) (rest : List Byte) (s : State) : State :=
  { s with rx := rest, escape := false, sum := s.sum + v }

/-- `s` after a restart by the `SYNC` at the front of the receive port (R132, R139). -/
def restarted (rest : List Byte) (s : State) : State :=
  { s with rx := rest, rstate := .gotSync, sum := 0, escape := false }

/-- The steps of the byte at the front of the port: it is popped, what it asks for is listed as the actions `as`, and
these, done one a step, come to `t` (R5). -/
def TakesByte (as : List Action) (rest : List Byte) (s t : State) : Prop :=
  steps 2 s = .next (enqueue as { s with rx := rest, escape := false }) ∧ takeByte s = .next t

/-- With a raw `SYNC` next on the port, the steps of that byte restart the engine at `GOT_SYNC` (R139). -/
def RestartsOnSync (s : State) : Prop :=
  ∀ rest, s.rx = syncByte :: rest →
    TakesByte [.write (.rstate .gotSync), .write (.sum 0)] rest s (restarted rest s)

/-- The engine has an admitted configuration, no instrument call outstanding, and no action left to do. -/
def Idle (s : State) : Prop := admitted s.cfg = true ∧ s.inCall = none ∧ s.todo = []

/-- The engine is at a dispatch: it has an admitted configuration, no instrument call outstanding, and nothing left to
do but register writes, such as the update of `SUM` by the checksum byte (R113). -/
def Dispatching (s : State) : Prop :=
  admitted s.cfg = true ∧ s.inCall = none ∧ ∀ a ∈ s.todo, ∃ w, a = .write w

/-- The engine is idle, and no byte is popped that it has still to act on. -/
def Ready (s : State) : Prop := Idle s ∧ s.popped = none

/-- The engine is ready, in the state `r`. -/
def At (r : RState) (s : State) : Prop := Ready s ∧ s.rstate = r

/-- The engine is in an instrument call that has not returned, with nothing left to do but what the answer asks for. -/
def InCall (c : Call) (s : State) : Prop := admitted s.cfg = true ∧ s.inCall = some c ∧ s.todo = []

/-- In the state `s` the receiver decodes a byte next (R133 to R138): every state of a frame but `OVERFLOW`, and
`READ_BODY` while the body is not complete. -/
def Decoding (s : State) : Prop :=
  s.rstate = .gotSync ∨ s.rstate = .readCount ∨ s.rstate = .readCommand ∨
    (s.rstate = .readBody ∧ s.ptr.toNat < bodyLen s.count) ∨ s.rstate = .verifySum

/-- `Σ_{j < t} f j * 256^(t-1-j)`: `t` bytes as an unsigned big-endian number (R83). -/
def bigEndian (t : Nat) (f : Nat → Byte) : Nat := ∑ j ∈ Finset.range t, (f j).toNat * 256 ^ (t - 1 - j)

/-- `Body(i)` of R173 when the draws for the bytes a body lacks are made in order from draw `d` of a stream on. -/
def operandAt (stream : Nat) (body : List Byte) (d i : Nat) : Byte :=
  if h : i < body.length then body[i] else Config.freeByte stream (d + (i - body.length))

/-- The instrument call of an event with this body (R81, R83): `T` time bytes, then three operands. -/
def eventCall (mk : Nat → Byte → Byte → Byte → Call) (body : List Byte) (s : State) : Call :=
  let operand := operandAt s.stream body s.draws
  mk (bigEndian s.cfg.timeBytes operand) (operand s.cfg.timeBytes) (operand (s.cfg.timeBytes + 1))
    (operand (s.cfg.timeBytes + 2))

/-- A dispatch that is about to make the instrument call of an event with this body: one draw for each operand byte the
body lacks, and `TLEN` to clear and the call to make. -/
def calling (mk : Nat → Byte → Byte → Byte → Call) (body : List Byte) (s : State) : State :=
  enqueue [freshReply, .port (.call (eventCall mk body s))]
    { s with draws := s.draws + (s.cfg.timeBytes + 3 - body.length) }

/-- A node that has made the instrument call of an event with this body, and waits for its return: the call is on the
port. -/
def called (mk : Nat → Byte → Byte → Byte → Call) (body : List Byte) (s : State) : State :=
  { s with
    tlen := 0
    draws := s.draws + (s.cfg.timeBytes + 3 - body.length)
    out := s.out ++ [.call (eventCall mk body s)]
    inCall := some (eventCall mk body s) }

/-- The instructions of a list dispatched one after another, each with its actions. -/
def dispatchAll : List Instr → State → Host.Outcome State Fault Refusal
  | [], s => .next s
  | i :: rest, s => andThen (dispatch i s) (dispatchAll rest)

/-- The receive registers of a node that holds a whole request frame whose checksum it has just popped (R170), with
`rest` left on the receive port. The checksum byte is still to be added to `SUM`, which is dead (R138). -/
def loaded (dest code : Byte) (body rest : List Byte) (s : State) : State :=
  let cs := byteSum (requestBytes dest code body)
  { s with
    dest := dest
    bcast := broadcastFlag dest
    count := BitVec.ofNat 8 (body.length + 2)
    cmd := code
    ptr := BitVec.ofNat 8 body.length
    rxBuf := s.rxBuf.writeAll 0 body
    sum := cs
    rstate := .verifySum
    escape := false
    rx := rest
    todo := [.write (.sum (cs + cs))] }

/-- The destination held is one this node accepts (R133). -/
def Routed (s : State) : Prop :=
  s.dest ≠ masterAddr ∧ s.bcast = broadcastFlag s.dest ∧ acceptsDest s s.dest = true

/-- The actions still to do, when the direction output is `d`, keep the direction bracket (R225): a byte is pushed
only while `DIR` is `TX`, every other port action but `SetDir` is done while it is `RX`, it is `RX` at the end, and the
tick's return and an instrument call come last (R141, R193). -/
def bracketed : Direction → List Action → Bool
  | d, [] => d == .rx
  | d, .ret :: rest => d == .rx && rest.isEmpty
  | d, .write _ :: rest => bracketed d rest
  | _, .port (.dir e) :: rest => bracketed e rest
  | d, .port (.tx _) :: rest => d == .tx && bracketed d rest
  | d, .port (.senseOut _) :: rest => d == .rx && bracketed d rest
  | d, .port .devReset :: rest => d == .rx && bracketed d rest
  | d, .port (.call _) :: rest => d == .rx && rest.isEmpty

/-- A write to a buffer is inside it (R50, R51, R53). -/
def Action.inBuffers (c : Config) : Action → Bool
  | .write (.rxBuf a _) => decide (a < c.rxBufCap)
  | .write (.txBuf a _) => decide (a < c.txBufCap)
  | _ => true

/-- The frame in flight, state by state, where nothing is left to do: `SUM` is the `+8` sum of the frame's decoded
bytes so far (R113), the destination is routed (R133), `COUNT` has passed the capacity test or failed it (R134), and
`PTR` is within the body (R31). An instrument call is under way only in `VERIFY_SUM`, where a dispatch has finished
with `SUM` and with the destination (R138) and has cleared `TLEN` (R170); a byte is popped only where the receive
state pops one. -/
def FrameInv (s : State) : Prop :=
  match s.rstate with
  | .waiting => s.escape = false ∧ s.inCall = none
  | .gotSync => s.sum = 0 ∧ s.inCall = none
  | .readCount => Routed s ∧ s.sum = s.dest ∧ s.inCall = none
  | .readCommand => Routed s ∧ overCapacity s s.count = false ∧ s.sum = s.dest + s.count ∧ s.inCall = none
  | .overflow =>
    Routed s ∧ overCapacity s s.count = true ∧ s.bcast = false ∧ s.escape = false ∧ s.inCall = none ∧ s.popped = none
  | .readBody =>
    Routed s ∧ overCapacity s s.count = false ∧ s.ptr.toNat ≤ bodyLen s.count ∧ s.inCall = none ∧
      (s.popped ≠ none → s.ptr.toNat < bodyLen s.count) ∧
      s.sum = s.dest + s.count + s.cmd + byteSum (s.rxBuf.prefixBytes s.ptr.toNat)
  | .verifySum =>
    overCapacity s s.count = false ∧ s.ptr.toNat = bodyLen s.count ∧
      (s.inCall = none →
        Routed s ∧ s.sum = s.dest + s.count + s.cmd + byteSum (s.rxBuf.prefixBytes s.ptr.toNat)) ∧
      (s.inCall ≠ none → s.escape = false ∧ s.popped = none ∧ s.tlen = 0)

/-- The invariant of a run: what is still to do keeps the direction bracket, and `DIR = RX` whenever nothing is (R225);
a popped byte and an instrument call stand alone; both buffers are in canonical form and within their sizes, and so is
every write still to do to them (R50, R51, R53); and the frame in flight is as `FrameInv` says once what is still to do
is done. -/
structure Inv (s : State) : Prop where
  bracket : bracketed s.dir s.todo = true
  alone : s.popped ≠ none ∨ s.inCall ≠ none → s.todo = []
  rxBuf_wf : s.rxBuf.wf = true
  txBuf_wf : s.txBuf.wf = true
  rxBuf_below : s.rxBuf.below s.cfg.rxBufCap = true
  txBuf_below : s.txBuf.below s.cfg.txBufCap = true
  inBuffers : s.todo.all (Action.inBuffers s.cfg) = true
  frame : FrameInv (settled s)

end Sys2Proof.Machine
end

