-- ==== Sys2Proof/Certificates/Slice0/Obligations.lean ====
section
/-! DEFINITION. The statements for the provers. -/

open Sys2Proof Sys2Proof.Machine

/-! ## The wire -/

/-- Every well-formed instruction, encoded for any destination, decodes to itself with its destination
(R72 to R74, R77, R88 read backwards). -/
def Obligations.DecodeUndoesEncode : Prop :=
  ∀ (c : Config) (dest : Byte) (i : Instr), admitted c = true → i.wellFormed c = true →
    decode c (encode c dest i) = .ok (if i.isWire then .wireByte i else .request dest i)

/-- R114: a stuffed sequence destuffs to itself; and the bytes `Encode(x)` pushes, popped by the engine inside a frame,
are received as the payload byte `x`, through the instruction MARK when `x` is reserved. -/
def Obligations.StuffedPayloadDecodesBack : Prop :=
  (∀ s : List Byte, destuff (stuff s) = .ok s) ∧
  ∀ (x : Byte) (s : State), Decoding s → s.escape = false →
    (reserved x = false → stuffByte x = [x] ∧ receiveWire x s = receive x s) ∧
    (reserved x = true → stuffByte x = [markByte, x - 1] ∧ receiveWire markByte s = .run .mark s ∧
      ∃ t, exec .mark s = .next t ∧ receiveWire (x - 1) t = receive x s)

/-- R115: a stuffed byte is itself when it is not reserved, else `MARK` and `0xCF` or `0xDF`; so no stuffed sequence
holds a `SYNC`, and the only `SYNC` of a request or a reply is its first byte. -/
def Obligations.StuffedBytesHoldNoSync : Prop :=
  (∀ v b : Byte, b ∈ stuffByte v → (b = v ∧ v ≠ syncByte ∧ v ≠ markByte) ∨ b = markByte ∨ b = 0xCF ∨ b = 0xDF) ∧
  (∀ s : List Byte, syncByte ∉ stuff s) ∧
  (∀ dest code body, syncByte ∉ (encodeRequest dest code body).tail) ∧
  ∀ status body, syncByte ∉ (encodeReply status body).tail

/-- R73, R86: the wire length of a request is 1 plus, for each decoded byte, 1, or 2 when it is reserved; its `LEN` byte
counts the command, the body and the checksum. `BODYLEN(LEN)` is `LEN - 2`, and 0 for `LEN` 0 and 1 (D11), for which a
frame with a right checksum is its command with an empty body. -/
def Obligations.RequestLengths : Prop :=
  (∀ (dest code : Byte) (body : List Byte),
    (encodeRequest dest code body).length =
      1 + ((requestBytes dest code body ++ [byteSum (requestBytes dest code body)]).map
        fun b => 1 + if b = syncByte ∨ b = markByte then 1 else 0).sum ∧
    (body.length ≤ 253 → bodyLen (BitVec.ofNat 8 (body.length + 2)) = body.length)) ∧
  (∀ len : Byte, (2 ≤ len.toNat → bodyLen len = len.toNat - 2) ∧ (len = 0 ∨ len = 1 → bodyLen len = 0)) ∧
  ∀ (c : Config) (dest len code : Byte), admitted c = true → len = 0 ∨ len = 1 →
    decode c (syncByte :: stuff [dest, len, code, dest + len + code]) =
      .ok (.request dest (decodeCommand c code []))

/-- Words written out from the spec's vectors (95_test_vectors.md sections 3 and 4) decode under `REF` to the
instructions they stand for. -/
def Obligations.WrittenWordsDecode : Prop :=
  decode Config.ref [0xE0, 0x05, 0x02, 0x70, 0x77] = .ok (.request 0x05 (.ping [])) ∧
  decode Config.ref [0xE0, 0xFF, 0x03, 0xF1, 0xD0, 0xCF, 0xC3] = .ok (.request 0xFF (.assignAddr [0xD0])) ∧
  decode Config.ref [0xE0, 0x05, 0x06, 0x74, 0x00, 0x00, 0x45, 0x64, 0x28] =
    .ok (.request 0x05 (.noteDown [0x00, 0x00, 0x45, 0x64])) ∧
  decode Config.ref [0xE0, 0x05, 0x02, 0xD9, 0xD0, 0xDF] = .ok (.request 0x05 (.unknown 0xD9 [])) ∧
  decode Config.ref [0xE0] = .ok (.wireByte .sync) ∧ decode Config.ref [0xD0] = .ok (.wireByte .mark)

/-- R77: each command code selects its command, and a code that is none of the sixteen selects "unknown". -/
def Obligations.CommandCodesSelectTheirCommand : Prop :=
  ∀ (c : Config) (body : List Byte), admitted c = true →
    decodeCommand c c.cmdReset body = .reset body ∧
    decodeCommand c cmdAssignAddr body = .assignAddr body ∧
    decodeCommand c c.cmdReadId body = .readId body ∧
    decodeCommand c c.cmdGetCmdVersion body = .getCmdVersion body ∧
    decodeCommand c c.cmdGetJvsVersion body = .getJvsVersion body ∧
    decodeCommand c c.cmdGetCommVersion body = .getCommVersion body ∧
    decodeCommand c c.cmdGetFeatures body = .getFeatures body ∧
    decodeCommand c c.cmdReqRetransmit body = .reqRetransmit body ∧
    decodeCommand c c.cmdPing body = .ping body ∧
    decodeCommand c c.cmdGetSense body = .getSense body ∧
    decodeCommand c c.cmdIncr body = .incr body ∧
    decodeCommand c c.cmdCntr body = .cntr body ∧
    decodeCommand c c.cmdNoteDown body = .noteDown body ∧
    decodeCommand c c.cmdNoteUp body = .noteUp body ∧
    decodeCommand c c.cmdLight body = .light body ∧
    decodeCommand c c.cmdControl body = .control body ∧
    ∀ code, code ∉ c.codes → decodeCommand c code body = .unknown code body

/-! ## Configuration and reset -/

/-- R9: the configurations admitted are those of items 1 to 7, and every other one is refused by every step. -/
def Obligations.AdmittedConfigurations : Prop :=
  (∀ c : Config, admitted c = true ↔
    c.codes.Nodup ∧
    [c.statusOk, c.statusUnknownCmd, c.statusSumErr, c.statusOverflow].Nodup ∧
    (∀ b ∈ [c.statusSumErr, c.statusOverflow, c.statusSumErr + 2, c.statusOverflow + 2],
      b ≠ syncByte ∧ b ≠ markByte) ∧
    ([c.featNote, c.featLight, c.featControl, c.featOffset].Nodup ∧
      ∀ b ∈ [c.featNote, c.featLight, c.featControl, c.featOffset], b ≠ 0x00) ∧
    (2 ≤ c.rxBufCap ∧ c.rxBufCap ≤ 255) ∧
    (1 + 4 * c.features.length + 1 ≤ min c.txBufCap 253 ∧ 1 + c.idString.length ≤ 253) ∧
    1 ≤ c.timeBytes ∧ c.timeBytes + 3 ≤ c.rxBufCap - 2) ∧
  ∀ s : State, admitted s.cfg = false → step s = .refused .configuration

/-- R36, R290: at power-on `ID = UNSET`, `SENSE_OUT = HIGH`, `DIR = RX`, `RSTATE = WAITING`, `CNTR = 0x00`, under the
configuration of setup. The model's own choices: the trace of port actions is empty then (log 7), no tick is under way
(log 9), and `reset` is the power-on of a node under one admitted configuration (log 1). -/
def Obligations.PowerOnValues : Prop :=
  (∀ c : Config, (State.powerOn c).id = 0xFF ∧ (State.powerOn c).senseOut = .high ∧ (State.powerOn c).dir = .rx ∧
    (State.powerOn c).rstate = .waiting ∧ (State.powerOn c).cntr = 0x00 ∧ (State.powerOn c).cfg = c) ∧
  (∀ c : Config, (State.powerOn c).out = [] ∧ (State.powerOn c).todo = [] ∧ (State.powerOn c).popped = none ∧
    (State.powerOn c).inCall = none) ∧
  ∃ c, admitted c = true ∧ State.reset = State.powerOn c

/-- The invariant holds of a node at power-on under any configuration, the reset state among them. That the buffers are
empty then is the model's choice (log 2). -/
def Obligations.PowerOnMeetsInv : Prop := (∀ c : Config, Inv (State.powerOn c)) ∧ Inv State.reset

/-! ## The step and the invariant -/

/-- The step runs the decoded instruction (R138, R170): with the checksum of the frame held next on the port, the
command its `CMD` and body decode to; with a raw `SYNC` or `MARK` next, that wire byte. One step pops the byte and the
next one is `exec` (the model's form of R5, log 9), in the state where nothing but the port and a pending `MARK` is
changed, and the checksum's addition to `SUM` is the first action left to do (R113). -/
def Obligations.StepRunsDecodedInstruction : Prop :=
  (∀ (s : State) (b : Byte) (rest : List Byte), At .verifySum s → s.rx = b :: rest → Payload s b s.sum →
    step s = .next (justPopped b rest s) ∧
    step (justPopped b rest s) =
      exec (decodeCommand s.cfg s.cmd (frameBody s))
        { s with rx := rest, escape := false, todo := [.write (.sum (s.sum + s.sum))] }) ∧
  (∀ (s : State) (rest : List Byte), Ready s → Decoding s ∨ s.rstate = .waiting → s.rx = syncByte :: rest →
    step s = .next (justPopped syncByte rest s) ∧
    step (justPopped syncByte rest s) = exec .sync { s with rx := rest }) ∧
  ∀ (s : State) (rest : List Byte), Ready s → (Decoding s ∧ s.escape = false) ∨ s.rstate = .waiting →
    s.rx = markByte :: rest →
    step s = .next (justPopped markByte rest s) ∧
    step (justPopped markByte rest s) = exec .mark { s with rx := rest }

/-- Reception (R142): from `WAITING`, the wire bytes of a well-formed request to this node or to all are received, and
the last step runs the command in the state that holds its frame. Each wire byte takes the step of its pop and that of
the listing; and there is one step for each register write: two for `SYNC`, four for the destination, three for the
length, four for the command, three for each body byte, and one from `READ_BODY` to `VERIFY_SUM` (log 9). -/
def Obligations.WholeFrameRunsItsCommand : Prop :=
  ∀ (s : State) (dest : Byte) (i : Instr) (rest : List Byte), At .waiting s → i.wellFormed s.cfg = true →
    i.isWire = false → dest ≠ masterAddr → acceptsDest s dest = true → s.rx = encode s.cfg dest i ++ rest →
    steps (2 * (encode s.cfg dest i).length + 3 * i.body.length + 14) s =
      exec i (loaded dest (i.code s.cfg) i.body rest s)

/-- Every step keeps the invariant: bytes are pushed only while `DIR = TX`, and `DIR = RX` whenever no reply is in
progress, the buffers canonical and every write to them within their sizes, and, once the writes left to do are done,
`SUM` the sum of the frame's decoded bytes so far, the destination routed, `COUNT` within capacity and `PTR` within the
body. -/
def Obligations.StepKeepsInv : Prop := ∀ s t : State, Inv s → step s = .next t → Inv t

/-- No step from a state of the invariant ends in a fault (R51, R269). -/
def Obligations.NoStepFaults : Prop := ∀ (s : State) (r : Fault), Inv s → step s ≠ .fault r

/-- Under an admitted configuration a step is refused only for an instrument's answer whose body does not fit
(R53, R188, R269): no reply of the node's own ever overflows. That a body of more than 253 bytes does not fit, whatever
`TX_BUF_CAP`, is the model's reading of R188 with R221 and D31 (log 17). -/
def Obligations.OnlyUnfitAnswersAreRefused : Prop :=
  ∀ (s : State) (r : Refusal), admitted s.cfg = true → step s = .refused r →
    r = .instrumentAnswer ∧
    ∃ (a : Answer) (bytes : List Byte), (a ∈ s.answers ∨ a = Config.freeAnswer s.stream s.draws) ∧
      a.handled = true ∧ a.reply = some bytes ∧ min s.cfg.txBufCap 253 < bytes.length

/-- R226: what a tick adds to the ports sends no byte and leaves the direction alone, or is one whole reply frame in its
direction bracket, with nothing else on the transmit port or the direction before or after it. -/
def Obligations.TickSendsNothingOrOneReply : Prop :=
  ∀ s t : State, s.todo = [] → s.inCall = none → tick s = .next t → ∃ events, t.out = s.out ++ events ∧
    (quiet events ∨ ∃ before status body after,
      events = before ++ replyTrace status body ++ after ∧ quiet before ∧ quiet after)

/-- R5: a step pops one byte and does nothing else; or does one port action, which changes no register but `DIR` or
`SENSE_OUT` by its own write, unless it is a device reset (R292); or writes one register or one buffer byte; or is the
tick's return, or the end of `READ_BODY`, which write `RSTATE`; or it writes no register, buffer, or port at all: such a
step only lists the actions that come next, in the model's own fields, and takes an instrument's answer from its queue.
No step writes the configuration, the sense input or the instrument's readiness (R35, R191). That a byte's actions are
listed in a step of their own is the model's choice (log 9). -/
def Obligations.StepIsOneTransaction : Prop :=
  ∀ s t : State, step s = .next t →
    ((∃ b rest, s.rx = b :: rest ∧ t = justPopped b rest s) ∨
      (∃ e rest, s.todo = .port e :: rest ∧ t.out = s.out ++ [e] ∧ t.rx = s.rx ∧
        (e ≠ .devReset →
          t = { s with todo := rest, out := t.out, dir := t.dir, senseOut := t.senseOut, inCall := t.inCall } ∧
          (t.dir = s.dir ∨ e = .dir t.dir) ∧ (t.senseOut = s.senseOut ∨ e = .senseOut t.senseOut) ∧
          (t.inCall = s.inCall ∨ ∃ c, e = .call c ∧ t.inCall = some c)) ∧
        (e = .devReset → Config.freeResetEffect s.stream s.draws = .engineKept →
          t = { s with todo := rest, out := t.out, draws := s.draws + 1 })) ∨
      (∃ w rest, s.todo = .write w :: rest ∧ t = applyWrite w { s with todo := rest }) ∨
      (∃ rest, s.todo = .ret :: rest ∧ t = { s with todo := rest, rstate := .waiting }) ∨
      (s.rstate = .readBody ∧ t = { s with rstate := .verifySum }) ∨
      t = { s with
        todo := t.todo, popped := t.popped, escape := t.escape, inCall := t.inCall, draws := t.draws,
        answers := t.answers }) ∧
    t.cfg = s.cfg ∧ t.senseIn = s.senseIn ∧ t.instrReady = s.instrReady

/-- R130, R140, R141: a tick that comes to a next state has returned, with `RSTATE = WAITING`, `DIR = RX`, nothing
left to do and no byte popped that is still to be acted on, or it holds for a byte or for the instrument. -/
def Obligations.TickEndsWaitingOrBlocked : Prop :=
  ∀ s t : State, Inv s → tick s = .next t →
    (t.rstate = .waiting ∧ t.dir = .rx ∧ t.todo = [] ∧ t.inCall = none ∧ t.popped = none) ∨ blocked t = true

/-! ## The receiver -/

/-- R131: in `WAITING` an empty port is an idle return, one byte that is not `SYNC` is discarded, `MARK` like any
other, and `SYNC` starts a frame: `state <- GOT_SYNC`, `SUM <- 0`. The byte's pop, the listing, and each write are
steps: the model's form of R5 (log 9). -/
def Obligations.WaitingTakesOneByte : Prop :=
  ∀ s : State, At .waiting s →
    (s.rx = [] → step s = .next s) ∧
    (∀ b rest, s.rx = b :: rest → b ≠ syncByte →
      steps 2 s = .next { s with rx := rest } ∧ takeByte s = .next { s with rx := rest }) ∧
    RestartsOnSync s

/-- R139: in every state that decodes, a raw `SYNC` restarts the engine at `GOT_SYNC`, after a `MARK` too; nothing is
sent and nothing else changes. `OVERFLOW` decodes nothing: whatever is on its port stays there until its tick has
ended, nine steps on, and it does not restart. The byte's pop, the listing, and each write are steps: the model's form
of R5 (log 9). -/
def Obligations.SyncRestartsEveryDecode : Prop :=
  (∀ s : State, Ready s → Decoding s → RestartsOnSync s) ∧
  ∀ s : State, At .overflow s → ∀ n ≤ 9, ∃ t, steps n s = .next t ∧ t.rx = s.rx ∧
    t.rstate = if n < 9 then .overflow else .waiting

/-- R140: inside a frame an empty port holds the engine, with or without a `MARK` popped: however many steps are tried,
the state stays as it is. -/
def Obligations.EmptyPortHolds : Prop :=
  ∀ (n : Nat) (s : State), Ready s → Decoding s → s.rx = [] → steps n s = .next s

/-- R133, R264: `GOT_SYNC` drops a frame to the master, then sets `BCAST`, then drops a frame that is neither
broadcast nor for this node, and goes on to `READ_COUNT` otherwise; a raw `SYNC` restarts. That a frame to the master
leaves `BCAST` as it was is the model's reading of R133 against R264's list (log 22). The byte's pop, the listing, and
each write are steps: the model's form of R5 (log 9). -/
def Obligations.GotSyncRoutes : Prop :=
  (∀ s : State, At .gotSync s → RestartsOnSync s) ∧
  ∀ (s : State) (v : Byte) (rest : List Byte), At .gotSync s → PayloadAt s v rest →
    (v = 0x00 →
      TakesByte [.write (.sum (s.sum + v)), .write (.dest v), .ret] rest s
        { decoded v rest s with dest := v, rstate := .waiting }) ∧
    (v ≠ 0x00 → v ≠ 0xFF → v ≠ s.id →
      TakesByte [.write (.sum (s.sum + v)), .write (.dest v), .write (.bcast false), .ret] rest s
        { decoded v rest s with dest := v, bcast := false, rstate := .waiting }) ∧
    (v ≠ 0x00 → v ≠ 0xFF → v = s.id →
      TakesByte [.write (.sum (s.sum + v)), .write (.dest v), .write (.bcast false), .write (.rstate .readCount)] rest s
        { decoded v rest s with dest := v, bcast := false, rstate := .readCount }) ∧
    (v = 0xFF →
      TakesByte [.write (.sum (s.sum + v)), .write (.dest v), .write (.bcast true), .write (.rstate .readCount)] rest s
        { decoded v rest s with dest := v, bcast := true, rstate := .readCount })

/-- R134: `READ_COUNT` accepts `COUNT <= RX_BUF_CAP`; above it a broadcast is dropped and a directed frame overflows;
a raw `SYNC` restarts. The byte's pop, the listing, and each write are steps: the model's form of R5 (log 9). -/
def Obligations.ReadCountTestsCapacity : Prop :=
  (∀ s : State, At .readCount s → RestartsOnSync s) ∧
  ∀ (s : State) (v : Byte) (rest : List Byte), At .readCount s → PayloadAt s v rest →
    (v.toNat ≤ s.cfg.rxBufCap →
      TakesByte [.write (.sum (s.sum + v)), .write (.count v), .write (.rstate .readCommand)] rest s
        { decoded v rest s with count := v, rstate := .readCommand }) ∧
    (s.cfg.rxBufCap < v.toNat → s.bcast = true →
      TakesByte [.write (.sum (s.sum + v)), .write (.count v), .ret] rest s
        { decoded v rest s with count := v, rstate := .waiting }) ∧
    (s.cfg.rxBufCap < v.toNat → s.bcast = false →
      TakesByte [.write (.sum (s.sum + v)), .write (.count v), .write (.rstate .overflow)] rest s
        { decoded v rest s with count := v, rstate := .overflow })

/-- R135: `READ_COMMAND` takes the command byte unchecked and resets the body pointer; a raw `SYNC` restarts. The
byte's pop, the listing, and each write are steps: the model's form of R5 (log 9). -/
def Obligations.ReadCommandTakesAnyCode : Prop :=
  (∀ s : State, At .readCommand s → RestartsOnSync s) ∧
  ∀ (s : State) (v : Byte) (rest : List Byte), At .readCommand s → PayloadAt s v rest →
    TakesByte [.write (.sum (s.sum + v)), .write (.cmd v), .write (.ptr 0), .write (.rstate .readBody)] rest s
      { decoded v rest s with cmd := v, ptr := 0, rstate := .readBody }

/-- R51, R136: `READ_BODY` stores a payload byte at `RxBuf[PTR]`, leaves every other byte of `RxBuf`, and increments
`PTR`, until the body is complete; then it goes to `VERIFY_SUM`. Before that a raw `SYNC` restarts. The byte's pop,
the listing, and each write are steps: the model's form of R5 (log 9). -/
def Obligations.ReadBodyStoresUntilComplete : Prop :=
  (∀ s : State, At .readBody s → s.ptr.toNat < bodyLen s.count → RestartsOnSync s) ∧
  (∀ (s : State) (v : Byte) (rest : List Byte), At .readBody s → s.ptr.toNat < bodyLen s.count →
    s.ptr.toNat < s.cfg.rxBufCap → PayloadAt s v rest →
    ∃ m, TakesByte [.write (.sum (s.sum + v)), .write (.rxBuf s.ptr.toNat v), .write (.ptr (s.ptr + 1))] rest s
        { decoded v rest s with rxBuf := m, ptr := s.ptr + 1 } ∧
      m.read s.ptr.toNat = v ∧ ∀ a, a ≠ s.ptr.toNat → m.read a = s.rxBuf.read a) ∧
  ∀ s : State, At .readBody s → bodyLen s.count ≤ s.ptr.toNat → step s = .next { s with rstate := .verifySum }

/-- R137: `OVERFLOW` pops nothing, sends the fixed overflow frame in its direction bracket, and ends the tick: one step
to list the frame's actions, one for each of the seven, and one for the tick's return (log 9). -/
def Obligations.OverflowReportsAndReturns : Prop :=
  ∀ s : State, At .overflow s →
    steps 9 s = .next { s with
      dir := .rx
      rstate := .waiting
      out := s.out ++ [.dir .tx, .tx 0xE0, .tx 0x00, .tx 0x02, .tx s.cfg.statusOverflow,
        .tx (s.cfg.statusOverflow + 2), .dir .rx] }

/-- R138: a checksum byte that is `SUM` as it was before it runs the command of the frame; any other gets the fixed
checksum-error frame, broadcast or not, and the tick ends without any effect of the command, eleven steps on: the pop,
the listing, the addition to `SUM` (R113), the frame's seven actions, and the tick's return (log 9); a raw `SYNC`
restarts. -/
def Obligations.ChecksumDecidesTheFrame : Prop :=
  (∀ s : State, At .verifySum s → RestartsOnSync s) ∧
  ∀ (s : State) (v : Byte) (rest : List Byte), At .verifySum s → PayloadAt s v rest →
    (v = s.sum → steps 2 s = exec (decodeCommand s.cfg s.cmd (frameBody s))
      { s with rx := rest, escape := false, todo := [.write (.sum (s.sum + v))] }) ∧
    (v ≠ s.sum → steps 11 s = .next { decoded v rest s with
      dir := .rx
      rstate := .waiting
      out := s.out ++ [.dir .tx, .tx 0xE0, .tx 0x00, .tx 0x02, .tx s.cfg.statusSumErr,
        .tx (s.cfg.statusSumErr + 2), .dir .rx] })

/-- R143, R300: in `WAITING` bytes that hold no `SYNC` are drained one after another, and nothing but the port
changes. A byte takes two steps, its pop and the listing, which lists nothing: the model's form of R5 (log 9). -/
def Obligations.LeftoverBytesAreDrained : Prop :=
  ∀ (bytes rest : List Byte) (s : State), At .waiting s → syncByte ∉ bytes → s.rx = bytes ++ rest →
    steps (2 * bytes.length) s = .next { s with rx := rest }

/-- R64, R133, R143: a node between ticks that sees another node's reply drops it: nothing is sent, and only the port
and the frame's dead registers `SUM` and `DEST` change (`BCAST` stays, log 22; the model's `escape` is cleared, log
11). A byte takes two steps, its pop and the listing, and `SYNC` and the destination `0x00` write two and three
registers in steps of their own: the model's form of R5 (log 9). -/
def Obligations.OtherRepliesAreDropped : Prop :=
  ∀ (status : Byte) (body rest : List Byte) (s : State), At .waiting s → s.rx = encodeReply status body ++ rest →
    steps (2 * (encodeReply status body).length + 5) s =
      .next { s with rx := rest, sum := 0, dest := 0x00, escape := false }

/-- SYNC completes in every state: it starts a frame at `GOT_SYNC` with `SUM` cleared (R131, R132, R139). In
`OVERFLOW`, where no step runs it because nothing is popped there, it leaves the state as it is: the model's choice
(log 16). The actions are listed first and done one a step: the model's form of R5 (log 9). -/
def Obligations.SyncCompletes : Prop :=
  ∀ s : State,
    (s.rstate ≠ .overflow →
      let t := enqueue [.write (.rstate .gotSync), .write (.sum 0)] { s with escape := false }
      exec .sync s = .next t ∧
      (Idle s → finishActions t = .next { s with rstate := .gotSync, sum := 0, escape := false })) ∧
    (s.rstate = .overflow → exec .sync s = .next s)

/-- MARK completes in every state: inside a frame the next wire byte is escaped (R112), and `WAITING` discards it
(R131). In `OVERFLOW`, where no step runs it because nothing is popped there, it leaves the state as it is: the model's
choice (log 16). -/
def Obligations.MarkCompletes : Prop :=
  ∀ s : State,
    (s.rstate ≠ .overflow → s.rstate ≠ .waiting → exec .mark s = .next { s with escape := true }) ∧
    (s.rstate = .waiting → exec .mark s = .next s) ∧
    (s.rstate = .overflow → exec .mark s = .next s)

/-! ## The transmitter -/

/-- R110, R220, R222: `Encode(v)` adds `v` to `TSUM` and then pushes the stuffed `v`; a reply is `SYNC` and `MASTER`
raw, then the stuffed length, status, body and checksum, inside the direction bracket. After any number of its
actions, `TSUM` is the sum of what has been encoded so far, from `MASTER` on, and the ports hold what has been pushed
so far; after the last one `DIR` is `RX`, `TSUM` is the checksum sent, and the tick returns. The body sent is `TxBuf[0
.. TLEN-1]`, as the appends before it have left it (R53). The actions are listed first and done one a step: the
model's form of R5 (log 9). -/
def Obligations.SendReplyIsAReplyFrame : Prop :=
  (∀ (v : Byte) (s : State), Idle s →
    step (enqueue (encodeByte v) s) = .next { s with tsum := s.tsum + v, todo := pushes (stuffByte v) } ∧
    finishActions (enqueue (encodeByte v) s) =
      .next { s with tsum := s.tsum + v, out := s.out ++ (stuffByte v).map .tx }) ∧
  (∀ (body : List Byte) (s : State), Idle s → body.length ≤ 255 →
    ∃ t, finishActions (enqueue (freshReply :: txAppendAll 0 body) s) = .next t ∧ replyBody t = body) ∧
  ∀ (status : Byte) (body : List Byte) (s : State),
    let sum := masterAddr + BitVec.ofNat 8 (body.length + 2) + status + byteSum body
    let frame := .dir .tx :: ((encodeReply status body).map .tx ++ [.dir .rx])
    let actions := sendReply status body
    portEvents actions = frame ∧
    (Idle s →
      (∀ k, ∃ t, steps (min k actions.length) (enqueue actions s) = .next t ∧
        t.tsum = sumAfter s.tsum (actions.take k) ∧ t.out = s.out ++ portEvents (actions.take k)) ∧
      finishActions (enqueue (actions ++ [.ret]) s) =
        .next { s with tsum := sum, dir := .rx, rstate := .waiting, out := s.out ++ frame })

/-- R224: under an admitted configuration the fixed status frames are five bytes on the wire inside the direction
bracket, and the bytes `SendReply` sends for that status and an empty body; `TSUM` is not written. The actions are
listed first and done one a step: the model's form of R5 (log 9). -/
def Obligations.StatusFramesAreFiveBytes : Prop :=
  ∀ (s : State) (status : Byte), Idle s →
    status = s.cfg.statusOverflow ∨ status = s.cfg.statusSumErr →
    let frame := [.dir .tx, .tx syncByte, .tx masterAddr, .tx 0x02, .tx status, .tx (masterAddr + 0x02 + status),
      .dir .rx]
    sendStatusFrame status = frame.map .port ∧
      statusFrame status s = .next (enqueue (frame.map .port ++ [.ret]) s) ∧
      finishActions (enqueue (frame.map .port ++ [.ret]) s) =
        .next { s with dir := .rx, rstate := .waiting, out := s.out ++ frame } ∧
      encodeReply status [] = [syncByte, masterAddr, 0x02, status, masterAddr + 0x02 + status]

/-- R80, R84: a descriptor is four bytes; an offset is its code, its high byte, its low byte and a pad. -/
def Obligations.FeatureDescriptorsAreFourBytes : Prop :=
  ∀ (c : Config) (ch min max : Byte) (v : BitVec 16),
    encFeature c (.note ch min max) = [c.featNote, ch, min, max] ∧
    encFeature c (.light ch min max) = [c.featLight, ch, min, max] ∧
    encFeature c (.control ch min max) = [c.featControl, ch, min, max] ∧
    ∃ hi lo : Byte, encFeature c (.offset v) = [c.featOffset, hi, lo, 0x00] ∧ v.toNat = hi.toNat * 256 + lo.toNat

/-! ## The commands

`exec` answers the state in which the dispatch has listed its actions, each register write among them; `finishActions`
does these, one a step (R5, log 9). A dispatch starts with nothing left to do but register writes (`Dispatching`), which
are done before its own: `settled` is the state they leave. -/

/-- R174, R291: RESET with another check byte changes no identity and sends nothing; with `RESET_CHECK` it unsets the
identity, drives the sense output high and requests the device reset; extra body bytes are ignored, and an empty body
compares a draw. What the device reset then does is drawn from the node's own stream: the model's form of R292's two
outcomes (log 4, log 26). The actions are listed first and done one a step: the model's form of R5 (log 9). -/
def Obligations.ResetTestsItsCheckByte : Prop :=
  (∀ (b : Byte) (more : List Byte) (s : State), b ≠ s.cfg.resetCheck →
    exec (.reset (b :: more)) s = .next (ending s) ∧
    (Dispatching s → finishActions (ending s) = .next (ended (settled s)))) ∧
  (∀ (more : List Byte) (s : State),
    let t := enqueue [freshReply, .write (.id 0xFF), .port (.senseOut .high), .port .devReset, .ret] s
    exec (.reset (s.cfg.resetCheck :: more)) s = .next t ∧
    (Dispatching s → finishActions t = .next
      (afterReset (Config.freeResetEffect s.stream s.draws)
        { settled s with
          id := 0xFF
          senseOut := .high
          rstate := .waiting
          tlen := 0
          draws := s.draws + 1
          out := s.out ++ [.senseOut .high, .devReset] }))) ∧
  ∀ s : State,
    exec (.reset []) s = exec (.reset [Config.freeByte s.stream s.draws]) { s with draws := s.draws + 1 }

/-- R292: whichever effect a device reset has after RESET's writes, the tick comes to its end with `ID = UNSET`,
`SENSE_OUT = HIGH`, `DIR = RX` and `RSTATE = WAITING`, and nothing more goes out; `ENGINE_KEPT` changes nothing, and
the tick's return is left to do; `POWER_ON` clears the counter (R290), and the rest of the tick does not run. That the
return is an action of its own is the model's form of R5 (log 9). That the ports' inputs stay as they are is the
model's reading of R36 for the receive port and its choice for the others (log 14), that the configuration does, of
R293 (log 4). -/
def Obligations.DeviceResetOutcomes : Prop :=
  ∀ (e : ResetEffect) (s : State), admitted s.cfg = true → s.inCall = none → s.todo = [.ret] → s.id = unsetId →
    s.senseOut = .high → s.dir = .rx →
    ∃ t, finishActions (afterReset e s) = .next t ∧
      t.id = 0xFF ∧ t.senseOut = .high ∧ t.dir = .rx ∧ t.rstate = .waiting ∧ t.todo = [] ∧ t.out = s.out ∧
      t.rx = s.rx ∧ t.senseIn = s.senseIn ∧ t.answers = s.answers ∧ t.instrReady = s.instrReady ∧ t.cfg = s.cfg ∧
      (e = .engineKept → afterReset e s = s ∧ t = { s with rstate := .waiting, todo := [] }) ∧
      (e = .powerOn → t = afterReset e s ∧ t.cntr = 0x00 ∧ t.escape = false ∧ t.popped = none ∧ t.inCall = none)

/-- R175: an eligible node takes the first body byte, replies, and only then drives its sense output low; any other
node does nothing and sends nothing. With an empty body the address is a draw (R173), of the node's own stream: the
model's form of that free byte (log 3, log 26). The actions are listed first and done one a step: the model's form of
R5 (log 9). -/
def Obligations.AssignAddrNeedsEligibility : Prop :=
  (∀ (a : Byte) (more : List Byte) (s : State), Dispatching s → s.senseIn = .high → s.id = 0xFF →
    let body := [s.cfg.reportOk]
    let t := enqueue ([freshReply, .write (.id a)] ++ txAppendAll 0 body ++ sendReply s.cfg.statusOk body ++
      [.port (.senseOut .low), .ret]) s
    exec (.assignAddr (a :: more)) s = .next t ∧
    finishActions t = .next
      { replied s.cfg.statusOk body (settled s) with
        id := a
        senseOut := .low
        out := s.out ++ (replyTrace s.cfg.statusOk body ++ [.senseOut .low]) }) ∧
  (∀ s : State, s.senseIn = .high → s.id = 0xFF →
    exec (.assignAddr []) s = exec (.assignAddr [Config.freeByte s.stream s.draws]) { s with draws := s.draws + 1 }) ∧
  ∀ (body : List Byte) (s : State), ¬(s.senseIn = .high ∧ s.id = 0xFF) →
    exec (.assignAddr body) s = .next (ending s) ∧
    (Dispatching s → finishActions (ending s) = .next (ended (settled s)))

/-- R176, R223: READ_ID replies with `REPORT_OK` and the identification string, and `TxBuf` is not used. The actions
are listed first and done one a step: the model's form of R5 (log 9). -/
def Obligations.ReadIdRepliesWithIdString : Prop :=
  ∀ (body : List Byte) (s : State), Dispatching s →
    let reply := s.cfg.reportOk :: s.cfg.idString
    exec (.readId body) s = .next (replyingDirect s.cfg.statusOk reply s) ∧
    finishActions (replyingDirect s.cfg.statusOk reply s) = .next (repliedDirect s.cfg.statusOk reply (settled s))

/-- R177, R178, R179: each version query replies with `REPORT_OK` and its version byte. The actions are listed first
and done one a step: the model's form of R5 (log 9). -/
def Obligations.VersionQueriesReply : Prop :=
  ∀ (body : List Byte) (s : State), Dispatching s →
    exec (.getCmdVersion body) s = .next (replying s.cfg.statusOk [s.cfg.reportOk, s.cfg.verCmd] s) ∧
    exec (.getJvsVersion body) s = .next (replying s.cfg.statusOk [s.cfg.reportOk, s.cfg.verJvs] s) ∧
    exec (.getCommVersion body) s = .next (replying s.cfg.statusOk [s.cfg.reportOk, s.cfg.verComm] s) ∧
    ∀ version : Byte, finishActions (replying s.cfg.statusOk [s.cfg.reportOk, version] s) =
      .next (replied s.cfg.statusOk [s.cfg.reportOk, version] (settled s))

/-- R180: GET_FEATURES replies with `REPORT_OK`, every descriptor in registration order, and the terminator. The
actions are listed first and done one a step: the model's form of R5 (log 9). -/
def Obligations.GetFeaturesReplies : Prop :=
  ∀ (body : List Byte) (s : State), Dispatching s →
    let reply := [s.cfg.reportOk] ++ s.cfg.features.flatMap (encFeature s.cfg) ++ [0x00]
    exec (.getFeatures body) s = .next (replying s.cfg.statusOk reply s) ∧
    finishActions (replying s.cfg.statusOk reply s) = .next (replied s.cfg.statusOk reply (settled s))

/-- R182: PING replies with `REPORT_OK`. The actions are listed first and done one a step: the model's form of R5 (log
9). -/
def Obligations.PingReplies : Prop :=
  ∀ (body : List Byte) (s : State), Dispatching s →
    let reply := [s.cfg.reportOk]
    exec (.ping body) s = .next (replying s.cfg.statusOk reply s) ∧
    finishActions (replying s.cfg.statusOk reply s) = .next (replied s.cfg.statusOk reply (settled s))

/-- R183: GET_SENSE replies with `REPORT_OK` and 1 when the sense input is high, else 0. The actions are listed first
and done one a step: the model's form of R5 (log 9). -/
def Obligations.GetSenseRepliesInputLevel : Prop :=
  ∀ (body : List Byte) (s : State), Dispatching s →
    let reply := [s.cfg.reportOk, if s.senseIn = .high then 0x01 else 0x00]
    exec (.getSense body) s = .next (replying s.cfg.statusOk reply s) ∧
    finishActions (replying s.cfg.statusOk reply s) = .next (replied s.cfg.statusOk reply (settled s))

/-- R184: INCR adds 1 to the counter modulo 256 and sends nothing; its tick is over. The actions are listed first and
done one a step: the model's form of R5 (log 9). -/
def Obligations.IncrAddsOne : Prop :=
  ∀ (body : List Byte) (s : State),
    let next := BitVec.ofNat 8 ((s.cntr.toNat + 1) % 256)
    let t := enqueue [freshReply, .write (.cntr next), .ret] s
    exec (.incr body) s = .next t ∧
    (Dispatching s → finishActions t = .next { settled s with cntr := next, tlen := 0, rstate := .waiting })

/-- R185: CNTR replies with the counter as it was, and clears it before the reply is sent. The actions are listed
first and done one a step: the model's form of R5 (log 9). -/
def Obligations.CntrReportsAndClears : Prop :=
  ∀ (body : List Byte) (s : State), Dispatching s →
    let reply := [s.cfg.reportOk, s.cntr]
    let t := enqueue (freshReply ::
      (txAppendAll 0 reply ++ [.write (.cntr 0x00)] ++ sendReply s.cfg.statusOk reply ++ [.ret])) s
    exec (.cntr body) s = .next t ∧
    finishActions t = .next { replied s.cfg.statusOk reply (settled s) with cntr := 0x00 }

/-- R181, R190: an unknown command, and REQ_RETRANSMIT like one, is reported with an empty body when the frame is
directed and dropped when it is broadcast. The actions are listed first and done one a step: the model's form of R5
(log 9). -/
def Obligations.UnknownCommandsReported : Prop :=
  ∀ (code : Byte) (body : List Byte) (s : State) (i : Instr), Dispatching s →
    i = .unknown code body ∨ i = .reqRetransmit body →
    (s.bcast = false →
      exec i s = .next (replyingDirect s.cfg.statusUnknownCmd [] s) ∧
      finishActions (replyingDirect s.cfg.statusUnknownCmd [] s) =
        .next (repliedDirect s.cfg.statusUnknownCmd [] (settled s))) ∧
    (s.bcast = true → exec i s = .next (ending s) ∧ finishActions (ending s) = .next (ended (settled s)))

/-- R186 to R189: a NOTE_DOWN, NOTE_UP, LIGHT or CONTROL calls the instrument with its operands, each a body byte or,
beyond the body, a draw (R173), of the node's own stream: the model's form of that free byte (log 3, log 26). When the
instrument returns from a note the tick is over, and nothing is sent. The actions are listed first and done one a
step: the model's form of R5 (log 9). -/
def Obligations.EventsReachTheInstrument : Prop :=
  ∀ (body : List Byte) (s : State), Dispatching s →
    (∀ (mk : Nat → Byte → Byte → Byte → Call) (i : Instr),
      (mk = .noteDown ∧ i = .noteDown body) ∨ (mk = .noteUp ∧ i = .noteUp body) ∨
      (mk = .light ∧ i = .light body) ∨ (mk = .control ∧ i = .control body) →
      exec i s = .next (calling mk body s) ∧ finishActions (calling mk body s) = .next (called mk body (settled s))) ∧
    ∀ mk : Nat → Byte → Byte → Byte → Call, mk = .noteDown ∨ mk = .noteUp → s.instrReady = true →
      let t := enqueue [.ret] { called mk body (settled s) with inCall := none }
      step (called mk body (settled s)) = .next t ∧
      finishActions t = .next { called mk body (settled s) with inCall := none, rstate := .waiting }

/-- R188, R189, R193: when the instrument returns from a LIGHT or CONTROL, at once or after any wait, the answer decides
the reply: unknown command when not handled (silent on a broadcast), none, or an OK reply with the answer's body, built
from the `TLEN = 0` of the dispatch's start (R170; the invariant has it); a body that does not fit is refused. That a
body of more than 253 bytes does not fit, whatever `TX_BUF_CAP`, is the model's reading of R188 with R221 and D31 (log
17). The actions are listed first and done one a step: the model's form of R5 (log 9). -/
def Obligations.LightAndControlFollowTheAnswer : Prop :=
  ∀ (s : State) (c : Call) (a : Answer) (more : List Answer), InCall c s →
    (∃ time channel index value, c = .light time channel index value ∨ c = .control time channel index value) →
    s.instrReady = true → s.answers = a :: more →
    let t := { s with inCall := none, answers := more }
    let silent :=
      step s = .next (enqueue [.ret] t) ∧ finishActions (enqueue [.ret] t) = .next { t with rstate := .waiting }
    let unknown := enqueue (sendReply s.cfg.statusUnknownCmd [] ++ [.ret]) t
    (a.handled = false → s.bcast = true → silent) ∧
    (a.handled = false → s.bcast = false →
      step s = .next unknown ∧
      finishActions unknown = .next { t with
        tsum := replySum s.cfg.statusUnknownCmd []
        dir := .rx
        rstate := .waiting
        out := s.out ++ replyTrace s.cfg.statusUnknownCmd [] }) ∧
    (a.handled = true → a.reply = none → silent) ∧
    (∀ bytes, a.handled = true → a.reply = some bytes → bytes.length ≤ min s.cfg.txBufCap 253 →
      let ok := enqueue (txAppendAll 0 bytes ++ sendReply s.cfg.statusOk bytes ++ [.ret]) t
      step s = .next ok ∧ (s.tlen = 0 → finishActions ok = .next (replied s.cfg.statusOk bytes t))) ∧
    ∀ bytes, a.handled = true → a.reply = some bytes → min s.cfg.txBufCap 253 < bytes.length →
      step s = .refused .instrumentAnswer

/-- R193: with no answer queued the instrument's answer is a draw of the node's own stream (log 5, log 26): the return
from a LIGHT or CONTROL does what it does with that draw queued as the answer, and one more draw is used up. -/
def Obligations.UnqueuedAnswersAreDraws : Prop :=
  ∀ (s : State) (c : Call), InCall c s →
    (∃ time channel index value, c = .light time channel index value ∨ c = .control time channel index value) →
    s.instrReady = true → s.answers = [] →
    step s =
      andThen (step { s with answers := [Config.freeAnswer s.stream s.draws] })
        fun t => .next { t with draws := t.draws + 1 }

/-- R193: while the instrument has not returned, the tick is blocked in the call, however many steps are tried, and the
state stays as it is. When it returns from a note, early or late, the tick is over. (From a LIGHT or CONTROL:
`LightAndControlFollowTheAnswer`, early or late.) That the readiness is an input of the step is the model's choice
(log 6). The actions are listed first and done one a step: the model's form of R5 (log 9). -/
def Obligations.InstrumentCallBlocksTheTick : Prop :=
  (∀ (n : Nat) (s : State), admitted s.cfg = true → s.inCall ≠ none → s.instrReady = false →
    steps n s = .next s ∧ tick s = .next s) ∧
  ∀ (s : State) (time : Nat) (channel note velocity : Byte), s.instrReady = true →
    InCall (.noteDown time channel note velocity) s ∨ InCall (.noteUp time channel note velocity) s →
    let t := { s with inCall := none, todo := [.ret] }
    step s = .next t ∧ finishActions t = .next { s with inCall := none, rstate := .waiting }

/-! ## Rules over all instructions -/

/-- R22, R23, R191: no instruction but RESET and ASSIGN_ADDR lists a write of `ID` or of `SENSE_OUT`; a step writes
`ID` or `SENSE_OUT` only if it does a listed action that is that write, or a device reset that restarts the node
(which sets `ID` to `UNSET` and `SENSE_OUT` to `HIGH`); and a step lists such a write only where it runs a RESET or an
ASSIGN_ADDR. That no instruction writes them itself, RESET and ASSIGN_ADDR included, is the model's choice (log 9):
R22, R23, R174 and R175 say that these two write them, and in the model they list the write, which a later step of the
same tick does. -/
def Obligations.OnlyResetAndAssignWriteIdentity : Prop :=
  (∀ (i : Instr) (s t : State), exec i s = .next t → t.id = s.id ∧ t.senseOut = s.senseOut ∧
    ((∀ body, i ≠ .reset body) → (∀ body, i ≠ .assignAddr body) →
      (∀ v, .write (.id v) ∈ t.todo → .write (.id v) ∈ s.todo) ∧
      ∀ l, .port (.senseOut l) ∈ t.todo → .port (.senseOut l) ∈ s.todo)) ∧
  ∀ s t : State, step s = .next t →
    ((t.id = s.id ∧ t.senseOut = s.senseOut) ∨
      (s.todo.head? = some (.write (.id t.id)) ∧ t.senseOut = s.senseOut) ∨
      (s.todo.head? = some (.port (.senseOut t.senseOut)) ∧ t.id = s.id) ∨
      (s.todo.head? = some (.port .devReset) ∧ Config.freeResetEffect s.stream s.draws = .powerOn ∧
        t.id = 0xFF ∧ t.senseOut = .high)) ∧
    ∀ a, (∃ v, a = .write (.id v)) ∨ (∃ l, a = .port (.senseOut l)) → a ∈ t.todo → a ∉ s.todo →
      s.rstate = .verifySum ∧ Idle s ∧ s.popped ≠ none ∧ (s.cmd = s.cfg.cmdReset ∨ s.cmd = cmdAssignAddr)

/-- R24, R191: no instruction but INCR and CNTR lists a write of `CNTR`, and only a RESET with the right check byte, in
the body or drawn, lists a device reset; a step changes `CNTR` only if it does a listed write of it, or the device reset
of a RESET and restarts the node, which clears it (R292); and a step lists such a write only where it runs an INCR or a
CNTR. That no instruction writes `CNTR` itself, but lists the write, and a RESET its device reset, which later steps of
the same tick do, is the model's choice (log 9). -/
def Obligations.OnlyIncrAndCntrWriteTheCounter : Prop :=
  (∀ (i : Instr) (s t : State), exec i s = .next t → t.cntr = s.cntr ∧
    ((∀ body, i ≠ .incr body) → (∀ body, i ≠ .cntr body) →
      ∀ v, .write (.cntr v) ∈ t.todo → .write (.cntr v) ∈ s.todo)) ∧
  (∀ (i : Instr) (s t : State), exec i s = .next t → .port .devReset ∈ t.todo →
    .port .devReset ∉ s.todo →
    ∃ body, i = .reset body ∧ operandAt s.stream body s.draws 0 = s.cfg.resetCheck) ∧
  ∀ s t : State, step s = .next t →
    (t.cntr = s.cntr ∨ s.todo.head? = some (.write (.cntr t.cntr)) ∨
      (s.todo.head? = some (.port .devReset) ∧ Config.freeResetEffect s.stream s.draws = .powerOn ∧ t.cntr = 0x00)) ∧
    ∀ v, .write (.cntr v) ∈ t.todo → .write (.cntr v) ∉ s.todo →
      s.rstate = .verifySum ∧ Idle s ∧ s.popped ≠ none ∧ (s.cmd = s.cfg.cmdIncr ∨ s.cmd = s.cfg.cmdCntr)

/-- R51, R53, R191: no instruction writes `RxBuf`, and of `TxBuf` only the reply body `TxBuf[0 .. TLEN-1]` is written,
once an instruction's actions are done, or those of its instrument call's return, unless a RESET's device reset with
the effect `POWER_ON` is among them (R292). A step writes a buffer or `TLEN` only if it does a listed write of it, or
that device reset. That an instruction lists its writes, which later steps do, and that the device reset is such an
action and no part of the instruction RESET, is the model's choice (log 9). -/
def Obligations.InstructionsLeaveTheBuffers : Prop :=
  (∀ (i : Instr) (s t : State), exec i s = .next t → t.rxBuf = s.rxBuf ∧ t.txBuf = s.txBuf ∧ t.tlen = s.tlen ∧
    ∀ a v, .write (.rxBuf a v) ∈ t.todo → .write (.rxBuf a v) ∈ s.todo) ∧
  (∀ (i : Instr) (s t u : State), (Idle s ∧ exec i s = .next t) ∨
      (s.todo = [] ∧ s.inCall ≠ none ∧ s.instrReady = true ∧ step s = .next t) →
    finishActions t = .next u →
    (u.rxBuf = s.rxBuf ∧ ∀ a, u.tlen.toNat ≤ a → u.txBuf.read a = s.txBuf.read a) ∨
    (.port .devReset ∈ t.todo ∧ Config.freeResetEffect t.stream t.draws = .powerOn)) ∧
  ∀ s t : State, step s = .next t →
    ((t.rxBuf = s.rxBuf ∨ ∃ a v, s.todo.head? = some (.write (.rxBuf a v)) ∧ t.rxBuf = s.rxBuf.write a v) ∧
      (t.txBuf = s.txBuf ∨ ∃ a v, s.todo.head? = some (.write (.txBuf a v)) ∧ t.txBuf = s.txBuf.write a v) ∧
      (t.tlen = s.tlen ∨ s.todo.head? = some (.write (.tlen t.tlen)))) ∨
    (s.todo.head? = some (.port .devReset) ∧ Config.freeResetEffect s.stream s.draws = .powerOn)

/-- R141, R192: a command that a node dispatches comes, when its actions are done, to the end of its tick in
`WAITING`, or to an instrument call under way; `DIR` is `RX` and nothing is left to do. The actions are listed first
and done one a step: the model's form of R5 (log 9). -/
def Obligations.CommandsEndTheTick : Prop :=
  ∀ (i : Instr) (s t : State), i.isWire = false → Dispatching s → s.popped = none → s.dir = .rx →
    exec i s = .next t →
    ∃ u, finishActions t = .next u ∧ u.dir = .rx ∧ u.todo = [] ∧ u.popped = none ∧
      (u.rstate = .waiting ∨ u.inCall ≠ none)

/-- R267: taking an error of any class keeps `ID`, `SENSE_OUT`, `CNTR`, both buffers, the configuration and every port
but the output, at the error's entry and when its status frame has been sent (R268; a directed capacity error's frame
is that of `OVERFLOW`, `OverflowReportsAndReturns`); register writes still left to do at the entry, such as that of
`SUM`, are done first, and are no part of it. The error classes being one operation, and that the entry itself writes no
register and no output but only lists its actions, which later steps do, are the model's choices (log 23, log 9): R262
and R263 make `SendStatusFrame` part of the entry. -/
def Obligations.ErrorsKeepTheNode : Prop :=
  ∀ (e : ErrorClass) (s t : State), Dispatching s → takeError e s = .next t →
    t = { s with todo := t.todo, escape := t.escape } ∧
    ∃ u, finishActions t = .next u ∧
      u.id = (settled s).id ∧ u.senseOut = (settled s).senseOut ∧ u.cntr = (settled s).cntr ∧
      u.rxBuf = (settled s).rxBuf ∧ u.txBuf = (settled s).txBuf ∧
      u.rx = s.rx ∧ u.senseIn = s.senseIn ∧ u.answers = s.answers ∧ u.instrReady = s.instrReady ∧ u.cfg = s.cfg

/-- R184, R185 together: after `n` INCRs, CNTR reports the counter advanced by `n` modulo 256, once, and clears it.
The actions are listed first and done one a step: the model's form of R5 (log 9). -/
def Obligations.CounterCountsIncrs : Prop :=
  ∀ (n : Nat) (s : State), Idle s →
    ∃ t, dispatchAll (List.replicate n (.incr []) ++ [.cntr []]) s = .next t ∧
      t.cntr = 0x00 ∧ t.rstate = .waiting ∧ t.todo = [] ∧
      t.out = s.out ++ replyTrace s.cfg.statusOk [s.cfg.reportOk, BitVec.ofNat 8 ((s.cntr.toNat + n) % 256)]

/-- R175, R246: a second ASSIGN_ADDR with no RESET between is a no-op, unless the address taken was `0xFF`. The
actions are listed first and done one a step: the model's form of R5 (log 9). -/
def Obligations.SecondAssignIsIgnored : Prop :=
  ∀ (a b : Byte) (s : State), Idle s → s.senseIn = .high → s.id = 0xFF → a ≠ 0xFF →
    ∃ t u, dispatch (.assignAddr [a]) s = .next t ∧ dispatch (.assignAddr [b]) t = .next u ∧
      u.id = a ∧ u.senseOut = .low ∧ u.out = t.out ∧ u.todo = [] ∧ u.rstate = .waiting

/-! ## The chain -/

/-- R274, R290: a chain at power-on is a list of nodes each at its own power-on, none with anything outstanding, and the
nodes share nothing but the bus and the sense lines: a step of one node leaves every other as it is. Each node draws
from a stream of its own, which no step changes: the model's form of R12's free inputs (log 26). -/
def Obligations.NodesAreIndependent : Prop :=
  (∀ (first : Level) (cfgs : List Config) (k : Nat) (n : State), (Chain.powerOn first cfgs).nodes[k]? = some n →
    ∃ c, cfgs[k]? = some c ∧ n = { State.powerOn c with stream := k }) ∧
  (∀ (first : Level) (cfgs : List Config), (Chain.powerOn first cfgs).nodes.length = cfgs.length ∧
    ((Chain.powerOn first cfgs).nodes.map State.stream).Nodup) ∧
  ∀ (c d : Chain) (k : Nat), stepNode k c = .next d →
    d.firstSense = c.firstSense ∧ d.nodes.map State.stream = c.nodes.map State.stream ∧
    ∀ j, j ≠ k → d.nodes[j]? = c.nodes[j]?

/-- R243: in a chain swept to node `j`, the node after the prefix, and no other, is eligible. -/
def Obligations.OnlyTheNextNodeIsEligible : Prop :=
  ∀ (j : Nat) (c : Chain), sweptTo j c → ∀ k, k < c.nodes.length → (nodeEligible c k = true ↔ k = j)

/-- R244: an ASSIGN_ADDR that every other node dispatches before the eligible one moves the swept prefix one node
further, gives that node the address, and changes no other node's identity. Each node does its actions before the next
one dispatches: one of the orders R245 leaves free (log 19). -/
def Obligations.SweepMovesOneNodeFurther : Prop :=
  ∀ (j : Nat) (c : Chain) (a : Byte) (others : List Nat), sweptTo j c → j < c.nodes.length →
    (∀ n ∈ c.nodes, admitted n.cfg = true) → a ≠ unsetId → j ∉ others →
    ∃ d, dispatchInOrder (.assignAddr [a]) (others ++ [j]) c = .next d ∧ sweptTo (j + 1) d ∧
      (∃ n, d.nodes[j]? = some n ∧ n.id = a) ∧
      ∀ k m n, k ≠ j → c.nodes[k]? = some m → d.nodes[k]? = some n → n.id = m.id

/-- R246: a RESET with the right check byte, dispatched by every node, re-arms a chain whose first input is high. Each
node does its actions before the next one dispatches: one of the orders R245 leaves free (log 19). -/
def Obligations.ResetRearmsTheChain : Prop :=
  ∀ (c : Chain) (check : Byte), c.firstSense = .high → (∀ n ∈ c.nodes, Idle n ∧ n.cfg.resetCheck = check) →
    ∃ d, dispatchInOrder (.reset [check]) (List.range c.nodes.length) c = .next d ∧
      d.nodes.length = c.nodes.length ∧ sweptTo 0 d

/-- R245, R298: of two unaddressed nodes, the first dispatches an ASSIGN_ADDR and has done `k` of its actions, `ID <-
a` the second and `SenseOut(LOW)` the last of them, when the second node dispatches the same frame: the second takes
the address too if the last action is done, and only the first does if it is not. The model admits every such moment.
The actions are listed first and done one a step: the model's form of R5 (log 9). -/
def Obligations.LateDispatchTakesTheSameAddress : Prop :=
  ∀ (m n : State) (a : Byte) (k : Nat), admitted m.cfg = true → admitted n.cfg = true →
    sweptTo 0 { firstSense := .high, nodes := [m, n] } → a ≠ unsetId →
    let body := [m.cfg.reportOk]
    let actions := [freshReply, .write (.id a)] ++ txAppendAll 0 body ++ sendReply m.cfg.statusOk body ++
      [.port (.senseOut .low)]
    k ≤ actions.length →
    ∃ d e f, execNode (.assignAddr [a]) 0 { firstSense := .high, nodes := [m, n] } = .next d ∧
      d.nodes.map State.todo = [actions ++ [.ret], []] ∧
      runNode 0 (steps k) d = .next e ∧ dispatchNode (.assignAddr [a]) 1 e = .next f ∧
      f.nodes.map State.id = [if 2 ≤ k then a else unsetId, if k = actions.length then a else unsetId]
end

