-- ==== Sys2Proof/Laws/Memory.lean ====
section
/-! SUPPORT. The laws of the byte stores: read after write, what a write leaves alone, and the canonical form. -/

namespace Sys2Proof.Machine

theorem Memory.read_erase_other (m : Memory) {a b : Nat} (h : a ≠ b) : (m.erase a).read b = m.read b := by
  induction m with
  | nil => rfl
  | cons c rest ih =>
    obtain ⟨x, v⟩ := c
    by_cases hx : x = a
    · subst hx; simp [Memory.erase, Memory.read, h, ih]
    · simp only [Memory.erase, hx, if_false, Memory.read, ih]

theorem Memory.read_insert_same (m : Memory) (a : Nat) (v : Byte) : (m.insert a v).read a = v := by
  induction m with
  | nil => simp [Memory.insert, Memory.read]
  | cons c rest ih =>
    obtain ⟨x, w⟩ := c
    simp only [Memory.insert]
    split
    · simp [Memory.read]
    · split
      · simp [Memory.read]
      · simp [Memory.read, *]

theorem Memory.read_insert_other (m : Memory) {a b : Nat} (h : a ≠ b) (v : Byte) :
    (m.insert a v).read b = m.read b := by
  induction m with
  | nil => simp [Memory.insert, Memory.read, h]
  | cons c rest ih =>
    obtain ⟨x, w⟩ := c
    simp only [Memory.insert]
    split
    · simp [Memory.read, h]
    · split
      · next hx => subst hx; simp [Memory.read, h]
      · simp [Memory.read, ih]

theorem Memory.read_erase_same (m : Memory) (a : Nat) : (m.erase a).read a = Memory.unlisted := by
  induction m with
  | nil => rfl
  | cons c rest ih =>
    obtain ⟨x, w⟩ := c
    by_cases hx : x = a <;> simp [Memory.erase, Memory.read, hx, ih]

/-- Reading the address just written gives the byte written. -/
theorem Memory.read_write_same (m : Memory) (a : Nat) (v : Byte) : (m.write a v).read a = v := by
  unfold Memory.write
  split
  · next h => rw [h]; exact Memory.read_erase_same m a
  · exact Memory.read_insert_same m a v

/-- Reading any other address gives what it gave before the write. -/
theorem Memory.read_write_other (m : Memory) {a b : Nat} (h : a ≠ b) (v : Byte) :
    (m.write a v).read b = m.read b := by
  unfold Memory.write
  split
  · exact Memory.read_erase_other m h
  · exact Memory.read_insert_other m h v

theorem Memory.wfFrom_mono (m : Memory) {lo lo' : Nat} (h : lo' ≤ lo) (hw : Memory.wfFrom lo m = true) :
    Memory.wfFrom lo' m = true := by
  cases m with
  | nil => rfl
  | cons c rest =>
    simp only [Memory.wfFrom, Bool.and_eq_true, decide_eq_true_eq] at hw ⊢
    exact ⟨⟨by omega, hw.1.2⟩, hw.2⟩

theorem Memory.wfFrom_erase (m : Memory) (a : Nat) {lo : Nat} (hw : Memory.wfFrom lo m = true) :
    Memory.wfFrom lo (m.erase a) = true := by
  induction m generalizing lo with
  | nil => exact hw
  | cons c rest ih =>
    obtain ⟨x, w⟩ := c
    simp only [Memory.wfFrom, Bool.and_eq_true, decide_eq_true_eq] at hw
    by_cases hx : x = a
    · simpa [Memory.erase, hx] using ih (Memory.wfFrom_mono rest (by omega : lo ≤ x + 1) hw.2)
    · simp only [Memory.erase, hx, if_false, Memory.wfFrom, Bool.and_eq_true, decide_eq_true_eq]
      exact ⟨hw.1, ih hw.2⟩

theorem Memory.wfFrom_insert (m : Memory) (a : Nat) {v : Byte} (hv : v ≠ Memory.unlisted) {lo : Nat} (hlo : lo ≤ a)
    (hw : Memory.wfFrom lo m = true) : Memory.wfFrom lo (m.insert a v) = true := by
  induction m generalizing lo with
  | nil => simp [Memory.insert, Memory.wfFrom, hlo, hv]
  | cons c rest ih =>
    obtain ⟨x, w⟩ := c
    simp only [Memory.wfFrom, Bool.and_eq_true, decide_eq_true_eq] at hw
    simp only [Memory.insert]
    split
    · simp only [Memory.wfFrom, Bool.and_eq_true, decide_eq_true_eq]
      exact ⟨⟨hlo, hv⟩, ⟨⟨by omega, hw.1.2⟩, hw.2⟩⟩
    · split
      · next hx =>
        simp only [Memory.wfFrom, Bool.and_eq_true, decide_eq_true_eq]
        exact ⟨⟨hlo, hv⟩, hx ▸ hw.2⟩
      · simp only [Memory.wfFrom, Bool.and_eq_true, decide_eq_true_eq]
        exact ⟨hw.1, ih (by omega) hw.2⟩

/-- A write keeps the canonical form. -/
theorem Memory.wf_write (m : Memory) (a : Nat) (v : Byte) (hw : m.wf = true) : (m.write a v).wf = true := by
  unfold Memory.write
  split
  · exact Memory.wfFrom_erase m a hw
  · next hv => exact Memory.wfFrom_insert m a hv (Nat.zero_le a) hw

/-- Writing a run of bytes keeps the canonical form. -/
theorem Memory.wf_writeAll (bytes : List Byte) (m : Memory) (a : Nat) (hw : m.wf = true) :
    (m.writeAll a bytes).wf = true := by
  induction bytes generalizing m a with
  | nil => exact hw
  | cons b rest ih => exact ih (m.write a b) (a + 1) (Memory.wf_write m a b hw)

theorem Memory.below_erase (m : Memory) (a cap : Nat) (h : m.below cap = true) : (m.erase a).below cap = true := by
  induction m with
  | nil => exact h
  | cons c rest ih =>
    obtain ⟨x, w⟩ := c
    simp only [Memory.below, List.all_cons, Bool.and_eq_true] at h
    by_cases hx : x = a
    · simp only [Memory.erase, hx, if_true]; exact ih h.2
    · simp only [Memory.erase, hx, if_false, Memory.below, List.all_cons, Bool.and_eq_true]
      exact ⟨h.1, ih h.2⟩

theorem Memory.below_insert (m : Memory) {a cap : Nat} (v : Byte) (ha : a < cap) (h : m.below cap = true) :
    (m.insert a v).below cap = true := by
  induction m with
  | nil => simp [Memory.insert, Memory.below, ha]
  | cons c rest ih =>
    obtain ⟨x, w⟩ := c
    simp only [Memory.below, List.all_cons, Bool.and_eq_true, decide_eq_true_eq] at h
    simp only [Memory.insert]
    split
    · simp only [Memory.below, List.all_cons, Bool.and_eq_true, decide_eq_true_eq]
      exact ⟨ha, h⟩
    · split
      · simp only [Memory.below, List.all_cons, Bool.and_eq_true, decide_eq_true_eq]
        exact ⟨ha, h.2⟩
      · simp only [Memory.below, List.all_cons, Bool.and_eq_true, decide_eq_true_eq]
        exact ⟨h.1, ih h.2⟩

/-- A write inside a buffer keeps every listed address inside it. -/
theorem Memory.below_write (m : Memory) {a cap : Nat} (v : Byte) (ha : a < cap) (h : m.below cap = true) :
    (m.write a v).below cap = true := by
  unfold Memory.write
  split
  · exact Memory.below_erase m a cap h
  · exact Memory.below_insert m v ha h

/-- Writing a run of bytes that fits keeps every listed address inside the buffer. -/
theorem Memory.below_writeAll (bytes : List Byte) (m : Memory) {a cap : Nat} (ha : a + bytes.length ≤ cap)
    (h : m.below cap = true) : (m.writeAll a bytes).below cap = true := by
  induction bytes generalizing m a with
  | nil => exact h
  | cons b rest ih =>
    simp only [List.length_cons] at ha
    exact ih (m.write a b) (by omega) (Memory.below_write m b (by omega) h)

/-- Addresses outside a written run read as before. -/
theorem Memory.read_writeAll_other (bytes : List Byte) (m : Memory) {a b : Nat}
    (h : b < a ∨ a + bytes.length ≤ b) : (m.writeAll a bytes).read b = m.read b := by
  induction bytes generalizing m a with
  | nil => rfl
  | cons v rest ih =>
    simp only [List.length_cons] at h
    rw [Memory.writeAll, ih _ (by omega), Memory.read_write_other m (by omega)]

/-- A written run reads back byte by byte. -/
theorem Memory.read_writeAll_same (bytes : List Byte) (m : Memory) (a k : Nat)
    (hk : k < bytes.length) : (m.writeAll a bytes).read (a + k) = bytes[k] := by
  induction bytes generalizing m a k with
  | nil => simp at hk
  | cons v rest ih =>
    cases k with
    | zero =>
      rw [Memory.writeAll, Memory.read_writeAll_other rest _ (by omega)]
      simpa using Memory.read_write_same m a v
    | succ k =>
      have := ih (m.write a v) (a + 1) k (by simpa using hk)
      simpa [Memory.writeAll, Nat.add_assoc, Nat.add_comm 1] using this

/-- The first bytes of a store into which a run was written at 0 are the run. -/
theorem Memory.prefixBytes_writeAll (bytes : List Byte) (m : Memory) :
    (m.writeAll 0 bytes).prefixBytes bytes.length = bytes := by
  apply List.ext_getElem
  · simp [Memory.prefixBytes]
  · intro k h1 h2
    have := Memory.read_writeAll_same bytes m 0 k h2
    simpa [Memory.prefixBytes] using this

@[simp] theorem Memory.prefixBytes_zero (m : Memory) : m.prefixBytes 0 = [] := rfl

theorem Memory.prefixBytes_succ (m : Memory) (n : Nat) : m.prefixBytes (n + 1) = m.prefixBytes n ++ [m.read n] := by
  simp [Memory.prefixBytes, List.range_succ]

@[simp] theorem Memory.prefixBytes_length (m : Memory) (n : Nat) : (m.prefixBytes n).length = n := by
  simp [Memory.prefixBytes]

/-- A write at or after the end of a prefix leaves the prefix. -/
theorem Memory.prefixBytes_write (m : Memory) {a n : Nat} (v : Byte) (h : n ≤ a) :
    (m.write a v).prefixBytes n = m.prefixBytes n := by
  apply List.map_congr_left
  intro k hk
  exact Memory.read_write_other m (by have := List.mem_range.mp hk; omega) v

end Sys2Proof.Machine
end

