-- ==== Sys2Proof/Laws/State.lean ====
section
/-! SUPPORT. What each field reads after each named update of the state: one lemma a field and update, all by `rfl`; and
what a register write is and keeps. -/

namespace Sys2Proof.Machine

/-! ## enqueue -/

@[simp] theorem enqueue_id (as : List Action) (s : State) : (enqueue as s).id = s.id := rfl
@[simp] theorem enqueue_senseOut (as : List Action) (s : State) : (enqueue as s).senseOut = s.senseOut := rfl
@[simp] theorem enqueue_cntr (as : List Action) (s : State) : (enqueue as s).cntr = s.cntr := rfl
@[simp] theorem enqueue_dir (as : List Action) (s : State) : (enqueue as s).dir = s.dir := rfl
@[simp] theorem enqueue_rstate (as : List Action) (s : State) : (enqueue as s).rstate = s.rstate := rfl
@[simp] theorem enqueue_sum (as : List Action) (s : State) : (enqueue as s).sum = s.sum := rfl
@[simp] theorem enqueue_dest (as : List Action) (s : State) : (enqueue as s).dest = s.dest := rfl
@[simp] theorem enqueue_bcast (as : List Action) (s : State) : (enqueue as s).bcast = s.bcast := rfl
@[simp] theorem enqueue_count (as : List Action) (s : State) : (enqueue as s).count = s.count := rfl
@[simp] theorem enqueue_cmd (as : List Action) (s : State) : (enqueue as s).cmd = s.cmd := rfl
@[simp] theorem enqueue_ptr (as : List Action) (s : State) : (enqueue as s).ptr = s.ptr := rfl
@[simp] theorem enqueue_rxBuf (as : List Action) (s : State) : (enqueue as s).rxBuf = s.rxBuf := rfl
@[simp] theorem enqueue_txBuf (as : List Action) (s : State) : (enqueue as s).txBuf = s.txBuf := rfl
@[simp] theorem enqueue_tlen (as : List Action) (s : State) : (enqueue as s).tlen = s.tlen := rfl
@[simp] theorem enqueue_tsum (as : List Action) (s : State) : (enqueue as s).tsum = s.tsum := rfl
@[simp] theorem enqueue_cfg (as : List Action) (s : State) : (enqueue as s).cfg = s.cfg := rfl
@[simp] theorem enqueue_rx (as : List Action) (s : State) : (enqueue as s).rx = s.rx := rfl
@[simp] theorem enqueue_senseIn (as : List Action) (s : State) : (enqueue as s).senseIn = s.senseIn := rfl
@[simp] theorem enqueue_answers (as : List Action) (s : State) : (enqueue as s).answers = s.answers := rfl
@[simp] theorem enqueue_instrReady (as : List Action) (s : State) : (enqueue as s).instrReady = s.instrReady := rfl
@[simp] theorem enqueue_out (as : List Action) (s : State) : (enqueue as s).out = s.out := rfl
@[simp] theorem enqueue_todo (as : List Action) (s : State) : (enqueue as s).todo = s.todo ++ as := rfl
@[simp] theorem enqueue_escape (as : List Action) (s : State) : (enqueue as s).escape = s.escape := rfl
@[simp] theorem enqueue_popped (as : List Action) (s : State) : (enqueue as s).popped = s.popped := rfl
@[simp] theorem enqueue_inCall (as : List Action) (s : State) : (enqueue as s).inCall = s.inCall := rfl
@[simp] theorem enqueue_draws (as : List Action) (s : State) : (enqueue as s).draws = s.draws := rfl
@[simp] theorem enqueue_stream (as : List Action) (s : State) : (enqueue as s).stream = s.stream := rfl

/-! ## startFrame -/

@[simp] theorem startFrame_id (s : State) : (startFrame s).id = s.id := rfl
@[simp] theorem startFrame_senseOut (s : State) : (startFrame s).senseOut = s.senseOut := rfl
@[simp] theorem startFrame_cntr (s : State) : (startFrame s).cntr = s.cntr := rfl
@[simp] theorem startFrame_dir (s : State) : (startFrame s).dir = s.dir := rfl
@[simp] theorem startFrame_rstate (s : State) : (startFrame s).rstate = s.rstate := rfl
@[simp] theorem startFrame_sum (s : State) : (startFrame s).sum = s.sum := rfl
@[simp] theorem startFrame_dest (s : State) : (startFrame s).dest = s.dest := rfl
@[simp] theorem startFrame_bcast (s : State) : (startFrame s).bcast = s.bcast := rfl
@[simp] theorem startFrame_count (s : State) : (startFrame s).count = s.count := rfl
@[simp] theorem startFrame_cmd (s : State) : (startFrame s).cmd = s.cmd := rfl
@[simp] theorem startFrame_ptr (s : State) : (startFrame s).ptr = s.ptr := rfl
@[simp] theorem startFrame_rxBuf (s : State) : (startFrame s).rxBuf = s.rxBuf := rfl
@[simp] theorem startFrame_txBuf (s : State) : (startFrame s).txBuf = s.txBuf := rfl
@[simp] theorem startFrame_tlen (s : State) : (startFrame s).tlen = s.tlen := rfl
@[simp] theorem startFrame_tsum (s : State) : (startFrame s).tsum = s.tsum := rfl
@[simp] theorem startFrame_cfg (s : State) : (startFrame s).cfg = s.cfg := rfl
@[simp] theorem startFrame_rx (s : State) : (startFrame s).rx = s.rx := rfl
@[simp] theorem startFrame_senseIn (s : State) : (startFrame s).senseIn = s.senseIn := rfl
@[simp] theorem startFrame_answers (s : State) : (startFrame s).answers = s.answers := rfl
@[simp] theorem startFrame_instrReady (s : State) : (startFrame s).instrReady = s.instrReady := rfl
@[simp] theorem startFrame_out (s : State) : (startFrame s).out = s.out := rfl
@[simp] theorem startFrame_todo (s : State) :
    (startFrame s).todo = s.todo ++ [.write (.rstate .gotSync), .write (.sum 0)] := rfl
@[simp] theorem startFrame_escape (s : State) : (startFrame s).escape = false := rfl
@[simp] theorem startFrame_popped (s : State) : (startFrame s).popped = s.popped := rfl
@[simp] theorem startFrame_inCall (s : State) : (startFrame s).inCall = s.inCall := rfl
@[simp] theorem startFrame_draws (s : State) : (startFrame s).draws = s.draws := rfl
@[simp] theorem startFrame_stream (s : State) : (startFrame s).stream = s.stream := rfl

/-! ## accumulate -/

@[simp] theorem accumulate_id (v : Byte) (s : State) : (accumulate v s).id = s.id := rfl
@[simp] theorem accumulate_senseOut (v : Byte) (s : State) : (accumulate v s).senseOut = s.senseOut := rfl
@[simp] theorem accumulate_cntr (v : Byte) (s : State) : (accumulate v s).cntr = s.cntr := rfl
@[simp] theorem accumulate_dir (v : Byte) (s : State) : (accumulate v s).dir = s.dir := rfl
@[simp] theorem accumulate_rstate (v : Byte) (s : State) : (accumulate v s).rstate = s.rstate := rfl
@[simp] theorem accumulate_sum (v : Byte) (s : State) : (accumulate v s).sum = s.sum := rfl
@[simp] theorem accumulate_dest (v : Byte) (s : State) : (accumulate v s).dest = s.dest := rfl
@[simp] theorem accumulate_bcast (v : Byte) (s : State) : (accumulate v s).bcast = s.bcast := rfl
@[simp] theorem accumulate_count (v : Byte) (s : State) : (accumulate v s).count = s.count := rfl
@[simp] theorem accumulate_cmd (v : Byte) (s : State) : (accumulate v s).cmd = s.cmd := rfl
@[simp] theorem accumulate_ptr (v : Byte) (s : State) : (accumulate v s).ptr = s.ptr := rfl
@[simp] theorem accumulate_rxBuf (v : Byte) (s : State) : (accumulate v s).rxBuf = s.rxBuf := rfl
@[simp] theorem accumulate_txBuf (v : Byte) (s : State) : (accumulate v s).txBuf = s.txBuf := rfl
@[simp] theorem accumulate_tlen (v : Byte) (s : State) : (accumulate v s).tlen = s.tlen := rfl
@[simp] theorem accumulate_tsum (v : Byte) (s : State) : (accumulate v s).tsum = s.tsum := rfl
@[simp] theorem accumulate_cfg (v : Byte) (s : State) : (accumulate v s).cfg = s.cfg := rfl
@[simp] theorem accumulate_rx (v : Byte) (s : State) : (accumulate v s).rx = s.rx := rfl
@[simp] theorem accumulate_senseIn (v : Byte) (s : State) : (accumulate v s).senseIn = s.senseIn := rfl
@[simp] theorem accumulate_answers (v : Byte) (s : State) : (accumulate v s).answers = s.answers := rfl
@[simp] theorem accumulate_instrReady (v : Byte) (s : State) : (accumulate v s).instrReady = s.instrReady := rfl
@[simp] theorem accumulate_out (v : Byte) (s : State) : (accumulate v s).out = s.out := rfl
@[simp] theorem accumulate_todo (v : Byte) (s : State) :
    (accumulate v s).todo = s.todo ++ [.write (.sum (s.sum + v))] := rfl
@[simp] theorem accumulate_escape (v : Byte) (s : State) : (accumulate v s).escape = s.escape := rfl
@[simp] theorem accumulate_popped (v : Byte) (s : State) : (accumulate v s).popped = s.popped := rfl
@[simp] theorem accumulate_inCall (v : Byte) (s : State) : (accumulate v s).inCall = s.inCall := rfl
@[simp] theorem accumulate_draws (v : Byte) (s : State) : (accumulate v s).draws = s.draws := rfl
@[simp] theorem accumulate_stream (v : Byte) (s : State) : (accumulate v s).stream = s.stream := rfl

/-! ## endTick -/

@[simp] theorem endTick_id (s : State) : (endTick s).id = s.id := rfl
@[simp] theorem endTick_senseOut (s : State) : (endTick s).senseOut = s.senseOut := rfl
@[simp] theorem endTick_cntr (s : State) : (endTick s).cntr = s.cntr := rfl
@[simp] theorem endTick_dir (s : State) : (endTick s).dir = s.dir := rfl
@[simp] theorem endTick_rstate (s : State) : (endTick s).rstate = .waiting := rfl
@[simp] theorem endTick_sum (s : State) : (endTick s).sum = s.sum := rfl
@[simp] theorem endTick_dest (s : State) : (endTick s).dest = s.dest := rfl
@[simp] theorem endTick_bcast (s : State) : (endTick s).bcast = s.bcast := rfl
@[simp] theorem endTick_count (s : State) : (endTick s).count = s.count := rfl
@[simp] theorem endTick_cmd (s : State) : (endTick s).cmd = s.cmd := rfl
@[simp] theorem endTick_ptr (s : State) : (endTick s).ptr = s.ptr := rfl
@[simp] theorem endTick_rxBuf (s : State) : (endTick s).rxBuf = s.rxBuf := rfl
@[simp] theorem endTick_txBuf (s : State) : (endTick s).txBuf = s.txBuf := rfl
@[simp] theorem endTick_tlen (s : State) : (endTick s).tlen = s.tlen := rfl
@[simp] theorem endTick_tsum (s : State) : (endTick s).tsum = s.tsum := rfl
@[simp] theorem endTick_cfg (s : State) : (endTick s).cfg = s.cfg := rfl
@[simp] theorem endTick_rx (s : State) : (endTick s).rx = s.rx := rfl
@[simp] theorem endTick_senseIn (s : State) : (endTick s).senseIn = s.senseIn := rfl
@[simp] theorem endTick_answers (s : State) : (endTick s).answers = s.answers := rfl
@[simp] theorem endTick_instrReady (s : State) : (endTick s).instrReady = s.instrReady := rfl
@[simp] theorem endTick_out (s : State) : (endTick s).out = s.out := rfl
@[simp] theorem endTick_todo (s : State) : (endTick s).todo = s.todo := rfl
@[simp] theorem endTick_escape (s : State) : (endTick s).escape = s.escape := rfl
@[simp] theorem endTick_popped (s : State) : (endTick s).popped = s.popped := rfl
@[simp] theorem endTick_inCall (s : State) : (endTick s).inCall = s.inCall := rfl
@[simp] theorem endTick_draws (s : State) : (endTick s).draws = s.draws := rfl
@[simp] theorem endTick_stream (s : State) : (endTick s).stream = s.stream := rfl

/-! ## Register writes -/

@[simp] theorem applyWrite_id (v : Byte) (s : State) : applyWrite (.id v) s = { s with id := v } := rfl
@[simp] theorem applyWrite_cntr (v : Byte) (s : State) : applyWrite (.cntr v) s = { s with cntr := v } := rfl
@[simp] theorem applyWrite_rstate (r : RState) (s : State) : applyWrite (.rstate r) s = { s with rstate := r } := rfl
@[simp] theorem applyWrite_sum (v : Byte) (s : State) : applyWrite (.sum v) s = { s with sum := v } := rfl
@[simp] theorem applyWrite_dest (v : Byte) (s : State) : applyWrite (.dest v) s = { s with dest := v } := rfl
@[simp] theorem applyWrite_bcast (b : Bool) (s : State) : applyWrite (.bcast b) s = { s with bcast := b } := rfl
@[simp] theorem applyWrite_count (v : Byte) (s : State) : applyWrite (.count v) s = { s with count := v } := rfl
@[simp] theorem applyWrite_cmd (v : Byte) (s : State) : applyWrite (.cmd v) s = { s with cmd := v } := rfl
@[simp] theorem applyWrite_ptr (v : Byte) (s : State) : applyWrite (.ptr v) s = { s with ptr := v } := rfl
@[simp] theorem applyWrite_tlen (v : Byte) (s : State) : applyWrite (.tlen v) s = { s with tlen := v } := rfl
@[simp] theorem applyWrite_tsum (v : Byte) (s : State) : applyWrite (.tsum v) s = { s with tsum := v } := rfl
@[simp] theorem applyWrite_rxBuf (a : Nat) (v : Byte) (s : State) :
    applyWrite (.rxBuf a v) s = { s with rxBuf := s.rxBuf.write a v } := rfl
@[simp] theorem applyWrite_txBuf (a : Nat) (v : Byte) (s : State) :
    applyWrite (.txBuf a v) s = { s with txBuf := s.txBuf.write a v } := rfl
@[simp] theorem applyWrite_addTsum (v : Byte) (s : State) :
    applyWrite (.addTsum v) s = { s with tsum := s.tsum + v } := rfl

/-- What no register write changes: the ports, the configuration, and the model's own fields. -/
theorem applyWrite_keeps (w : Write) (s : State) :
    applyWrite w s = { applyWrite w s with
      senseOut := s.senseOut, dir := s.dir, cfg := s.cfg, rx := s.rx, senseIn := s.senseIn, answers := s.answers,
      instrReady := s.instrReady, out := s.out, todo := s.todo, escape := s.escape, popped := s.popped,
      inCall := s.inCall, draws := s.draws, stream := s.stream } := by
  cases w <;> rfl

/-! ## Actions done one after another -/

@[simp] theorem performAll_nil (s : State) : performAll [] s = s := rfl

@[simp] theorem performAll_cons (a : Action) (as : List Action) (s : State) :
    performAll (a :: as) s = performAll as (perform a s) := rfl

theorem performAll_append (xs ys : List Action) (s : State) :
    performAll (xs ++ ys) s = performAll ys (performAll xs s) := List.foldl_append

@[simp] theorem perform_write (w : Write) (s : State) : perform (.write w) s = applyWrite w s := rfl

@[simp] theorem perform_ret (s : State) : perform .ret s = { s with rstate := .waiting } := rfl

@[simp] theorem perform_dir (d : Direction) (s : State) :
    perform (.port (.dir d)) s = { s with out := s.out ++ [.dir d], dir := d } := rfl

@[simp] theorem perform_tx (b : Byte) (s : State) :
    perform (.port (.tx b)) s = { s with out := s.out ++ [.tx b] } := rfl

@[simp] theorem perform_senseOut (l : Level) (s : State) :
    perform (.port (.senseOut l)) s = { s with out := s.out ++ [.senseOut l], senseOut := l } := rfl

@[simp] theorem perform_call (c : Call) (s : State) :
    perform (.port (.call c)) s = { s with out := s.out ++ [.call c], inCall := some c } := rfl

@[simp] theorem perform_devReset (s : State) :
    perform (.port .devReset) s = deviceReset { s with out := s.out ++ [.devReset] } := rfl

/-! ## Lists of actions one after another -/

@[simp] theorem enqueue_nil (s : State) : enqueue [] s = s := by simp [enqueue]

@[simp] theorem enqueue_enqueue (xs ys : List Action) (s : State) :
    enqueue ys (enqueue xs s) = enqueue (xs ++ ys) s := by simp [enqueue]

end Sys2Proof.Machine
end

