-- ==== Sys2Proof/Laws/Codec.lean ====
section
/-! SUPPORT. What the codec's send side, the reply buffer and the transmitter do, said once each (R53, R110, R220 to
R224). -/

namespace Sys2Proof

@[simp] theorem byteSum_nil : byteSum [] = 0 := rfl

@[simp] theorem byteSum_cons (b : Byte) (s : List Byte) : byteSum (b :: s) = b + byteSum s := rfl

@[simp] theorem byteSum_append (s t : List Byte) : byteSum (s ++ t) = byteSum s + byteSum t := by
  induction s with
  | nil => simp
  | cons b rest ih => simp [ih, BitVec.add_assoc]

@[simp] theorem stuff_nil : stuff [] = [] := rfl

@[simp] theorem stuff_cons (b : Byte) (s : List Byte) : stuff (b :: s) = stuffByte b ++ stuff s := rfl

@[simp] theorem stuff_append (s t : List Byte) : stuff (s ++ t) = stuff s ++ stuff t := List.flatMap_append

theorem stuffByte_plain {b : Byte} (h : reserved b = false) : stuffByte b = [b] := by simp [stuffByte, h]

theorem stuffByte_reserved {b : Byte} (h : reserved b = true) : stuffByte b = [markByte, b - 1] := by
  simp [stuffByte, h]

/-- A wire byte of a stuffed byte is never `SYNC` (R115). -/
theorem sync_not_mem_stuffByte (b : Byte) : syncByte ∉ stuffByte b := by
  revert b; decide

namespace Machine

/-! ## What a list of actions leaves on the ports and in `TSUM` -/

@[simp] theorem portEvents_nil : portEvents [] = [] := rfl

@[simp] theorem portEvents_port (e : PortEvent) (as : List Action) :
    portEvents (.port e :: as) = e :: portEvents as := rfl

@[simp] theorem portEvents_write (w : Write) (as : List Action) : portEvents (.write w :: as) = portEvents as := rfl

@[simp] theorem portEvents_ret (as : List Action) : portEvents (.ret :: as) = portEvents as := rfl

@[simp] theorem portEvents_append (xs ys : List Action) : portEvents (xs ++ ys) = portEvents xs ++ portEvents ys :=
  List.filterMap_append

@[simp] theorem portEvents_writes (ws : List Write) : portEvents (ws.map .write) = [] := by
  induction ws with
  | nil => rfl
  | cons w rest ih => exact ih

@[simp] theorem portEvents_ports (es : List PortEvent) : portEvents (es.map .port) = es := by
  induction es with
  | nil => rfl
  | cons e rest ih => simp [ih]

@[simp] theorem sumAfter_nil (t : Byte) : sumAfter t [] = t := rfl

@[simp] theorem sumAfter_cons (t : Byte) (a : Action) (as : List Action) :
    sumAfter t (a :: as) = sumAfter (sumStep t a) as := rfl

@[simp] theorem sumAfter_append (t : Byte) (xs ys : List Action) :
    sumAfter t (xs ++ ys) = sumAfter (sumAfter t xs) ys := List.foldl_append

@[simp] theorem pushes_nil : pushes [] = [] := rfl

@[simp] theorem pushes_cons (b : Byte) (rest : List Byte) : pushes (b :: rest) = .port (.tx b) :: pushes rest := rfl

@[simp] theorem portEvents_pushes (bytes : List Byte) : portEvents (pushes bytes) = bytes.map .tx := by
  induction bytes with
  | nil => rfl
  | cons b rest ih => simp [ih]

@[simp] theorem encodeAll_nil : encodeAll [] = [] := rfl

@[simp] theorem encodeAll_cons (v : Byte) (rest : List Byte) : encodeAll (v :: rest) = encodeByte v ++ encodeAll rest :=
  rfl

/-- The checksum of a reply is the sum of its bytes (R75, R222). -/
theorem replySum_eq (status : Byte) (body : List Byte) :
    replySum status body = byteSum (masterAddr :: replyBytes status body) := by
  simp [replySum, replyBytes, BitVec.add_assoc]

/-! ## What the operations do -/

/-- Pushing bytes puts them on the transmit port, and does nothing else. -/
@[simp] theorem performAll_pushes (bytes : List Byte) (s : State) :
    performAll (pushes bytes) s = { s with out := s.out ++ bytes.map .tx } := by
  induction bytes generalizing s with
  | nil => simp
  | cons b rest ih => simp [ih]

/-- `Encode(v)` adds `v` to `TSUM` and pushes its stuffed form (R110). -/
@[simp] theorem performAll_encodeByte (v : Byte) (s : State) :
    performAll (encodeByte v) s = { s with tsum := s.tsum + v, out := s.out ++ (stuffByte v).map .tx } := by
  simp [encodeByte]

/-- Encoding bytes adds each to `TSUM`, and pushes the stuffed sequence. -/
@[simp] theorem performAll_encodeAll (bytes : List Byte) (s : State) :
    performAll (encodeAll bytes) s =
      { s with tsum := s.tsum + byteSum bytes, out := s.out ++ (stuff bytes).map .tx } := by
  induction bytes generalizing s with
  | nil => simp
  | cons v rest ih => simp [performAll_append, ih, BitVec.add_assoc]

/-- A frame leaves its checksum in `TSUM`, `DIR` at `RX`, and its trace on the ports (R220, R222, R225). -/
@[simp] theorem performAll_sendFrame (status : Byte) (body : List Byte) (s : State) :
    performAll (sendFrame status body) s =
      { s with tsum := replySum status body, dir := .rx, out := s.out ++ replyTrace status body } := by
  have h : replySum status body = masterAddr + BitVec.ofNat 8 (body.length + 2) + status + byteSum body := rfl
  simp only [sendFrame, writeRaw, encodeFinal, performAll_append, performAll_cons, performAll_nil, perform_dir,
    perform_tx, perform_write, applyWrite_tsum, performAll_encodeByte, performAll_encodeAll, performAll_pushes, ← h]
  simp [replyTrace, encodeReply, replyBytes, replySum, BitVec.add_assoc]

/-- A frame's port actions are its trace. -/
@[simp] theorem portEvents_sendFrame (status : Byte) (body : List Byte) :
    portEvents (sendFrame status body) = replyTrace status body := by
  have he : ∀ bytes, portEvents (encodeAll bytes) = (stuff bytes).map .tx := by
    intro bytes
    induction bytes with
    | nil => rfl
    | cons v rest ih => simp [encodeByte, ih]
  simp [sendFrame, writeRaw, encodeByte, encodeFinal, he, replyTrace, encodeReply, replyBytes, replySum,
    BitVec.add_assoc]

/-- The fixed status frame of an admitted status is the bytes of the empty reply of that status (R224). -/
theorem sendStatusFrame_eq {status : Byte} (h : statusFrameFits status = true) :
    sendStatusFrame status = (replyTrace status []).map .port := by
  simp only [statusFrameFits, Bool.and_eq_true, Bool.not_eq_true'] at h
  have hs : masterAddr + 0x02 + status = status + 2 := by rw [BitVec.add_comm]; simp [masterAddr]
  have hb : byteSum (masterAddr :: replyBytes status []) = status + 2 := by
    rw [← hs]; simp [replyBytes, BitVec.add_assoc]
  have hw : stuff (replyBytes status [] ++ [byteSum (masterAddr :: replyBytes status [])]) =
      [0x02, status, status + 2] := by
    rw [hb]
    show stuffByte 2 ++ (stuffByte status ++ (stuffByte (status + 2) ++ [])) = _
    rw [stuffByte_plain h.1, stuffByte_plain h.2, stuffByte_plain (by decide)]
    rfl
  rw [replyTrace, encodeReply, hw, sendStatusFrame, hs]; rfl

/-- A status frame leaves `DIR` at `RX`, its bytes on the ports, and `TSUM` as it was (R224). -/
@[simp] theorem performAll_sendStatusFrame (status : Byte) (s : State) :
    performAll (sendStatusFrame status) s =
      { s with dir := .rx, out := s.out ++ portEvents (sendStatusFrame status) } := by
  simp [sendStatusFrame, pushes]

/-- `TxAppend` of each byte writes them from `TLEN` on, and `TLEN` is their end (R53). -/
theorem performAll_txAppendAll (bytes : List Byte) (n : Nat) (s : State) (h : s.tlen = BitVec.ofNat 8 n) :
    performAll (txAppendAll n bytes) s =
      { s with txBuf := s.txBuf.writeAll n bytes, tlen := BitVec.ofNat 8 (n + bytes.length) } := by
  induction bytes generalizing n s with
  | nil => simp [txAppendAll, Memory.writeAll, ← h]
  | cons b rest ih =>
    rw [txAppendAll, performAll_append, ih (n + 1) _ rfl]
    simp [txAppend, Memory.writeAll, Nat.add_assoc, Nat.add_comm 1]

end Machine

end Sys2Proof
end

