-- ==== Sys2Proof/Laws/Encoding.lean ====
section
/-! SUPPORT. The laws of the wire: what destuffing does to stuffed bytes, how the command map selects, and what an
admitted configuration gives (R9, R70, R77, R112). -/

namespace Sys2Proof

theorem reserved_iff (b : Byte) : reserved b = true ↔ b = syncByte ∨ b = markByte := by
  simp [reserved]

theorem reserved_false_iff (b : Byte) : reserved b = false ↔ b ≠ syncByte ∧ b ≠ markByte := by
  simp [reserved]

/-- The byte sent after a `MARK` is no `SYNC`, and one more gives the payload byte back (R114). -/
theorem reserved_pred {b : Byte} (h : reserved b = true) : b - 1 ≠ syncByte ∧ b - 1 + 1 = b := by
  revert b; decide

/-- Destuffing gives back the stuffed byte before the rest (R114). -/
theorem destuffFrom_stuffByte (b : Byte) (rest : List Byte) :
    destuffFrom false (stuffByte b ++ rest) = (destuffFrom false rest).map (b :: ·) := by
  by_cases h : reserved b = true
  · obtain ⟨h1, h2⟩ := reserved_pred h
    have hm : markByte ≠ syncByte := by decide
    rw [stuffByte_reserved h]
    show destuffFrom false (markByte :: (b - 1) :: rest) = _
    rw [destuffFrom, if_neg hm, if_neg (by simp), if_pos rfl, destuffFrom, if_neg h1, if_pos rfl, h2]
  · have h' : reserved b = false := by simpa using h
    obtain ⟨h1, h2⟩ := (reserved_false_iff b).mp h'
    rw [stuffByte_plain h']
    show destuffFrom false (b :: rest) = _
    rw [destuffFrom, if_neg h1, if_neg (by simp), if_neg h2]

/-- The code of a row that comes first with its code in the command map is found there. -/
theorem find_row_of_mem {rows : List (Byte × (List Byte → Instr))} (hd : (rows.map Prod.fst).Nodup)
    {row : Byte × (List Byte → Instr)} (hm : row ∈ rows) : rows.find? (fun r => r.1 == row.1) = some row := by
  induction rows with
  | nil => simp at hm
  | cons r rest ih =>
    simp only [List.map_cons, List.nodup_cons] at hd
    rcases List.mem_cons.mp hm with rfl | hm
    · simp
    · have hne : r.1 ≠ row.1 := fun h => hd.1 (h ▸ List.mem_map_of_mem hm)
      simp [hne, ih hd.2 hm]

theorem commandTable_codes (c : Config) : (commandTable c).map Prod.fst = c.codes := rfl

/-- With distinct codes every row of the command map is the one its code selects (R77). -/
theorem decodeCommand_row {c : Config} (hd : c.codes.Nodup) {row : Byte × (List Byte → Instr)}
    (hm : row ∈ commandTable c) (body : List Byte) : decodeCommand c row.1 body = row.2 body := by
  rw [decodeCommand, find_row_of_mem (commandTable_codes c ▸ hd) hm]

/-- The same by the row's place in the map. -/
theorem decodeCommand_at {c : Config} (hd : c.codes.Nodup) (k : Nat) (hk : k < 16) (body : List Byte) :
    decodeCommand c ((commandTable c)[k]'hk).1 body = ((commandTable c)[k]'hk).2 body :=
  decodeCommand_row hd (List.getElem_mem _) body

/-- A code outside the map selects "unknown" (R85). -/
theorem decodeCommand_unmapped {c : Config} {code : Byte} (h : code ∉ c.codes) (body : List Byte) :
    decodeCommand c code body = .unknown code body := by
  rw [← commandTable_codes] at h
  have : (commandTable c).find? (fun r => r.1 == code) = none := by
    rw [List.find?_eq_none]
    intro r hr he
    exact h ((beq_iff_eq.mp he) ▸ List.mem_map_of_mem (f := Prod.fst) hr)
  rw [decodeCommand, this]

namespace Machine

theorem distinct_iff (s : List Byte) : distinct s = true ↔ s.Nodup := by
  induction s with
  | nil => simp [distinct]
  | cons b rest ih => simp [distinct, ih]

/-- What the admission of a configuration gives (R9), item by item. -/
structure AdmittedFacts (c : Config) : Prop where
  codes : c.codes.Nodup
  statuses : [c.statusOk, c.statusUnknownCmd, c.statusSumErr, c.statusOverflow].Nodup
  sumErr : statusFrameFits c.statusSumErr = true
  overflow : statusFrameFits c.statusOverflow = true
  feats : [c.featNote, c.featLight, c.featControl, c.featOffset, featPad].Nodup
  rx_two : 2 ≤ c.rxBufCap
  rx_max : c.rxBufCap ≤ 255
  features : 1 + 4 * c.features.length + 1 ≤ replyRoom c
  idString : 1 + c.idString.length ≤ 253
  time_pos : 1 ≤ c.timeBytes
  time_fits : c.timeBytes + 3 ≤ c.rxBufCap - 2

theorem admitted_iff (c : Config) : admitted c = true ↔ AdmittedFacts c := by
  simp only [admitted, Bool.and_eq_true, decide_eq_true_eq, distinct_iff]
  constructor
  · rintro ⟨⟨⟨⟨⟨⟨⟨⟨⟨⟨h1, h2⟩, h3⟩, h4⟩, h5⟩, h6⟩, h7⟩, h8⟩, h9⟩, h10⟩, h11⟩
    exact ⟨h7, h8, h9, h10, h11, h1, h2, h5, h6, h3, h4⟩
  · rintro ⟨h7, h8, h9, h10, h11, h1, h2, h5, h6, h3, h4⟩
    exact ⟨⟨⟨⟨⟨⟨⟨⟨⟨⟨h1, h2⟩, h3⟩, h4⟩, h5⟩, h6⟩, h7⟩, h8⟩, h9⟩, h10⟩, h11⟩

/-- An admitted reply buffer holds a report and one more byte. -/
theorem AdmittedFacts.two_le_room {c : Config} (h : AdmittedFacts c) : 2 ≤ replyRoom c := by
  have := h.features; omega

end Machine

end Sys2Proof
end

