-- ==== Sys2Proof/Laws/Ops.lean ====
section
/-! SUPPORT. What each shared operation of the dispatcher comes to, said once: replies, errors, the device reset,
operands and instrument calls. -/

namespace Sys2Proof.Machine

@[simp] theorem andThen_next (s : State) (k : State → Host.Outcome State Fault Refusal) :
    andThen (.next s) k = k s := rfl

@[simp] theorem andThen_fault (r : Fault) (k : State → Host.Outcome State Fault Refusal) :
    andThen (.fault r) k = .fault r := rfl

@[simp] theorem andThen_refused (r : Refusal) (k : State → Host.Outcome State Fault Refusal) :
    andThen (.refused r) k = .refused r := rfl

/-- An outcome goes on to a next state exactly through a next state. -/
theorem andThen_eq_next {o : Host.Outcome State Fault Refusal} {k : State → Host.Outcome State Fault Refusal}
    {t : State} (h : andThen o k = .next t) : ∃ s, o = .next s ∧ k s = .next t := by
  cases o with
  | next s => exact ⟨s, rfl, h⟩
  | fault r => simp at h
  | refused r => simp at h

/-! ## Replies and errors -/

/-- A listing that fits. -/
theorem listIf_true {fits : Bool} (h : fits = true) (r : Refusal) (as : List Action) (s : State) :
    listIf fits r as s = .next (enqueue as s) := by rw [listIf, if_pos h]

/-- A listing comes to a next state exactly where it fits. -/
theorem listIf_eq_next {fits : Bool} {r : Refusal} {as : List Action} {s t : State} (h : listIf fits r as s = .next t) :
    fits = true ∧ t = enqueue as s := by
  cases fits
  · cases h
  · exact ⟨rfl, (Host.Outcome.next.inj h).symm⟩

/-- A listing never faults, and is refused only where it does not fit. -/
theorem listIf_ne_fault {fits : Bool} {r : Refusal} {as : List Action} {s : State} (f : Fault) :
    listIf fits r as s ≠ .fault f := by
  cases fits <;> exact nofun

theorem listIf_eq_refused {fits : Bool} {r q : Refusal} {as : List Action} {s : State}
    (h : listIf fits r as s = .refused q) : fits = false ∧ q = r := by
  cases fits
  · exact ⟨rfl, (Host.Outcome.refused.inj h).symm⟩
  · cases h

/-- A positive reply that fits lists what `replying` says (R53, R171, R220). -/
theorem replyOk_eq {bytes : List Byte} {s : State} (h : bytes.length ≤ replyRoom s.cfg) :
    replyOk bytes s = .next (replying s.cfg.statusOk bytes s) := by
  rw [replyOk, reply, listIf_true (by simpa using h)]
  simp [replying]

/-- The port actions of the fixed status frame (R224). -/
theorem replyTrace_status {status : Byte} (h : statusFrameFits status = true) :
    replyTrace status [] =
      [.dir .tx, .tx 0xE0, .tx 0x00, .tx 0x02, .tx status, .tx (status + 2), .dir .rx] := by
  have hs : masterAddr + 0x02 + status = status + 2 := by rw [BitVec.add_comm]; simp [masterAddr]
  rw [← portEvents_ports (replyTrace status []), ← sendStatusFrame_eq h, ← hs]; rfl

/-! ## Operands -/

theorem bodyAt_eq (stream : Nat) (body : List Byte) (d i : Nat) :
    bodyAt stream body i (d + (i - body.length)) = (operandAt stream body d i, d + (i + 1 - body.length)) := by
  unfold bodyAt operandAt
  by_cases h : i < body.length
  · simp only [List.getElem?_eq_getElem h, h, dif_pos]
    congr 1; omega
  · simp only [List.getElem?_eq_none (Nat.le_of_not_lt h), h, dif_neg, not_false_eq_true]
    congr 1; omega

theorem timeAt_eq (stream : Nat) (body : List Byte) (d t : Nat) :
    timeAt stream body t d = (bigEndian t (operandAt stream body d), d + (t - body.length)) := by
  induction t with
  | zero => simp [timeAt, bigEndian]
  | succ t ih =>
    simp only [timeAt, ih, bodyAt_eq]
    congr 1
    simp only [bigEndian, Finset.sum_range_succ, Finset.sum_mul, Nat.add_sub_cancel, Nat.sub_self, pow_zero, mul_one]
    congr 1
    refine Finset.sum_congr rfl fun j hj => ?_
    have := Finset.mem_range.mp hj
    rw [mul_assoc, ← pow_succ]
    congr 2; omega

/-- The operands of an event: each a body byte, or a draw of its own beyond the body (R81, R83, R173). -/
theorem eventArgs_eq (stream t : Nat) (body : List Byte) (d : Nat) :
    eventArgs stream t body d =
      ({ time := bigEndian t (operandAt stream body d), channel := operandAt stream body d t,
         index := operandAt stream body d (t + 1), value := operandAt stream body d (t + 2) },
        d + (t + 3 - body.length)) := by
  simp only [eventArgs, timeAt_eq, bodyAt_eq]

/-! ## Instrument calls -/

/-- Forwarding an event lists its call, with the operands the body gives it (R81, R193). -/
theorem forwardEvent_eq (mk : Nat → Byte → Byte → Byte → Call) (body : List Byte) (s : State) :
    forwardEvent mk body s = .next (calling mk body s) := by
  simp only [forwardEvent, eventArgs_eq]
  rfl

/-! ## Actions -/

/-- An action that moves a byte, sets a level, writes a register, or ends the tick: every action but the device reset
and the instrument call. -/
def Action.isPlain : Action → Bool
  | .port (.dir _) | .port (.tx _) | .port (.senseOut _) | .write _ | .ret => true
  | .port .devReset | .port (.call _) => false

/-- What no plain action changes: the configuration, the inputs, and the model's own fields. -/
theorem perform_keeps {a : Action} (ha : a.isPlain = true) (s : State) :
    perform a s = { perform a s with
      cfg := s.cfg, rx := s.rx, senseIn := s.senseIn, answers := s.answers, instrReady := s.instrReady,
      out := s.out ++ portEvents [a], todo := s.todo, escape := s.escape, popped := s.popped, inCall := s.inCall,
      draws := s.draws, stream := s.stream, tsum := sumStep s.tsum a } := by
  cases a with
  | port e => cases e <;> first | rfl | cases ha
  | write w => cases w <;> simp [sumStep]
  | ret => simp [sumStep]

/-- A plain action does the same whatever is to do after it. -/
theorem perform_todo {a : Action} (ha : a.isPlain = true) (s : State) (l : List Action) :
    perform a { s with todo := l } = { perform a s with todo := l } := by
  cases a with
  | port e => cases e <;> first | rfl | cases ha
  | write w => cases w <;> rfl
  | ret => rfl

/-- The same of plain actions one after another. -/
theorem performAll_keeps {as : List Action} (ha : as.all Action.isPlain = true) (s : State) :
    performAll as s = { performAll as s with
      cfg := s.cfg, rx := s.rx, senseIn := s.senseIn, answers := s.answers, instrReady := s.instrReady,
      out := s.out ++ portEvents as, todo := s.todo, escape := s.escape, popped := s.popped, inCall := s.inCall,
      draws := s.draws, stream := s.stream, tsum := sumAfter s.tsum as } := by
  induction as generalizing s with
  | nil => simp
  | cons a rest ih =>
    simp only [List.all_cons, Bool.and_eq_true] at ha
    have hp : portEvents (a :: rest) = portEvents [a] ++ portEvents rest := portEvents_append [a] rest
    rw [performAll_cons, ih ha.2, perform_keeps ha.1, hp]
    simp

theorem performAll_todo {as : List Action} (ha : as.all Action.isPlain = true) (s : State) (l : List Action) :
    performAll as { s with todo := l } = { performAll as s with todo := l } := by
  induction as generalizing s with
  | nil => rfl
  | cons a rest ih =>
    simp only [List.all_cons, Bool.and_eq_true] at ha
    rw [performAll_cons, perform_todo ha.1, ih ha.2]; rfl

/-! ### Which lists are plain -/

@[simp] theorem writes_plain (ws : List Write) : (ws.map Action.write).all Action.isPlain = true := by
  simp [Action.isPlain]

@[simp] theorem pushes_plain (bytes : List Byte) : (pushes bytes).all Action.isPlain = true := by
  simp [pushes, Action.isPlain]

@[simp] theorem encodeByte_plain (v : Byte) : (encodeByte v).all Action.isPlain = true := by
  rw [encodeByte, List.all_cons, pushes_plain]; rfl

@[simp] theorem encodeAll_plain (bytes : List Byte) : (encodeAll bytes).all Action.isPlain = true := by
  induction bytes with
  | nil => rfl
  | cons v rest ih => rw [encodeAll_cons, List.all_append, encodeByte_plain, ih]; rfl

@[simp] theorem sendFrame_plain (status : Byte) (body : List Byte) :
    (sendFrame status body).all Action.isPlain = true := by
  simp only [sendFrame, encodeFinal, List.all_append, encodeAll_plain, encodeByte_plain, pushes_plain]; rfl

@[simp] theorem sendStatusFrame_plain (status : Byte) : (sendStatusFrame status).all Action.isPlain = true := rfl

/-- Appending bytes is a run of register and buffer writes. -/
theorem txAppendAll_writes (bytes : List Byte) (n : Nat) :
    ∃ ws : List Write, txAppendAll n bytes = ws.map .write ∧ ws.length = 2 * bytes.length := by
  induction bytes generalizing n with
  | nil => exact ⟨[], rfl, rfl⟩
  | cons v rest ih =>
    obtain ⟨ws, hw, hl⟩ := ih (n + 1)
    exact ⟨.txBuf n v :: .tlen (BitVec.ofNat 8 (n + 1)) :: ws, by simp [txAppendAll, txAppend, hw],
      by simp [hl]; omega⟩

@[simp] theorem txAppendAll_plain (bytes : List Byte) (n : Nat) :
    (txAppendAll n bytes).all Action.isPlain = true := by
  obtain ⟨ws, h, -⟩ := txAppendAll_writes bytes n
  rw [h]; exact writes_plain ws

end Sys2Proof.Machine
end

