-- ==== Sys2Proof/Laws/Commands.lean ====
section
/-! SUPPORT. What a command's meaning, an error, and the return of an instrument call can leave, said once: the actions
they list, and nothing else (R141, R171, R191 to R193, R226). -/

namespace Sys2Proof.Machine

/-- The registers a dispatch writes itself (R191, R53, R170): `ID`, `CNTR`, `TLEN`, and `TxBuf` within its size. -/
def Write.ofDispatch (c : Config) : Write → Bool
  | .id _ | .cntr _ | .tlen _ => true
  | .txBuf a _ => decide (a < c.txBufCap)
  | .rstate _ | .sum _ | .dest _ | .bcast _ | .count _ | .cmd _ | .ptr _ | .rxBuf _ _ | .tsum _ | .addTsum _ => false

/-- Some writes of a dispatch, few enough for `replySteps`. -/
def DispatchWrites (c : Config) (ws : List Write) : Prop := ws.all (Write.ofDispatch c) = true ∧ ws.length ≤ 520

/-- The lists of actions that a command, an error or an answer can leave to do (R171, R174, R175, R193, R224). -/
inductive Agenda (c : Config) : List Action → Prop where
  /-- register writes, and the tick's return -/
  | ends (ws : List Write) (hw : DispatchWrites c ws) : Agenda c (ws.map .write ++ [.ret])
  /-- register writes, a reply, and the tick's return -/
  | reply (ws : List Write) (status : Byte) (body : List Byte) (hw : DispatchWrites c ws) (hb : body.length ≤ 253) :
      Agenda c (ws.map .write ++ sendFrame status body ++ [.ret])
  /-- a fixed status frame, and the tick's return -/
  | frame (status : Byte) (hf : statusFrameFits status = true) : Agenda c (sendStatusFrame status ++ [.ret])
  /-- ASSIGN_ADDR's reply, the sense output after it, and the tick's return -/
  | assign (ws : List Write) (status : Byte) (body : List Byte) (hw : DispatchWrites c ws) (hb : body.length ≤ 253) :
      Agenda c (ws.map .write ++ sendFrame status body ++ [.port (.senseOut .low)] ++ [.ret])
  /-- RESET -/
  | reset : Agenda c [freshReply, .write (.id unsetId), .port (.senseOut .high), .port .devReset, .ret]
  /-- an event's call -/
  | call (k : Call) : Agenda c [freshReply, .port (.call k)]

/-- What a command, an error or an answer does: it lists actions, uses up draws and answers, and changes nothing else.
-/
def Lists (s t : State) : Prop :=
  ∃ as, t = enqueue as { s with draws := t.draws, answers := t.answers } ∧ Agenda s.cfg as

/-! ## Port actions -/

/-- Port actions that send nothing, or one whole reply frame in its direction bracket (R225, R226). -/
def NothingOrOneReply (events : List PortEvent) : Prop :=
  quiet events ∨ ∃ before status body after,
    events = before ++ replyTrace status body ++ after ∧ quiet before ∧ quiet after

theorem quiet_nil : quiet [] := fun _ h => nomatch h

theorem quiet_append {xs ys : List PortEvent} (hx : quiet xs) (hy : quiet ys) : quiet (xs ++ ys) := fun e he =>
  (List.mem_append.mp he).elim (hx e) (hy e)

theorem quiet_call (c : Call) : quiet [.call c] := by intro e he; simp_all

theorem quiet_senseOut (l : Level) : quiet [.senseOut l] := by intro e he; simp_all

theorem quiet_devReset : quiet [.devReset] := by intro e he; simp_all

theorem nothing_sent : NothingOrOneReply [] := .inl quiet_nil

theorem one_reply (status : Byte) (body : List Byte) : NothingOrOneReply (replyTrace status body) :=
  .inr ⟨[], status, body, [], by simp, quiet_nil, quiet_nil⟩

theorem one_reply_then (status : Byte) (body : List Byte) {after : List PortEvent} (h : quiet after) :
    NothingOrOneReply (replyTrace status body ++ after) :=
  .inr ⟨[], status, body, after, by simp, quiet_nil, h⟩

theorem NothingOrOneReply.after_quiet {xs ys : List PortEvent} (hx : quiet xs) (hy : NothingOrOneReply ys) :
    NothingOrOneReply (xs ++ ys) := by
  rcases hy with hy | ⟨before, status, body, after, rfl, hb, ha⟩
  · exact .inl (quiet_append hx hy)
  · exact .inr ⟨xs ++ before, status, body, after, by simp, quiet_append hx hb, ha⟩

/-- A command's list sends nothing or one reply (R226). -/
theorem Agenda.nothingOrOneReply {c : Config} {as : List Action} (h : Agenda c as) :
    NothingOrOneReply (portEvents as) := by
  cases h with
  | ends ws _ => simpa using nothing_sent
  | reply ws status body _ _ => simpa using one_reply status body
  | frame status hf =>
    simpa [sendStatusFrame_eq hf] using one_reply status []
  | assign ws status body _ _ => simpa using one_reply_then status body (quiet_senseOut .low)
  | reset => exact .inl (quiet_append (quiet_senseOut .high) quiet_devReset)
  | call k => exact .inl (quiet_call k)

@[simp] theorem bracketed_writes (d : Direction) (ws : List Write) (rest : List Action) :
    bracketed d (ws.map .write ++ rest) = bracketed d rest := by
  induction ws with
  | nil => rfl
  | cons w more ih => exact ih

@[simp] theorem bracketed_pushes (bytes : List Byte) (rest : List Action) :
    bracketed .tx (pushes bytes ++ rest) = bracketed .tx rest := by
  induction bytes with
  | nil => rfl
  | cons b more ih => exact ih

@[simp] theorem bracketed_encodeByte (v : Byte) (rest : List Action) :
    bracketed .tx (encodeByte v ++ rest) = bracketed .tx rest := bracketed_pushes _ _

@[simp] theorem bracketed_encodeAll (bytes : List Byte) (rest : List Action) :
    bracketed .tx (encodeAll bytes ++ rest) = bracketed .tx rest := by
  induction bytes with
  | nil => rfl
  | cons v more ih => rw [encodeAll_cons, List.append_assoc, bracketed_encodeByte, ih]

/-- The actions of a reply keep the direction bracket and leave `DIR` at `RX` (R225). -/
@[simp] theorem bracketed_sendFrame (d : Direction) (status : Byte) (body : List Byte) (rest : List Action) :
    bracketed d (sendFrame status body ++ rest) = bracketed .rx rest := by
  simp only [sendFrame, List.append_assoc, List.cons_append, List.nil_append]
  show bracketed .tx (encodeByte _ ++ (encodeByte _ ++ (encodeAll _ ++ (pushes _ ++ _)))) = _
  rw [bracketed_encodeByte, bracketed_encodeByte, bracketed_encodeAll, bracketed_pushes]; rfl

/-- A command's list keeps the direction bracket (R225). -/
theorem Agenda.bracketed {c : Config} {as : List Action} (h : Agenda c as) : bracketed .rx as = true := by
  cases h with
  | ends ws _ => rw [bracketed_writes]; rfl
  | reply ws status body _ _ => rw [List.append_assoc, bracketed_writes, bracketed_sendFrame]; rfl
  | frame status hf => rfl
  | assign ws status body _ _ =>
    rw [List.append_assoc, List.append_assoc, bracketed_writes, bracketed_sendFrame]; rfl
  | reset => rfl
  | call k => rfl

/-- The actions of a reply: the direction, pushes, and updates of `TSUM` (R220). -/
theorem mem_sendFrame {status : Byte} {body : List Byte} {a : Action} (h : a ∈ sendFrame status body) :
    (∃ d, a = .port (.dir d)) ∨ (∃ b, a = .port (.tx b)) ∨ (∃ v, a = .write (.tsum v)) ∨
      ∃ v, a = .write (.addTsum v) := by
  have hp : ∀ {bytes}, a ∈ pushes bytes → ∃ b, a = .port (.tx b) := fun h => by
    obtain ⟨b, -, rfl⟩ := List.mem_map.mp h; exact ⟨b, rfl⟩
  have he : ∀ {v}, a ∈ encodeByte v → (∃ b, a = .port (.tx b)) ∨ ∃ v, a = .write (.addTsum v) := fun h => by
    rcases List.mem_cons.mp h with rfl | h
    · exact .inr ⟨_, rfl⟩
    · exact .inl (hp h)
  simp only [sendFrame, encodeFinal, writeRaw, List.mem_append, List.mem_cons, List.not_mem_nil, or_false] at h
  rcases h with (rfl | rfl | rfl | rfl) | ((((h | h) | h) | h) | rfl)
  · exact .inl ⟨_, rfl⟩
  · exact .inr (.inl ⟨_, rfl⟩)
  · exact .inr (.inl ⟨_, rfl⟩)
  · exact .inr (.inr (.inl ⟨_, rfl⟩))
  · have := he h; tauto
  · have := he h; tauto
  · obtain ⟨v, -, hv⟩ := List.mem_flatMap.mp h
    have := he hv; tauto
  · have := hp h; tauto
  · exact .inl ⟨_, rfl⟩

theorem ret_not_mem_sendFrame (status : Byte) (body : List Byte) : Action.ret ∉ sendFrame status body := fun h => by
  rcases mem_sendFrame h with ⟨_, h⟩ | ⟨_, h⟩ | ⟨_, h⟩ | ⟨_, h⟩ <;> cases h

theorem write_mem_sendFrame {status : Byte} {body : List Byte} {w : Write} (h : .write w ∈ sendFrame status body) :
    (∃ v, w = .tsum v) ∨ ∃ v, w = .addTsum v := by
  rcases mem_sendFrame h with ⟨_, h⟩ | ⟨_, h⟩ | ⟨_, h⟩ | ⟨_, h⟩ <;> cases h
  · exact .inl ⟨_, rfl⟩
  · exact .inr ⟨_, rfl⟩

/-- How a command's list ends: in the tick's return, with nothing but plain actions before it, or else it is RESET's or
an event's. -/
theorem Agenda.shape {c : Config} {as : List Action} (h : Agenda c as) :
    (∃ pre, as = pre ++ [.ret] ∧ pre.all Action.isPlain = true ∧ .ret ∉ pre) ∨
      as = [freshReply, .write (.id unsetId), .port (.senseOut .high), .port .devReset, .ret] ∨
      ∃ k, as = [freshReply, .port (.call k)] := by
  cases h with
  | ends ws _ => exact .inl ⟨_, rfl, writes_plain ws, by simp⟩
  | reply ws status body _ _ => exact .inl ⟨_, rfl, by simp only [List.all_append, writes_plain, sendFrame_plain]; rfl,
      by simp [ret_not_mem_sendFrame]⟩
  | frame status hf => exact .inl ⟨_, rfl, rfl, by simp [sendStatusFrame, pushes]⟩
  | assign ws status body _ _ =>
    exact .inl ⟨_, rfl, by simp only [List.all_append, writes_plain, sendFrame_plain]; rfl,
      by simp [ret_not_mem_sendFrame]⟩
  | reset => exact .inr (.inl rfl)
  | call k => exact .inr (.inr ⟨k, rfl⟩)

theorem stuffByte_length_le (v : Byte) : (stuffByte v).length ≤ 2 := by
  unfold stuffByte; split <;> simp

theorem encodeByte_length_le (v : Byte) : (encodeByte v).length ≤ 3 := by
  have := stuffByte_length_le v
  simp only [encodeByte, pushes, List.length_cons, List.length_map]; omega

theorem encodeAll_length_le (bytes : List Byte) : (encodeAll bytes).length ≤ 3 * bytes.length := by
  induction bytes with
  | nil => simp
  | cons v rest ih =>
    have := encodeByte_length_le v
    simp only [encodeAll_cons, List.length_cons, List.length_append]; omega

theorem sendFrame_length_le (status : Byte) (body : List Byte) :
    (sendFrame status body).length ≤ 3 * body.length + 13 := by
  have h1 := encodeByte_length_le (BitVec.ofNat 8 (body.length + 2))
  have h2 := encodeByte_length_le status
  have h3 := encodeAll_length_le body
  have h4 := stuffByte_length_le (replySum status body)
  simp only [sendFrame, encodeFinal, pushes, List.length_append, List.length_cons, List.length_nil, List.length_map]
  omega

/-- A command's list is shorter than `replySteps` leaves room for. -/
theorem Agenda.length_le {c : Config} {as : List Action} (h : Agenda c as) : as.length ≤ replySteps - 20 := by
  unfold replySteps
  cases h with
  | ends ws hw => have := hw.2; simp; omega
  | reply ws status body hw hl =>
    have := sendFrame_length_le status body
    have := hw.2
    simp only [List.length_append, List.length_map, List.length_cons, List.length_nil]; omega
  | frame status hf => simp [sendStatusFrame, pushes]
  | assign ws status body hw hl =>
    have := sendFrame_length_le status body
    have := hw.2
    simp only [List.length_append, List.length_map, List.length_cons, List.length_nil]; omega
  | reset => simp
  | call k => simp

/-- Every write of a command's list is a write of a dispatch, or an update of `TSUM`. -/
theorem Agenda.writes {c : Config} {as : List Action} (h : Agenda c as) {w : Write} (hm : .write w ∈ as) :
    w.ofDispatch c = true ∨ (∃ v, w = .tsum v) ∨ ∃ v, w = .addTsum v := by
  have key : ∀ {ws : List Write}, DispatchWrites c ws → .write w ∈ ws.map Action.write → w.ofDispatch c = true := by
    intro ws hw hm
    obtain ⟨x, hx, he⟩ := List.mem_map.mp hm
    cases he
    exact List.all_eq_true.mp hw.1 _ hx
  cases h with
  | ends ws hw =>
    rcases List.mem_append.mp hm with h | h
    · exact .inl (key hw h)
    · simp at h
  | reply ws status body hw _ =>
    simp only [List.mem_append] at hm
    rcases hm with (h | h) | h
    · exact .inl (key hw h)
    · exact .inr (write_mem_sendFrame h)
    · simp at h
  | frame status hf => simp [sendStatusFrame, pushes] at hm
  | assign ws status body hw _ =>
    simp only [List.mem_append] at hm
    rcases hm with ((h | h) | h) | h
    · exact .inl (key hw h)
    · exact .inr (write_mem_sendFrame h)
    · simp at h
    · simp at h
  | reset => simp [freshReply] at hm; rcases hm with rfl | rfl <;> exact .inl rfl
  | call k => simp [freshReply] at hm; subst hm; exact .inl rfl

/-- Every write of a command's list to a buffer is inside it (R53). -/
theorem Agenda.inBuffers {c : Config} {as : List Action} (h : Agenda c as) :
    as.all (Action.inBuffers c) = true := by
  rw [List.all_eq_true]
  intro a ha
  cases a with
  | port e => rfl
  | ret => rfl
  | write w =>
    rcases h.writes ha with hw | ⟨v, rfl⟩ | ⟨v, rfl⟩
    · cases w <;> first | rfl | exact hw | cases hw
    · rfl
    · rfl

/-! ## What lists what -/

/-- Listing after draws and answers are used up. -/
theorem Lists.after {s u t : State} (h : Lists u t) (hu : u = { s with draws := u.draws, answers := u.answers }) :
    Lists s t := by
  obtain ⟨as, ht, ha⟩ := h
  rw [hu] at ht ha
  exact ⟨as, ht, ha⟩

theorem lists_enqueue {s : State} {as : List Action} (h : Agenda s.cfg as) : Lists s (enqueue as s) := ⟨as, rfl, h⟩

theorem lists_listIf {fits : Bool} {r : Refusal} {s t : State} {as : List Action}
    (hf : fits = true → Agenda s.cfg as) (h : listIf fits r as s = .next t) : Lists s t := by
  obtain ⟨h1, rfl⟩ := listIf_eq_next h
  exact lists_enqueue (hf h1)

/-- The writes of a reply body into `TxBuf`, with a few before and after them. -/
theorem reply_writes {c : Config} {body : List Byte} (hl : body.length ≤ replyRoom c) {xs ys : List Write}
    (hx : xs.all (Write.ofDispatch c) = true) (hy : ys.all (Write.ofDispatch c) = true)
    (hn : xs.length + ys.length ≤ 10) :
    ∃ ws, xs.map .write ++ txAppendAll 0 body ++ ys.map .write = ws.map Action.write ∧ DispatchWrites c ws := by
  have hcap : body.length ≤ c.txBufCap := hl.trans (Nat.min_le_left _ _)
  have hmax : body.length ≤ 253 := hl.trans (Nat.min_le_right _ _)
  have key : ∀ (bytes : List Byte) (n : Nat), n + bytes.length ≤ c.txBufCap →
      ∃ ws : List Write, txAppendAll n bytes = ws.map .write ∧ ws.all (Write.ofDispatch c) = true ∧
        ws.length = 2 * bytes.length := by
    intro bytes
    induction bytes with
    | nil => exact fun n _ => ⟨[], rfl, rfl, rfl⟩
    | cons v rest ih =>
      intro n hn
      simp only [List.length_cons] at hn
      obtain ⟨ws, h1, h2, h3⟩ := ih (n + 1) (by omega)
      refine ⟨.txBuf n v :: .tlen (BitVec.ofNat 8 (n + 1)) :: ws, by simp [txAppendAll, txAppend, h1], ?_,
        by simp [h3]; omega⟩
      simp only [List.all_cons, h2, Write.ofDispatch, Bool.and_true, decide_eq_true_eq]; omega
  obtain ⟨ws, h1, h2, h3⟩ := key body 0 (by omega)
  exact ⟨xs ++ ws ++ ys, by simp [h1], by simp only [List.all_append, hx, h2, hy]; rfl, by simp [h3]; omega⟩

theorem lists_reply {xs ys : List Write} {body : List Byte} {s t : State}
    (hx : xs.all (Write.ofDispatch s.cfg) = true) (hy : ys.all (Write.ofDispatch s.cfg) = true)
    (hn : xs.length + ys.length ≤ 10) (h : reply (xs.map .write) body (ys.map .write) [] s = .next t) : Lists s t := by
  refine lists_listIf (fun hl => ?_) h
  have hl : body.length ≤ replyRoom s.cfg := by simpa using hl
  obtain ⟨ws, hw, hd⟩ := reply_writes hl hx hy hn
  rw [hw, List.append_nil]
  exact .reply ws _ _ hd (hl.trans (Nat.min_le_right _ _))

theorem lists_replyOk {s t : State} {body : List Byte} (h : replyOk body s = .next t) : Lists s t :=
  lists_reply (xs := [.tlen 0]) (ys := []) rfl rfl (by simp) h

theorem lists_statusFrame {status : Byte} {s t : State} (h : statusFrame status s = .next t) : Lists s t :=
  lists_listIf (fun hf => .frame status hf) h

/-- An unknown command in a dispatch that has begun (R190). -/
theorem lists_unknown {s t : State} (h : takeError .unknownCommand (enqueue [freshReply] s) = .next t) :
    Lists s t := by
  simp only [takeError, enqueue_enqueue, enqueue_bcast, enqueue_cfg] at h
  split at h <;> cases h
  · exact lists_enqueue (.ends [.tlen 0] ⟨rfl, by simp⟩)
  · exact lists_enqueue (.reply [.tlen 0] s.cfg.statusUnknownCmd [] ⟨rfl, by simp⟩ (by simp))

/-- What the engine does with an answer (R188): it lists plain actions, and the tick's return last. -/
theorem useAnswer_lists {a : Answer} {s t : State} (h : useAnswer a s = .next t) :
    ∃ as, t = enqueue (as ++ [.ret]) s ∧ Agenda s.cfg (as ++ [.ret]) ∧ as.all Action.isPlain = true := by
  rw [useAnswer] at h
  split at h
  · split at h
    · cases h; exact ⟨[], rfl, .ends [] ⟨rfl, by simp⟩, rfl⟩
    · next bytes _ =>
      obtain ⟨hf, rfl⟩ := listIf_eq_next h
      have hl : bytes.length ≤ replyRoom s.cfg := by simpa using hf
      obtain ⟨ws, hw, hd⟩ := reply_writes (xs := []) (ys := []) hl rfl rfl (by simp)
      simp only [List.map_nil, List.nil_append, List.append_nil] at hw
      refine ⟨_, rfl, hw ▸ .reply ws _ _ hd (hl.trans (Nat.min_le_right _ _)), ?_⟩
      simp [sendReply]
  · simp only [takeError] at h
    split at h <;> cases h
    · exact ⟨[], rfl, .ends [] ⟨rfl, by simp⟩, rfl⟩
    · exact ⟨_, rfl, .reply [] s.cfg.statusUnknownCmd [] ⟨rfl, by simp⟩ (by simp), sendFrame_plain _ _⟩

/-- The return of an instrument call (R193). -/
theorem callReturn_lists {c : Call} {s t : State} (h : callReturn c s = .next t) :
    ∃ as, t = enqueue (as ++ [.ret]) { s with draws := t.draws, answers := t.answers } ∧
      Agenda s.cfg (as ++ [.ret]) ∧ as.all Action.isPlain = true := by
  have note : ∀ {t : State}, enqueue [.ret] s = t → ∃ as, t = enqueue (as ++ [.ret])
      { s with draws := t.draws, answers := t.answers } ∧ Agenda s.cfg (as ++ [.ret]) ∧
        as.all Action.isPlain = true := by
    rintro t rfl; exact ⟨[], rfl, .ends [] ⟨rfl, by simp⟩, rfl⟩
  have answer : useAnswer (takeAnswer s).1 (takeAnswer s).2 = .next t → ∃ as, t = enqueue (as ++ [.ret])
      { s with draws := t.draws, answers := t.answers } ∧ Agenda s.cfg (as ++ [.ret]) ∧
        as.all Action.isPlain = true := by
    intro h
    obtain ⟨as, rfl, hag, hp⟩ := useAnswer_lists h
    have e : (takeAnswer s).2 =
        { s with draws := (takeAnswer s).2.draws, answers := (takeAnswer s).2.answers } := by
      unfold takeAnswer; split
      · rfl
      · next hs => simp [hs]
    have hc : (takeAnswer s).2.cfg = s.cfg := by rw [e]
    exact ⟨as, by rw [enqueue_draws, enqueue_answers, ← e], hc ▸ hag, hp⟩
  cases c
  case light => exact answer h
  case control => exact answer h
  all_goals exact note (Host.Outcome.next.inj h)

theorem lists_forwardEvent {mk : Nat → Byte → Byte → Byte → Call} {body : List Byte} {s t : State}
    (h : forwardEvent mk body s = .next t) : Lists s t := by
  rw [forwardEvent_eq] at h
  cases h
  exact ⟨_, rfl, .call _⟩

theorem drawBytes_length (stream d n : Nat) : (drawBytes stream d n).length = n := by simp [drawBytes]

/-- Every command that comes to a next state lists its actions, and does nothing else (R191, R192). -/
theorem exec_lists {i : Instr} (hw : i.isWire = false) {s t : State} (h : exec i s = .next t) : Lists s t := by
  cases i with
  | sync => cases hw
  | mark => cases hw
  | reset body =>
    change execReset body s = _ at h
    simp only [execReset] at h
    split at h <;> cases h
    · exact ⟨_, rfl, .reset⟩
    · exact ⟨_, rfl, .ends [.tlen 0] ⟨rfl, by simp⟩⟩
  | assignAddr body =>
    change execAssignAddr body s = _ at h
    rw [execAssignAddr] at h
    split at h
    · refine (lists_listIf (fun hl => ?_) h).after rfl
      obtain ⟨ws, hws, hd⟩ :=
        reply_writes (c := s.cfg) (body := [s.cfg.reportOk]) (xs := [.tlen 0, .id _]) (ys := []) (by simpa using hl)
          rfl rfl (by simp)
      have hb : [s.cfg.reportOk].length ≤ 253 := by simp
      exact hws ▸ .assign ws s.cfg.statusOk _ hd hb
    · cases h; exact lists_enqueue (.ends [.tlen 0] ⟨rfl, by simp⟩)
  | readId body =>
    refine lists_listIf (fun hl => ?_) h
    have hl : 1 + s.cfg.idString.length ≤ 253 := by simpa using hl
    exact .reply [.tlen 0] s.cfg.statusOk (s.cfg.reportOk :: s.cfg.idString) ⟨rfl, by simp⟩ (by simp; omega)
  | getCmdVersion body => exact lists_replyOk h
  | getJvsVersion body => exact lists_replyOk h
  | getCommVersion body => exact lists_replyOk h
  | getFeatures body => exact lists_replyOk h
  | reqRetransmit body => exact lists_unknown h
  | ping body => exact lists_replyOk h
  | getSense body => exact lists_replyOk h
  | incr body => cases h; exact lists_enqueue (.ends [.tlen 0, .cntr _] ⟨rfl, by simp⟩)
  | cntr body => exact lists_reply (xs := [.tlen 0]) (ys := [.cntr 0]) rfl rfl (by simp) h
  | noteDown body => exact lists_forwardEvent h
  | noteUp body => exact lists_forwardEvent h
  | light body => exact lists_forwardEvent h
  | control body => exact lists_forwardEvent h
  | unknown code body => exact lists_unknown h

/-- The dispatcher never runs a raw wire byte (R77). -/
theorem decodeCommand_isWire (c : Config) (code : Byte) (body : List Byte) :
    (decodeCommand c code body).isWire = false := by
  unfold decodeCommand
  split
  · next row hr =>
    have hm := List.mem_of_find?_eq_some hr
    simp only [commandTable, List.mem_cons, List.not_mem_nil, or_false] at hm
    rcases hm with rfl | rfl | rfl | rfl | rfl | rfl | rfl | rfl | rfl | rfl | rfl | rfl | rfl | rfl | rfl | rfl <;> rfl
  · rfl

end Sys2Proof.Machine
end

