-- ==== Sys2Proof/Laws/PerInstr.lean ====
section
/-! SUPPORT. Facts about every instruction, one lemma a constructor: the code of a well-formed command selects that
command (R77). -/

namespace Sys2Proof.Laws.CodeSelects

open Sys2Proof

/-- Under a configuration whose codes are distinct, the dispatcher reads a well-formed command back from its code and
body. -/
def Statement (i : Instr) : Prop :=
  ∀ c : Config, c.codes.Nodup → i.wellFormed c = true → i.isWire = false → decodeCommand c (i.code c) i.body = i

theorem reset (body : List Byte) : Statement (.reset body) := fun _ hd _ _ =>
  decodeCommand_at hd 0 (by decide) body

theorem assignAddr (body : List Byte) : Statement (.assignAddr body) := fun _ hd _ _ =>
  decodeCommand_at hd 1 (by decide) body

theorem readId (body : List Byte) : Statement (.readId body) := fun _ hd _ _ =>
  decodeCommand_at hd 2 (by decide) body

theorem getCmdVersion (body : List Byte) : Statement (.getCmdVersion body) := fun _ hd _ _ =>
  decodeCommand_at hd 3 (by decide) body

theorem getJvsVersion (body : List Byte) : Statement (.getJvsVersion body) := fun _ hd _ _ =>
  decodeCommand_at hd 4 (by decide) body

theorem getCommVersion (body : List Byte) : Statement (.getCommVersion body) := fun _ hd _ _ =>
  decodeCommand_at hd 5 (by decide) body

theorem getFeatures (body : List Byte) : Statement (.getFeatures body) := fun _ hd _ _ =>
  decodeCommand_at hd 6 (by decide) body

theorem reqRetransmit (body : List Byte) : Statement (.reqRetransmit body) := fun _ hd _ _ =>
  decodeCommand_at hd 7 (by decide) body

theorem ping (body : List Byte) : Statement (.ping body) := fun _ hd _ _ =>
  decodeCommand_at hd 8 (by decide) body

theorem getSense (body : List Byte) : Statement (.getSense body) := fun _ hd _ _ =>
  decodeCommand_at hd 9 (by decide) body

theorem incr (body : List Byte) : Statement (.incr body) := fun _ hd _ _ =>
  decodeCommand_at hd 10 (by decide) body

theorem cntr (body : List Byte) : Statement (.cntr body) := fun _ hd _ _ =>
  decodeCommand_at hd 11 (by decide) body

theorem noteDown (body : List Byte) : Statement (.noteDown body) := fun _ hd _ _ =>
  decodeCommand_at hd 12 (by decide) body

theorem noteUp (body : List Byte) : Statement (.noteUp body) := fun _ hd _ _ =>
  decodeCommand_at hd 13 (by decide) body

theorem light (body : List Byte) : Statement (.light body) := fun _ hd _ _ =>
  decodeCommand_at hd 14 (by decide) body

theorem control (body : List Byte) : Statement (.control body) := fun _ hd _ _ =>
  decodeCommand_at hd 15 (by decide) body

theorem unknown (code : Byte) (body : List Byte) : Statement (.unknown code body) := fun _ _ hw _ =>
  decodeCommand_unmapped (of_decide_eq_true (Bool.and_eq_true_iff.mp hw).2) body

theorem sync : Statement .sync := fun _ _ _ h => nomatch h

theorem mark : Statement .mark := fun _ _ _ h => nomatch h

end Sys2Proof.Laws.CodeSelects
end

