-- ==== Sys2Proof/Laws/Receiver.lean ====
section
/-! SUPPORT. What one step of the receiver does, said once: how it takes a byte, what each receive state makes of a
payload byte, what a step can come to, and what the steps of a list of actions do (R5, R112, R130 to R140). -/

namespace Sys2Proof.Machine

/-! ## Popping a byte -/

/-- The outcome of a fetch: what `step` makes of it. -/
def Fetched.outcome : Fetched → Host.Outcome State Fault Refusal
  | .done o => o
  | .run i t => exec i t

@[simp] theorem Fetched.outcome_done (o : Host.Outcome State Fault Refusal) : (Fetched.done o).outcome = o := rfl

@[simp] theorem Fetched.outcome_run (i : Instr) (s : State) : (Fetched.run i s).outcome = exec i s := rfl

theorem step_eq_outcome (s : State) : step s = (fetch s).outcome := by
  unfold step Fetched.outcome; cases fetch s <;> rfl

/-- The engine is inside a frame, in a state that takes payload bytes (R133 to R138). -/
def InFrame (s : State) : Prop := s.rstate ≠ .waiting ∧ s.rstate ≠ .overflow

theorem Decoding.inFrame {s : State} (h : Decoding s) : InFrame s := by
  rcases h with h | h | h | ⟨h, -⟩ | h <;> simp [InFrame, h]

/-- A node with nothing outstanding is at the rule of its receive state (R130). -/
theorem step_of_ready {s : State} (h : Ready s) : step s = fetchFrame s := by
  obtain ⟨⟨ha, hc, ht⟩, hp⟩ := h
  simp [step, fetch, underAdmitted, ha, hc, ht, hp]

/-- The step after a pop lists what the byte popped asks for (R5). -/
theorem step_of_popped {s : State} (h : Idle s) {b : Byte} (hp : s.popped = some b) :
    step s = (receiveWire b { s with popped := none }).outcome := by
  obtain ⟨ha, hc, ht⟩ := h
  rw [step_eq_outcome]
  simp [fetch, underAdmitted, ha, hc, ht, hp]

theorem fetchFrame_pops {s : State} (h : s.rstate = .waiting ∨ Decoding s) : fetchFrame s = popByte s := by
  rcases h with h | h | h | h | ⟨h, hp⟩ | h
  case inr.inr.inr.inr.inl => simp [fetchFrame, h, hp]
  all_goals simp [fetchFrame, h]

theorem popByte_nil {s : State} (h : s.rx = []) : popByte s = .next s := by simp [popByte, h]

theorem popByte_cons {s : State} {b : Byte} {rest : List Byte} (h : s.rx = b :: rest) :
    popByte s = .next (justPopped b rest s) := by simp [popByte, h, justPopped]

/-- A node in a state that pops, with a byte on its port, pops it (R131 to R138). -/
theorem step_pops {s : State} (hy : Ready s) (hr : s.rstate = .waiting ∨ Decoding s) {b : Byte} {rest : List Byte}
    (hx : s.rx = b :: rest) : step s = .next (justPopped b rest s) := by
  rw [step_of_ready hy, fetchFrame_pops hr, popByte_cons hx]

/-- The step after the pop of `b` lists what it asks for. -/
theorem step_justPopped {s : State} (hy : Ready s) (b : Byte) (rest : List Byte) :
    step (justPopped b rest s) = (receiveWire b { s with rx := rest }).outcome := by
  have hs : ({ justPopped b rest s with popped := none } : State) = { s with rx := rest } := by
    simp [justPopped, ← hy.2]
  rw [step_of_popped (s := justPopped b rest s) hy.1 rfl, hs]

/-! ## A popped byte -/

/-- A raw `SYNC` is that instruction in every state (R131, R139). -/
theorem receiveWire_sync (s : State) : receiveWire syncByte s = .run .sync s := by simp [receiveWire]

/-- A raw `MARK` is that instruction when it is not itself escaped (R112, R131). -/
theorem receiveWire_mark {s : State} (he : s.escape = false ∨ ¬InFrame s) :
    receiveWire markByte s = .run .mark s := by
  have hne : markByte ≠ syncByte := by decide
  simp only [receiveWire, if_neg hne]
  cases hr : s.rstate <;> simp_all [InFrame]

/-- Any other byte outside a frame is discarded (R131). -/
theorem receiveWire_discard {s : State} {b : Byte} (hs : b ≠ syncByte) (hm : b ≠ markByte) (hr : ¬InFrame s) :
    receiveWire b s = .done (.next s) := by
  simp only [receiveWire, if_neg hs]
  cases h : s.rstate <;> simp_all [InFrame]

/-- A payload byte inside a frame (R112): the receive state takes it. -/
theorem receiveWire_payload {s : State} {b v : Byte} (h : Payload s b v) (hr : InFrame s) :
    receiveWire b s = receive v { s with escape := false } := by
  obtain ⟨hs, hv⟩ := h
  obtain ⟨hw, ho⟩ := hr
  simp only [receiveWire, if_neg hs]
  cases he : s.escape with
  | true =>
    simp only [he, if_true] at hv
    cases hr : s.rstate <;> simp_all
  | false =>
    simp only [he, Bool.false_eq_true, if_false] at hv
    obtain ⟨hm, rfl⟩ := hv
    have : ({ s with escape := false } : State) = s := by rw [← he]
    cases hr : s.rstate <;> simp_all

/-- A byte inside a frame that is neither `SYNC` nor an unescaped `MARK` is payload (R112). -/
theorem payload_of_ne {s : State} {b : Byte} (hs : b ≠ syncByte) (hm : s.escape = true ∨ b ≠ markByte) :
    Payload s b (if s.escape then b + 1 else b) := by
  refine ⟨hs, ?_⟩
  cases he : s.escape <;> simp_all

theorem execSync_eq {s : State} (h : s.rstate ≠ .overflow) : execSync s = .next (startFrame s) := by
  unfold execSync; split
  all_goals first | rfl | contradiction

theorem execMark_inFrame {s : State} (h : InFrame s) : execMark s = .next { s with escape := true } := by
  obtain ⟨hw, ho⟩ := h
  unfold execMark; split
  all_goals first | rfl | contradiction

theorem execMark_outside {s : State} (h : ¬InFrame s) : execMark s = .next s := by
  unfold execMark; cases hr : s.rstate <;> simp_all [InFrame]

/-! ## What a payload byte lists -/

/-- The buffer writes among some writes are inside their buffers. -/
def WritesInBuffers (c : Config) (ws : List Write) : Prop := (ws.map Action.write).all (Action.inBuffers c) = true

/-- What a payload byte comes to (R133 to R138): at most five register writes, after which the receiver goes on; or the
update of `SUM`, and then the list of an error, of a drop, or of the command. -/
theorem receive_lists {v : Byte} {s t : State} (ha : admitted s.cfg = true) (h : (receive v s).outcome = .next t) :
    (∃ ws : List Write, t = enqueue (ws.map .write) s ∧ ws.length ≤ 5 ∧ WritesInBuffers s.cfg ws) ∨
      ∃ ws as, t = enqueue (ws.map .write ++ as) { s with draws := t.draws, answers := t.answers } ∧
        ws.length ≤ 5 ∧ WritesInBuffers s.cfg ws ∧ Agenda s.cfg as := by
  have A := (admitted_iff _).mp ha
  have A' : Agenda s.cfg [.ret] := .ends [] ⟨rfl, by simp⟩
  have ret : ∀ (ws : List Write) {u : State}, u = enqueue (ws.map .write ++ [.ret]) s → ws.length ≤ 5 →
      WritesInBuffers s.cfg ws →
      ∃ us as, u = enqueue (us.map .write ++ as) { s with draws := u.draws, answers := u.answers } ∧
        us.length ≤ 5 ∧ WritesInBuffers s.cfg us ∧ Agenda s.cfg as := by
    rintro ws u rfl hl hb
    exact ⟨ws, [.ret], rfl, hl, hb, A'⟩
  unfold receive at h
  obtain ⟨r, hr⟩ : ∃ r, s.rstate = r := ⟨_, rfl⟩
  rw [hr] at h; clear hr
  cases r <;> simp only at h
  · cases h; exact .inl ⟨[], by simp, by simp, rfl⟩
  · split at h
    · cases h; right
      refine ret [.sum (s.sum + v), .dest v] ?_ (by simp) rfl; simp [accumulate]
    · split at h <;> cases h
      · left
        exact ⟨[.sum (s.sum + v), .dest v, .bcast (broadcastFlag v), .rstate .readCount],
          by simp [accumulate], by simp, rfl⟩
      · right
        refine ret [.sum (s.sum + v), .dest v, .bcast (broadcastFlag v)] ?_ (by simp) rfl; simp [accumulate]
  · split at h
    · simp only [Fetched.outcome_done, takeError, accumulate, enqueue_enqueue, enqueue_bcast] at h
      split at h <;> cases h
      · right
        refine ret [.sum (s.sum + v), .count v] ?_ (by simp) rfl; simp
      · exact .inl ⟨[.sum (s.sum + v), .count v, .rstate .overflow], by simp, by simp, rfl⟩
    · cases h
      exact .inl ⟨[.sum (s.sum + v), .count v, .rstate .readCommand], by simp [accumulate], by simp, rfl⟩
  · cases h
    exact .inl ⟨[.sum (s.sum + v), .cmd v, .ptr 0, .rstate .readBody], by simp [accumulate], by simp, rfl⟩
  · cases h; exact .inl ⟨[], by simp, by simp, rfl⟩
  · change storeBody v (accumulate v s) = .next t at h
    unfold storeBody at h
    split at h <;> cases h
    rename_i hc
    have hc : s.ptr.toNat < s.cfg.rxBufCap := hc
    exact .inl ⟨[.sum (s.sum + v), .rxBuf s.ptr.toNat v, .ptr (s.ptr + 1)], by simp [accumulate], by simp,
      by simp [WritesInBuffers, Action.inBuffers, hc]⟩
  · right
    have one : ∀ {as : List Action} {u : State},
        u = enqueue as { accumulate v s with draws := u.draws, answers := u.answers } →
        Agenda s.cfg as → ∃ ws as, u = enqueue (ws.map .write ++ as) { s with draws := u.draws, answers := u.answers } ∧
          ws.length ≤ 5 ∧ WritesInBuffers s.cfg ws ∧ Agenda s.cfg as := by
      intro as u hu hag
      refine ⟨[.sum (s.sum + v)], as, hu.trans ?_, by simp, rfl, hag⟩
      simp [accumulate, enqueue]
    split at h
    · obtain ⟨as, ht, hag⟩ := exec_lists (decodeCommand_isWire _ _ _) h
      exact one ht hag
    · obtain ⟨as, ht, hag⟩ := lists_statusFrame h
      exact one ht hag

/-! ## What a step can come to -/

/-- Everything a step of an admitted node can come to, whatever the outcome (R5, R112, R130 to R140, R193). -/
inductive StepCase (s : State) : Host.Outcome State Fault Refusal → Prop where
  /-- no byte, or an instrument call that has not returned -/
  | holds (hb : blocked s = true) : StepCase s (.next s)
  /-- the instrument returns -/
  | returns (c : Call) (hc : s.inCall = some c) (hr : s.instrReady = true) :
      StepCase s (callReturn c { s with inCall := none })
  /-- a listed action -/
  | acts (a : Action) (rest : List Action) (hc : s.inCall = none) (ht : s.todo = a :: rest) :
      StepCase s (.next (perform a { s with todo := rest }))
  /-- `OVERFLOW` -/
  | overflows (hy : Ready s) (hr : s.rstate = .overflow) : StepCase s (reportOverflow s)
  /-- the body is complete -/
  | completes (hy : Ready s) (hr : s.rstate = .readBody) (hl : bodyLen s.count ≤ s.ptr.toNat) :
      StepCase s (.next { s with rstate := .verifySum })
  /-- a byte is popped -/
  | pops (b : Byte) (rest : List Byte) (hy : Ready s) (hr : s.rstate = .waiting ∨ Decoding s) (hx : s.rx = b :: rest) :
      StepCase s (.next (justPopped b rest s))
  /-- `SYNC` in `WAITING` or inside a frame -/
  | starts (hy : Idle s) (hp : s.popped = some syncByte) (hr : s.rstate ≠ .overflow) :
      StepCase s (.next (startFrame { s with popped := none }))
  /-- any other byte outside a frame -/
  | discards (b : Byte) (hy : Idle s) (hp : s.popped = some b) (hr : ¬InFrame s) :
      StepCase s (.next { s with popped := none })
  /-- `MARK` inside a frame -/
  | marks (hy : Idle s) (hp : s.popped = some markByte) (hr : InFrame s) (he : s.escape = false) :
      StepCase s (.next { s with popped := none, escape := true })
  /-- a payload byte inside a frame -/
  | receives (b v : Byte) (hy : Idle s) (hp : s.popped = some b) (hr : InFrame s) (hv : Payload s b v) :
      StepCase s (receive v { s with popped := none, escape := false }).outcome

theorem decoding_or {s : State} : s.rstate = .overflow ∨ (s.rstate = .waiting ∨ Decoding s) ∨
    (s.rstate = .readBody ∧ bodyLen s.count ≤ s.ptr.toNat) := by
  unfold Decoding
  cases h : s.rstate <;> simp
  omega

theorem blocked_of_empty {s : State} (hy : Ready s) (h : s.rstate = .waiting ∨ Decoding s) (hx : s.rx = []) :
    blocked s = true := by
  obtain ⟨⟨-, hc, ht⟩, hp⟩ := hy
  rcases h with h | h | h | h | ⟨h, hl⟩ | h
  case inr.inr.inr.inr.inl => simp [blocked, hc, ht, hp, h, hl, hx]
  all_goals simp [blocked, hc, ht, hp, h, hx]

/-- What a popped byte comes to. -/
theorem popped_cases {s : State} (hy : Idle s) {b : Byte} (hp : s.popped = some b) : StepCase s (step s) := by
  rw [step_of_popped hy hp]
  by_cases hs : b = syncByte
  · subst hs
    rw [receiveWire_sync, Fetched.outcome_run, exec]
    by_cases ho : s.rstate = .overflow
    · have : execSync { s with popped := none } = .next { s with popped := none } := by simp [execSync, ho]
      rw [this]; exact .discards _ hy hp (fun h => h.2 ho)
    · rw [execSync_eq (s := { s with popped := none }) ho]; exact .starts hy hp ho
  by_cases hr : InFrame s
  · by_cases hm : s.escape = true ∨ b ≠ markByte
    · have hv := payload_of_ne (s := s) hs hm
      rw [receiveWire_payload (s := { s with popped := none }) hv hr]
      exact .receives b _ hy hp hr hv
    · obtain ⟨he, hb⟩ := not_or.mp hm
      obtain rfl := not_not.mp hb
      have he : s.escape = false := by simpa using he
      rw [receiveWire_mark (s := { s with popped := none }) (.inl he), Fetched.outcome_run, exec,
        execMark_inFrame (s := { s with popped := none }) hr]
      exact .marks hy hp hr he
  · by_cases hm : b = markByte
    · subst hm
      rw [receiveWire_mark (s := { s with popped := none }) (.inr hr), Fetched.outcome_run, exec,
        execMark_outside (s := { s with popped := none }) hr]
      exact .discards _ hy hp hr
    · rw [receiveWire_discard (s := { s with popped := none }) hs hm hr]
      exact .discards b hy hp hr

/-- A step of an admitted node is one of the cases. -/
theorem step_cases {s : State} (ha : admitted s.cfg = true) : StepCase s (step s) := by
  cases hc : s.inCall with
  | some c =>
    rw [step_eq_outcome, show fetch s = .done (awaitReturn c s) by simp [fetch, underAdmitted, hc, ha],
      Fetched.outcome_done, awaitReturn]
    by_cases hr : s.instrReady = true
    · rw [if_pos hr]; exact .returns c hc hr
    · rw [if_neg hr]; exact .holds (by simp [blocked, hc, hr])
  | none =>
    cases ht : s.todo with
    | cons a rest =>
      rw [step_eq_outcome, show fetch s = .done (.next (perform a { s with todo := rest })) by
        simp [fetch, underAdmitted, hc, ha, ht]]
      exact .acts a rest hc ht
    | nil =>
      cases hp : s.popped with
      | some b => exact popped_cases ⟨ha, hc, ht⟩ hp
      | none =>
        have hy : Ready s := ⟨⟨ha, hc, ht⟩, hp⟩
        rw [step_of_ready hy]
        rcases decoding_or (s := s) with ho | hd | ⟨hb, hl⟩
        · rw [show fetchFrame s = reportOverflow s by simp [fetchFrame, ho]]
          exact .overflows hy ho
        · rw [fetchFrame_pops hd]
          cases hx : s.rx with
          | nil => rw [popByte_nil hx]; exact .holds (blocked_of_empty hy hd hx)
          | cons b rest => rw [popByte_cons hx]; exact .pops b rest hy hd hx
        · rw [show fetchFrame s = .next { s with rstate := .verifySum } by simp [fetchFrame, hb, Nat.not_lt.mpr hl]]
          exact .completes hy hb hl

/-- A step of a node whose configuration is not admitted is refused (R9). -/
theorem step_unadmitted {s : State} (ha : admitted s.cfg = false) : step s = .refused .configuration := by
  simp [step, fetch, underAdmitted, ha]

/-- What the next state of a step is (R5): a pop, one action, the end of `READ_BODY`, or a listing: of the register
writes a byte asks for, of what a dispatch, an error or `OVERFLOW` does, or of what an instrument's answer asks for.
-/
inductive StepKind (s : State) : State → Prop where
  | holds (hb : blocked s = true) : StepKind s s
  | acts (a : Action) (rest : List Action) (hc : s.inCall = none) (ht : s.todo = a :: rest) :
      StepKind s (perform a { s with todo := rest })
  | pops (b : Byte) (rest : List Byte) (hy : Ready s) (hr : s.rstate = .waiting ∨ Decoding s) (hx : s.rx = b :: rest) :
      StepKind s (justPopped b rest s)
  | completes (hy : Ready s) (hr : s.rstate = .readBody) (hl : bodyLen s.count ≤ s.ptr.toNat) :
      StepKind s { s with rstate := .verifySum }
  | writes (b : Byte) (hy : Idle s) (hp : s.popped = some b) (ws : List Write) (e : Bool) (hl : ws.length ≤ 5)
      (hw : WritesInBuffers s.cfg ws) :
      StepKind s (enqueue (ws.map .write) { s with popped := none, escape := e })
  | lists (hy : Idle s) (hr : s.popped ≠ none ∨ s.rstate = .overflow) (ws : List Write) (as : List Action) (e : Bool)
      (draws : Nat) (answers : List Answer) (hl : ws.length ≤ 5) (hw : WritesInBuffers s.cfg ws)
      (ha : Agenda s.cfg as) :
      StepKind s (enqueue (ws.map .write ++ as)
        { s with popped := none, escape := e, draws := draws, answers := answers })
  | returns (c : Call) (hc : s.inCall = some c) (as : List Action) (draws : Nat) (answers : List Answer)
      (ha : Agenda s.cfg (as ++ [.ret])) (hp : as.all Action.isPlain = true) :
      StepKind s (enqueue (as ++ [.ret]) { s with inCall := none, draws := draws, answers := answers })

/-- Every step that comes to a next state is of one of these kinds. -/
theorem step_kinds {s t : State} (h : step s = .next t) : StepKind s t := by
  have ha : admitted s.cfg = true := by
    cases ha : admitted s.cfg with
    | true => rfl
    | false => rw [step_unadmitted ha] at h; cases h
  have hc := step_cases ha
  rw [h] at hc
  generalize ho : Host.Outcome.next t = o at hc
  cases hc with
  | holds hb => cases ho; exact .holds hb
  | returns c hc hr =>
    obtain ⟨as, ht, hag, hp⟩ := callReturn_lists ho.symm
    rw [ht]; exact .returns c hc as _ _ hag hp
  | acts a rest hc ht => cases ho; exact .acts a rest hc ht
  | overflows hy hr =>
    obtain ⟨as, ht, hag⟩ := lists_statusFrame ho.symm
    have e : ({ s with draws := t.draws, answers := t.answers } : State) =
        { s with popped := none, draws := t.draws, answers := t.answers } := by rw [← hy.2]
    rw [ht, e]
    exact .lists hy.1 (.inr hr) [] as s.escape _ _ (by simp) rfl hag
  | completes hy hr hl => cases ho; exact .completes hy hr hl
  | pops b rest hy hr hx => cases ho; exact .pops b rest hy hr hx
  | starts hy hp hr => cases ho; exact .writes _ hy hp [.rstate .gotSync, .sum 0] false (by simp) rfl
  | discards b hy hp hr =>
    cases ho; simpa using StepKind.writes b hy hp [] s.escape (by simp) rfl
  | marks hy hp hr he => cases ho; simpa using StepKind.writes _ hy hp [] true (by simp) rfl
  | receives b v hy hp hr hv =>
    rcases receive_lists (s := { s with popped := none, escape := false }) ha ho.symm with
      ⟨ws, ht, hl, hw⟩ | ⟨ws, as, ht, hl, hw, hag⟩
    · rw [ht]; exact .writes b hy hp ws false hl hw
    · rw [ht]; exact .lists hy (.inl (by simp [hp])) ws as false _ _ hl hw hag

/-! ## Steps -/

/-- The step that does a listed action (R5). -/
theorem step_perform {s : State} {a : Action} {rest : List Action} (ha : admitted s.cfg = true)
    (hc : s.inCall = none) (ht : s.todo = a :: rest) : step s = .next (perform a { s with todo := rest }) := by
  simp [step, fetch, underAdmitted, ha, hc, ht]

/-- The return of an instrument call (R193). -/
theorem step_return {s : State} {c : Call} (ha : admitted s.cfg = true) (hc : s.inCall = some c)
    (hr : s.instrReady = true) : step s = callReturn c { s with inCall := none } := by
  simp [step, fetch, underAdmitted, ha, hc, awaitReturn, hr]

theorem steps_succ_eq (n : Nat) (s : State) : steps (n + 1) s = andThen (step s) (steps n) := by
  show (match step s with | .next t => steps n t | .fault r => .fault r | .refused r => .refused r) = _
  cases step s <;> rfl

theorem steps_succ {s t : State} (n : Nat) (h : step s = .next t) : steps (n + 1) s = steps n t := by
  rw [steps_succ_eq, h, andThen_next]

theorem steps_one (s : State) : steps 1 s = step s := by
  rw [steps_succ_eq]; cases step s <;> rfl

theorem steps_add {s t : State} (m n : Nat) (h : steps m s = .next t) : steps (m + n) s = steps n t := by
  induction m generalizing s with
  | zero => cases h; rw [Nat.zero_add]
  | succ m ih =>
    rw [steps_succ_eq] at h
    obtain ⟨u, hs, hu⟩ := andThen_eq_next h
    rw [Nat.add_right_comm, steps_succ _ hs]
    exact ih hu

/-! ## Listed actions -/

theorem step_plain {a : Action} {rest : List Action} {s : State} (ha : admitted s.cfg = true) (hc : s.inCall = none)
    (hp : a.isPlain = true) (ht : s.todo = a :: rest) : step s = .next { perform a s with todo := rest } := by
  rw [step_perform ha hc ht, perform_todo hp]

/-- Plain actions are done one a step, in order (R5, R59). -/
theorem steps_plain (as rest : List Action) (s : State) (ha : admitted s.cfg = true) (hc : s.inCall = none)
    (hp : as.all Action.isPlain = true) (ht : s.todo = as ++ rest) :
    steps as.length s = .next { performAll as s with todo := rest } := by
  induction as generalizing s with
  | nil =>
    have ht : s.todo = rest := ht
    subst ht; rfl
  | cons a as ih =>
    simp only [List.all_cons, Bool.and_eq_true] at hp
    rw [List.length_cons, steps_succ as.length (step_plain ha hc hp.1 ht), ih _ ?_ ?_ hp.2 rfl]
    · rw [performAll_todo hp.2]; rfl
    · rw [perform_keeps hp.1]; exact ha
    · rw [perform_keeps hp.1]; exact hc

theorem actionSteps_succ {s t : State} (n : Nat) (hn : s.todo ≠ []) (h : step s = .next t) :
    actionSteps (n + 1) s = actionSteps n t := by
  rw [actionSteps]
  split
  · contradiction
  · rw [h, andThen_next]

theorem actionSteps_nil {s : State} (n : Nat) (h : s.todo = []) : actionSteps n s = .next s := by
  cases n with
  | zero => rfl
  | succ n => rw [actionSteps, h]

/-- The same, while actions are left. -/
theorem actionSteps_plain (as rest : List Action) (n : Nat) (s : State) (ha : admitted s.cfg = true)
    (hc : s.inCall = none) (hp : as.all Action.isPlain = true) (ht : s.todo = as ++ rest) :
    actionSteps (as.length + n) s = actionSteps n { performAll as s with todo := rest } := by
  induction as generalizing s with
  | nil =>
    have ht : s.todo = rest := ht
    subst ht; simp
  | cons a as ih =>
    simp only [List.all_cons, Bool.and_eq_true] at hp
    rw [List.length_cons, Nat.add_right_comm, actionSteps_succ _ (by simp [ht]) (step_plain ha hc hp.1 ht),
      ih _ ?_ ?_ hp.2 rfl]
    · rw [performAll_todo hp.2]; rfl
    · rw [perform_keeps hp.1]; exact ha
    · rw [perform_keeps hp.1]; exact hc

theorem finish_nil {s : State} (h : s.todo = []) : finishActions s = .next s := by
  rw [finishActions, h]; rfl

/-- Everything to do, where it is plain: the actions done one after another. -/
theorem finish_plain {s : State} (ha : admitted s.cfg = true) (hc : s.inCall = none)
    (hp : s.todo.all Action.isPlain = true) : finishActions s = .next (settled s) := by
  have h := actionSteps_plain s.todo [] 0 s ha hc hp (by simp)
  rw [Nat.add_zero] at h
  rw [finishActions, h, settled, performAll_todo hp s []]; rfl

theorem settled_nil {s : State} (h : s.todo = []) : settled s = s := by
  rw [settled, h, performAll_nil, ← h]

theorem Idle.dispatching {s : State} (h : Idle s) : Dispatching s := ⟨h.1, h.2.1, by simp [h.2.2]⟩

theorem writes_all_plain {as : List Action} (h : ∀ a ∈ as, ∃ w, a = .write w) : as.all Action.isPlain = true := by
  rw [List.all_eq_true]; intro a ha; obtain ⟨w, rfl⟩ := h a ha; rfl

/-- What no register writes change: the ports, the configuration, and the model's own fields. -/
theorem performAll_writes {as : List Action} (h : ∀ a ∈ as, ∃ w, a = .write w) (s : State) :
    performAll as s = { performAll as s with
      senseOut := s.senseOut, dir := s.dir, cfg := s.cfg, rx := s.rx, senseIn := s.senseIn, answers := s.answers,
      instrReady := s.instrReady, out := s.out, todo := s.todo, escape := s.escape, popped := s.popped,
      inCall := s.inCall, draws := s.draws, stream := s.stream } := by
  induction as generalizing s with
  | nil => rfl
  | cons a rest ih =>
    obtain ⟨w, rfl⟩ := h a (List.mem_cons_self ..)
    rw [performAll_cons, perform_write, ih (fun b hb => h b (List.mem_cons_of_mem _ hb)), applyWrite_keeps]

/-- The registers a dispatch finds once the writes left to do are done: what these do not change. -/
theorem Dispatching.settled {s : State} (h : Dispatching s) :
    settled s = { settled s with
      senseOut := s.senseOut, dir := s.dir, cfg := s.cfg, rx := s.rx, senseIn := s.senseIn, answers := s.answers,
      instrReady := s.instrReady, out := s.out, todo := [], escape := s.escape, popped := s.popped,
      inCall := none, draws := s.draws, stream := s.stream } := by
  rw [Machine.settled, performAll_writes h.2.2, ← h.2.1]

theorem Dispatching.idle {s : State} (h : Dispatching s) : Idle (Machine.settled s) := by
  rw [h.settled]; exact ⟨h.1, rfl, rfl⟩

/-- The writes a dispatch finds, done before what it lists. -/
theorem Dispatching.finish {s : State} (h : Dispatching s) (as : List Action) :
    finishActions (enqueue as s) = finishActions (enqueue as (Machine.settled s)) := by
  have hp := writes_all_plain h.2.2
  have := actionSteps_plain s.todo as as.length (enqueue as s) h.1 h.2.1 hp rfl
  rw [finishActions, enqueue_todo, List.length_append, this, finishActions, enqueue_todo, h.idle.2.2, List.nil_append]
  congr 1
  have e1 : enqueue as s = { s with todo := s.todo ++ as } := rfl
  have e2 : enqueue as (Machine.settled s) = { Machine.settled s with todo := as } := by
    rw [enqueue, h.idle.2.2]; rfl
  rw [e1, e2, performAll_todo hp s (s.todo ++ as), Machine.settled, performAll_todo hp s []]

/-- Plain actions that a dispatch lists, done. -/
theorem finish_enqueue {s : State} (h : Dispatching s) {as : List Action} (hp : as.all Action.isPlain = true) :
    finishActions (enqueue as s) = .next (performAll as (settled s)) := by
  obtain ⟨ha, hc, ht⟩ := h.idle
  rw [h.finish, finish_plain (s := enqueue as (settled s)) ha hc (by simpa [ht] using hp)]
  generalize hu : Machine.settled s = u at *
  have : ({ enqueue as u with todo := [] } : State) = u := by simp [enqueue, ← ht]
  rw [Machine.settled, this, enqueue_todo, ht, List.nil_append]

/-- A dispatch that does nothing, done. -/
theorem finish_ending {s : State} (h : Dispatching s) : finishActions (ending s) = .next (ended (settled s)) := by
  rw [ending, finish_enqueue h rfl]; rfl

/-- A reply built in `TxBuf`, sent. -/
theorem finish_replying {s : State} (h : Dispatching s) (status : Byte) (body : List Byte) :
    finishActions (replying status body s) = .next (replied status body (settled s)) := by
  rw [replying, finish_enqueue h (by simp [freshReply, sendReply, Action.isPlain])]
  simp only [freshReply, performAll_cons, performAll_append, perform_write, applyWrite_tlen, sendReply]
  rw [performAll_txAppendAll body 0 _ rfl]
  simp [replied]

/-- A reply that does not use `TxBuf`, sent. -/
theorem finish_replyingDirect {s : State} (h : Dispatching s) (status : Byte) (body : List Byte) :
    finishActions (replyingDirect status body s) = .next (repliedDirect status body (settled s)) := by
  rw [replyingDirect, finish_enqueue h (by simp [freshReply, Action.isPlain])]
  simp [freshReply, performAll_append, repliedDirect]

/-! ## The steps of a byte -/

/-- The steps of a byte: its pop, and what it asks for. -/
theorem takeByte_eq {s : State} (hy : Ready s) (hr : s.rstate = .waiting ∨ Decoding s) {b : Byte} {rest : List Byte}
    (hx : s.rx = b :: rest) :
    takeByte s = andThen (receiveWire b { s with rx := rest }).outcome finishActions := by
  rw [takeByte, step_pops hy hr hx, andThen_next, step_justPopped hy]

/-- The steps of a payload byte, where its receive state lists plain actions. -/
theorem takesByte_payload {s : State} {v : Byte} {rest : List Byte} (hy : Ready s) (hd : Decoding s)
    (h : PayloadAt s v rest) {as : List Action} (hp : as.all Action.isPlain = true)
    (he : (receive v { s with rx := rest, escape := false }).outcome =
      .next (enqueue as { s with rx := rest, escape := false })) :
    TakesByte as rest s (performAll as { s with rx := rest, escape := false }) := by
  have h2 := he
  obtain ⟨b, hx, hv⟩ := h
  have hr := receiveWire_payload (s := { s with rx := rest }) hv hd.inFrame
  have hy' : Idle { s with rx := rest, escape := false } := hy.1
  constructor
  · rw [steps_succ 1 (step_pops hy (.inr hd) hx), steps_one, step_justPopped hy, hr, he]
  · rw [takeByte_eq hy (.inr hd) hx, hr, he, andThen_next, finish_enqueue hy'.dispatching hp,
      settled_nil hy'.2.2]

/-- The steps of a raw `SYNC` (R139). -/
theorem takesByte_sync {s : State} (hy : Ready s) (hr : s.rstate = .waiting ∨ Decoding s) : RestartsOnSync s := by
  intro rest hx
  have hy' : Idle { s with rx := rest, escape := false } := hy.1
  have ho : s.rstate ≠ .overflow := by
    rcases hr with h | h
    · simp [h]
    · exact h.inFrame.2
  have he : (receiveWire syncByte { s with rx := rest }).outcome =
      .next (enqueue [.write (.rstate .gotSync), .write (.sum 0)] { s with rx := rest, escape := false }) := by
    rw [receiveWire_sync, Fetched.outcome_run, exec, execSync_eq (s := { s with rx := rest }) ho]; rfl
  constructor
  · rw [steps_succ 1 (step_pops hy hr hx), steps_one, step_justPopped hy, he]
  · rw [takeByte_eq hy hr hx, he, andThen_next, finish_enqueue hy'.dispatching rfl, settled_nil hy'.2.2]; rfl

end Sys2Proof.Machine
end

