-- ==== Sys2Proof/Tests/Slice0.lean ====
section
/-! SUPPORT. Tests of the model against the vectors of spec/95_test_vectors.md (sections 2 to 7),
  one frame's end each, and the
witnesses that each statement's hypotheses can be met. -/

namespace Sys2Proof.Tests

open Sys2Proof.Machine

/-! ## Helpers -/

/-- A node with the identity `0x05`, between ticks, with these bytes received. -/
def node (rx : List Byte) : State := { State.reset with id := 0x05, senseOut := .low, rx := rx }

/-- The node in a receive state. -/
def nodeIn (r : RState) (rx : List Byte) : State := { node rx with rstate := r }

/-- The node that has just popped the checksum of a request. -/
def nodeWith (dest code : Byte) (body : List Byte) : State := placeRequest dest code body (node [])

/-- What a next state shows of itself; none for a fault or a refusal. -/
def seen {α : Type} (f : State → α) : Host.Outcome State Fault Refusal → Option α
  | .next s => some (f s)
  | .fault _ => none
  | .refused _ => none

/-- The reason of a refusal. -/
def refusal : Host.Outcome State Fault Refusal → Option Refusal
  | .next _ => none
  | .fault _ => none
  | .refused r => some r

/-- The bytes a node has sent. -/
def sent (s : State) : List Byte := txBytes s.out

/-- The calls a node has made to the instrument. -/
def calls (s : State) : List PortEvent := s.out.filter fun e =>
  match e with
  | .call _ => true
  | .dir _ | .tx _ | .senseOut _ | .devReset => false

/-- The step of a node that lists actions, and these, one a step. -/
def ran (s : State) : Host.Outcome State Fault Refusal := andThen (step s) finishActions

/-- A dispatch, its actions, and the return of the instrument call that was made. -/
def answered (s : State) : Host.Outcome State Fault Refusal := andThen (ran s) ran

/-- What the decoder reads under `REF`. -/
def read (wire : List Byte) : Option Decoded := (decode Config.ref wire).toOption

/-! ## WellFormed: each check refuses an ill-formed term (R134, R77) -/

theorem test_wellFormed_accepts : (Instr.ping (List.replicate 30 0)).wellFormed Config.ref = true := by decide

theorem test_wellFormed_refuses_long_body : (Instr.ping (List.replicate 31 0)).wellFormed Config.ref = false :=
  by decide

theorem test_wellFormed_refuses_mapped_unknown : (Instr.unknown 0x70 []).wellFormed Config.ref = false := by decide

theorem test_wellFormed_accepts_unmapped : (Instr.unknown 0xD9 []).wellFormed Config.ref = true := by decide

theorem test_admitted_ref : admitted Config.ref = true := by decide

theorem test_admitted_refuses_small_buffer : admitted { Config.ref with rxBufCap := 5 } = false := by decide

theorem test_admitted_refuses_equal_codes : admitted { Config.ref with cmdPing := 0xF1 } = false := by decide

theorem test_admitted_refuses_reserved_status : admitted { Config.ref with statusOverflow := 0xDE } = false := by decide

/-! ## Decoding: wire bytes written out from section 4 of the vectors, bit by bit -/

/-- `E0 FF 03 F0 D9 CB` -/
theorem test_decode_reset :
    read [0b11100000, 0b11111111, 0b00000011, 0b11110000, 0b11011001, 0b11001011] =
      some (.request 0xFF (.reset [0xD9])) := by decide

/-- `E0 FF 03 F1 05 F8` -/
theorem test_decode_assignAddr :
    read [0b11100000, 0b11111111, 0b00000011, 0b11110001, 0b00000101, 0b11111000] =
      some (.request 0xFF (.assignAddr [0x05])) := by decide

/-- `E0 FF 03 F1 D0 DF D3` -/
theorem test_decode_assignAddr_stuffed :
    read [0b11100000, 0b11111111, 0b00000011, 0b11110001, 0b11010000, 0b11011111, 0b11010011] =
      some (.request 0xFF (.assignAddr [0xE0])) := by decide

/-- `E0 05 02 10 17` -/
theorem test_decode_readId :
    read [0b11100000, 0b00000101, 0b00000010, 0b00010000, 0b00010111] =
      some (.request 0x05 (.readId [])) := by decide

/-- `E0 05 02 11 18` -/
theorem test_decode_getCmdVersion :
    read [0b11100000, 0b00000101, 0b00000010, 0b00010001, 0b00011000] =
      some (.request 0x05 (.getCmdVersion [])) := by decide

/-- `E0 05 02 12 19` -/
theorem test_decode_getJvsVersion :
    read [0b11100000, 0b00000101, 0b00000010, 0b00010010, 0b00011001] =
      some (.request 0x05 (.getJvsVersion [])) := by decide

/-- `E0 05 02 13 1A` -/
theorem test_decode_getCommVersion :
    read [0b11100000, 0b00000101, 0b00000010, 0b00010011, 0b00011010] =
      some (.request 0x05 (.getCommVersion [])) := by decide

/-- `E0 05 02 14 1B` -/
theorem test_decode_getFeatures :
    read [0b11100000, 0b00000101, 0b00000010, 0b00010100, 0b00011011] =
      some (.request 0x05 (.getFeatures [])) := by decide

/-- `E0 05 02 2F 36` -/
theorem test_decode_reqRetransmit :
    read [0b11100000, 0b00000101, 0b00000010, 0b00101111, 0b00110110] =
      some (.request 0x05 (.reqRetransmit [])) := by decide

/-- `E0 D0 CF 02 70 42` -/
theorem test_decode_ping_stuffed_destination :
    read [0b11100000, 0b11010000, 0b11001111, 0b00000010, 0b01110000, 0b01000010] =
      some (.request 0xD0 (.ping [])) := by decide

/-- `E0 05 02 71 78` -/
theorem test_decode_getSense :
    read [0b11100000, 0b00000101, 0b00000010, 0b01110001, 0b01111000] =
      some (.request 0x05 (.getSense [])) := by decide

/-- `E0 05 02 72 79` -/
theorem test_decode_incr :
    read [0b11100000, 0b00000101, 0b00000010, 0b01110010, 0b01111001] =
      some (.request 0x05 (.incr [])) := by decide

/-- `E0 05 02 73 7A` -/
theorem test_decode_cntr :
    read [0b11100000, 0b00000101, 0b00000010, 0b01110011, 0b01111010] =
      some (.request 0x05 (.cntr [])) := by decide

/-- `E0 05 06 74 00 00 45 64 28` -/
theorem test_decode_noteDown :
    read [0b11100000, 0b00000101, 0b00000110, 0b01110100, 0b00000000, 0b00000000, 0b01000101, 0b01100100, 0b00101000] =
      some (.request 0x05 (.noteDown [0x00, 0x00, 0x45, 0x64])) := by decide

/-- `E0 05 06 75 00 00 45 00 C5` -/
theorem test_decode_noteUp :
    read [0b11100000, 0b00000101, 0b00000110, 0b01110101, 0b00000000, 0b00000000, 0b01000101, 0b00000000, 0b11000101] =
      some (.request 0x05 (.noteUp [0x00, 0x00, 0x45, 0x00])) := by decide

/-- `E0 05 06 76 00 00 D0 CF 01 52` -/
theorem test_decode_light :
    read [0b11100000, 0b00000101, 0b00000110, 0b01110110, 0b00000000, 0b00000000, 0b11010000, 0b11001111,
      0b00000001, 0b01010010] =
      some (.request 0x05 (.light [0x00, 0x00, 0xD0, 0x01])) := by decide

/-- `E0 05 06 77 00 00 02 10 94` -/
theorem test_decode_control :
    read [0b11100000, 0b00000101, 0b00000110, 0b01110111, 0b00000000, 0b00000000, 0b00000010, 0b00010000, 0b10010100] =
      some (.request 0x05 (.control [0x00, 0x00, 0x02, 0x10])) := by decide

/-- `E0 05 02 D9 D0 DF` -/
theorem test_decode_unknown :
    read [0b11100000, 0b00000101, 0b00000010, 0b11011001, 0b11010000, 0b11011111] =
      some (.request 0x05 (.unknown 0xD9 [])) := by decide

/-- `E0 05 01 70 76` -/
theorem test_decode_short_length :
    read [0b11100000, 0b00000101, 0b00000001, 0b01110000, 0b01110110] =
      some (.request 0x05 (.ping [])) := by decide

/-- `E0`, `D0` (R70) -/
theorem test_decode_wire_bytes :
    read [0b11100000] = some (.wireByte .sync) ∧ read [0b11010000] = some (.wireByte .mark) := by decide

/-- A frame cut short, a bad checksum, a `SYNC` inside, a length above the capacity, a byte that starts no frame. -/
theorem test_decode_rejects_by_name :
    decode Config.ref [0xE0, 0x05, 0x02, 0x70] = .error .truncated ∧
    decode Config.ref [0xE0, 0x05, 0x02, 0x70, 0x00] = .error .checksumMismatch ∧
    decode Config.ref [0xE0, 0x05, 0x02, 0xD9, 0xE0] = .error .syncInFrame ∧
    decode Config.ref [0xE0, 0x05, 0x21, 0x70] = .error .overCapacity ∧
    decode Config.ref [0x05] = .error .notAFrameStart ∧
    decode Config.ref [0xE0, 0x05, 0x02, 0x70, 0x77, 0x00] = .error .trailingBytes ∧
    decode Config.ref [0xE0, 0x05, 0xD0] = .error .markUnfinished := ⟨rfl, rfl, rfl, rfl, rfl, rfl, rfl⟩

/-- R88's example: `PING @05 []` is `E0 05 02 70 77`. -/
theorem test_encode_ping : encode Config.ref 0x05 (.ping []) = [0xE0, 0x05, 0x02, 0x70, 0x77] := by decide

/-- A checksum of `0xE0` is stuffed. -/
theorem test_encode_stuffed_checksum :
    encode Config.ref 0x05 (.unknown 0xD9 []) = [0xE0, 0x05, 0x02, 0xD9, 0xD0, 0xDF] := by decide

/-- The table's rows under `REF`, each by its code byte. -/
theorem test_decodeTableWord :
    [0xF0, 0xF1, 0x10, 0x11, 0x12, 0x13, 0x14, 0x2F, 0x70, 0x71, 0x72, 0x73, 0x74, 0x75, 0x76, 0x77, 0xD9, 0xE0,
      0xD0].map (decodeTableWord 8) =
    [some (.reset [0]), some (.assignAddr [0]), some (.readId []), some (.getCmdVersion []),
      some (.getJvsVersion []), some (.getCommVersion []), some (.getFeatures []), some (.reqRetransmit []),
      some (.ping []), some (.getSense []), some (.incr []), some (.cntr []), some (.noteDown [0, 0, 0, 0]),
      some (.noteUp [0, 0, 0, 0]), some (.light [0, 0, 0, 0]), some (.control [0, 0, 0, 0]), some (.unknown 0xD9 []),
      some .sync, some .mark] := by decide

/-- The word placed for the next step runs as the first instruction after reset: a broadcast PING is answered. -/
theorem test_withFetchWord_ping :
    seen sent (ran (State.reset.withFetchWord 8 0x70)) = some [0xE0, 0x00, 0x03, 0x01, 0x01, 0x05] := by decide

theorem test_withFetchWord_sync : seen State.rstate (ran (State.reset.withFetchWord 8 0xE0)) = some .gotSync := by
  decide

/-! ## The codec (section 2) -/

/-- `Encode(E0)` with `TSUM = 10` leaves `F0`, and then pushes `D0 DF`. -/
theorem test_encode_byte :
    seen (fun s => (s.tsum, s.todo)) (step (enqueue (encodeByte 0xE0) { node [] with tsum := 0x10 })) =
      some (0xF0, [.port (.tx 0xD0), .port (.tx 0xDF)]) ∧
    seen (fun s => (s.tsum, sent s)) (finishActions (enqueue (encodeByte 0xE0) { node [] with tsum := 0x10 })) =
      some (0xF0, [0xD0, 0xDF]) := by decide

/-- `Encode(FF)` with `TSUM = 01` wraps. -/
theorem test_encode_byte_wraps :
    seen State.tsum (finishActions (enqueue (encodeByte 0xFF) { node [] with tsum := 0x01 })) = some 0x00 := by decide

/-- `EncodeFinal(E0)` pushes `D0 DF` and leaves `TSUM`. -/
theorem test_encode_final :
    seen (fun s => (s.tsum, sent s)) (finishActions (enqueue (encodeFinal 0xE0) { node [] with tsum := 0x10 })) =
      some (0x10, [0xD0, 0xDF]) := by decide

/-- `D0 FF` decodes to `00`: after the `MARK`, `FF` is stored as `00` in the body. -/
theorem test_mark_wraps :
    seen State.cmd (takeByte { nodeIn .readCommand [0xFF] with escape := true, cmd := 0x55 }) = some 0x00 := by decide

/-- `D0 D0` decodes to `D1` (D13). -/
theorem test_mark_mark :
    seen State.cmd (takeByte { nodeIn .readCommand [0xD0] with escape := true }) = some 0xD1 := by decide

/-- `Decode` of `20` with `SUM = F0` leaves `10`. -/
theorem test_sum_wraps : seen State.sum (takeByte { nodeIn .readCommand [0x20] with sum := 0xF0 }) = some 0x10 :=
  by decide

/-! ## The receiver (section 3) -/

theorem test_waiting_discards_one :
    seen (fun s => (s.rstate, s.rx)) (takeByte (node [0x05, 0xE0, 0x05])) = some (.waiting, [0xE0, 0x05]) := by decide

theorem test_waiting_discards_mark : seen State.rx (takeByte (node [0xD0, 0xE0, 0x05])) = some [0xE0, 0x05] := by decide

theorem test_foreign_destination_dropped :
    seen (fun s => (s.rstate, s.rx)) (takeByte (nodeIn .gotSync [0x06, 0x02, 0x70, 0x78])) =
      some (.waiting, [0x02, 0x70, 0x78]) := by decide

theorem test_unset_node_drops_directed :
    seen State.rstate (takeByte { nodeIn .gotSync [0x05] with id := 0xFF }) = some .waiting := by decide

theorem test_stuffed_destination :
    seen State.rstate (takeByte { nodeIn .gotSync [0xCF] with id := 0xD0, escape := true }) = some .readCount :=
  by decide

/-- `COUNT = 0x20` is accepted and `0x21` overflows; the same as a broadcast is dropped. -/
theorem test_count_capacity :
    seen State.rstate (takeByte (nodeIn .readCount [0x20])) = some .readCommand ∧
    seen State.rstate (takeByte (nodeIn .readCount [0x21])) = some .overflow ∧
    seen State.rstate (takeByte { nodeIn .readCount [0x21] with bcast := true }) = some .waiting := by decide

theorem test_overflow_reply :
    seen (fun s => (sent s, s.rx)) (ran (nodeIn .overflow [0x70, 0x00])) =
      some ([0xE0, 0x00, 0x02, 0x04, 0x06], [0x70, 0x00]) := by decide

theorem test_checksum_error_reply :
    seen sent (takeByte { nodeIn .verifySum [0x00] with sum := 0x77, cmd := 0x70, count := 2 }) =
      some [0xE0, 0x00, 0x02, 0x03, 0x05] := by decide

/-- C4: the checksum-error reply is sent for a broadcast too. -/
theorem test_checksum_error_broadcast :
    seen sent (takeByte { nodeIn .verifySum [0x00] with sum := 0x71, cmd := 0x70, count := 2, bcast := true }) =
      some [0xE0, 0x00, 0x02, 0x03, 0x05] := by decide

/-- `E0 05 02 D9 E0 …`: a `SYNC` in the checksum's place restarts. -/
theorem test_sync_restarts_checksum :
    seen (fun s => (s.rstate, s.sum, sent s)) (takeByte { nodeIn .verifySum [0xE0, 0x05] with sum := 0xE0, cmd :=
      0xD9 }) =
      some (.gotSync, 0x00, []) := by decide

theorem test_mark_then_sync_restarts :
    seen (fun s => (s.rstate, s.escape)) (takeByte { nodeIn .readBody [0xE0] with escape := true, count := 3 }) =
      some (.gotSync, false) := by decide

/-! ## The commands (section 4) -/

/-- The identity is unset, the sense output driven high, the device reset next, nothing sent. -/
theorem test_reset :
    seen (fun s => (s.id, s.senseOut, s.out, s.todo)) (steps 5 (nodeWith 0xFF 0xF0 [0xD9])) =
      some (0xFF, .high, [.senseOut .high], [.port .devReset, .ret]) := by decide

/-- D19. -/
theorem test_reset_wrong_check :
    seen (fun s => (s.id, s.senseOut, s.out)) (ran (nodeWith 0xFF 0xF0 [0x00])) =
      some (0x05, .low, []) := by decide

theorem test_assignAddr :
    seen (fun s => (s.id, s.senseOut, s.out)) (ran { nodeWith 0xFF 0xF1 [0x05] with id := 0xFF, senseOut := .high }) =
      some (0x05, .low,
        [.dir .tx, .tx 0xE0, .tx 0x00, .tx 0x03, .tx 0x01, .tx 0x01, .tx 0x05, .dir .rx, .senseOut .low]) := by decide

theorem test_assignAddr_addressed :
    seen (fun s => (s.id, s.out)) (ran (nodeWith 0xFF 0xF1 [0x09])) =
      some (0x05, []) := by decide

theorem test_readId :
    seen sent (ran (nodeWith 0x05 0x10 [])) =
      some [0xE0, 0x00, 0x05, 0x01, 0x01, 0x41, 0x42, 0x8A] := by decide

/-- `ID_STRING = E0`. -/
theorem test_readId_stuffed :
    seen sent (ran { nodeWith 0x05 0x10 [] with cfg := { Config.ref with idString := [0xE0] } }) =
      some [0xE0, 0x00, 0x04, 0x01, 0x01, 0xD0, 0xDF, 0xE6] := by decide

theorem test_getCmdVersion :
    seen sent (ran (nodeWith 0x05 0x11 [])) =
      some [0xE0, 0x00, 0x04, 0x01, 0x01, 0x13, 0x19] := by decide

theorem test_getJvsVersion :
    seen sent (ran (nodeWith 0x05 0x12 [])) =
      some [0xE0, 0x00, 0x04, 0x01, 0x01, 0x30, 0x36] := by decide

theorem test_getCommVersion :
    seen sent (ran (nodeWith 0x05 0x13 [])) =
      some [0xE0, 0x00, 0x04, 0x01, 0x01, 0x10, 0x16] := by decide

theorem test_getFeatures :
    seen sent (ran (nodeWith 0x05 0x14 [])) =
      some [0xE0, 0x00, 0x0C, 0x01, 0x01, 0x01, 0x00, 0x4F, 0x6C, 0x04, 0x00, 0x00, 0x00, 0x00, 0xCE] := by decide

/-- `FEATURES = [offset(-2)]`. -/
theorem test_getFeatures_offset :
    seen sent (ran { nodeWith 0x05 0x14 [] with cfg := { Config.ref with features := [.offset (-2)] } }) =
      some [0xE0, 0x00, 0x08, 0x01, 0x01, 0x04, 0xFF, 0xFE, 0x00, 0x00, 0x0B] := by decide

theorem test_reqRetransmit :
    seen sent (ran (nodeWith 0x05 0x2F [])) =
      some [0xE0, 0x00, 0x02, 0x02, 0x04] := by decide

theorem test_reqRetransmit_broadcast :
    seen sent (ran (nodeWith 0xFF 0x2F [])) =
      some [] := by decide

theorem test_ping :
    seen sent (ran (nodeWith 0x05 0x70 [])) =
      some [0xE0, 0x00, 0x03, 0x01, 0x01, 0x05] := by decide

theorem test_getSense_high :
    seen sent (ran (nodeWith 0x05 0x71 [])) =
      some [0xE0, 0x00, 0x04, 0x01, 0x01, 0x01, 0x07] := by decide

theorem test_getSense_low :
    seen sent (ran { nodeWith 0x05 0x71 [] with senseIn := .low }) =
      some [0xE0, 0x00, 0x04, 0x01, 0x01, 0x00, 0x06] := by decide

theorem test_incr :
    seen (fun s => (s.cntr, sent s)) (ran { nodeWith 0x05 0x72 [] with cntr := 0x02 }) =
      some (0x03, []) := by decide

theorem test_incr_wraps :
    seen State.cntr (ran { nodeWith 0x05 0x72 [] with cntr := 0xFF }) =
      some 0x00 := by decide

theorem test_cntr :
    seen (fun s => (s.cntr, sent s)) (ran { nodeWith 0x05 0x73 [] with cntr := 0xD0 }) =
      some (0x00, [0xE0, 0x00, 0x04, 0x01, 0x01, 0xD0, 0xCF, 0xD6]) := by decide

theorem test_cntr_stuffed_checksum :
    seen sent (ran { nodeWith 0x05 0x73 [] with cntr := 0xDA }) =
      some [0xE0, 0x00, 0x04, 0x01, 0x01, 0xDA, 0xD0, 0xDF] := by decide

theorem test_noteDown :
    seen State.out (ran (nodeWith 0x05 0x74 [0x00, 0x00, 0x45, 0x64])) =
      some [.call (.noteDown 0 0 69 100)] := by decide

/-- A time of two bytes is big-endian (R83). -/
theorem test_noteDown_wide_time :
    seen State.out (ran { nodeWith 0x05 0x74 [0x01, 0x02, 0x03, 0x45, 0x64] with cfg :=
      { Config.ref with timeBytes := 2 } }) =
      some [.call (.noteDown 258 3 69 100)] := by decide

theorem test_noteUp :
    seen State.out (ran (nodeWith 0x05 0x75 [0x00, 0x00, 0x45, 0x00])) =
      some [.call (.noteUp 0 0 69 0)] := by decide

/-- Answer `(true, None)`. -/
theorem test_light_silent :
    seen State.out (answered { nodeWith 0x05 0x76 [0x00, 0x00, 0x01, 0xFF] with answers := [⟨true, none⟩] }) =
      some [.call (.light 0 0 1 255)] := by decide

/-- Answer `(false, _)`. -/
theorem test_light_unhandled :
    seen sent (answered { nodeWith 0x05 0x76 [0x00, 0x00, 0x01, 0xFF] with answers := [⟨false, some [0x01]⟩] }) =
      some [0xE0, 0x00, 0x02, 0x02, 0x04] := by decide

/-- Answer `(true, Some([04]))`. -/
theorem test_control_reply :
    seen (fun s => (calls s, sent s)) (answered { nodeWith 0x05 0x77 [0x00, 0x00, 0x02, 0x10] with answers :=
      [⟨true, some [0x04]⟩] }) =
      some ([.call (.control 0 0 2 16)], [0xE0, 0x00, 0x03, 0x01, 0x04, 0x08]) := by decide

/-- U16: an answer of 33 bytes does not fit `TX_BUF_CAP = 32`. -/
theorem test_control_unfit :
    refusal (answered { nodeWith 0x05 0x77 [0x00, 0x00, 0x02, 0x10] with answers := [⟨true,
      some (List.replicate 33 0)⟩] }) =
      some .instrumentAnswer := by decide

theorem test_unknown :
    seen sent (ran (nodeWith 0x05 0xD9 [])) =
      some [0xE0, 0x00, 0x02, 0x02, 0x04] := by decide

theorem test_unknown_broadcast :
    seen sent (ran (nodeWith 0xFF 0xD9 [])) =
      some [] := by decide

/-- A pop is a step of its own: the byte has left the port, and no register has changed (R5). -/
theorem test_pop_alone :
    seen (fun s => (s.rstate, s.popped, s.rx)) (step (node [0xE0, 0x05])) = some (.waiting, some 0xE0, [0x05]) :=
  by decide

/-- Every register write is a step of its own (R5, R133): `SUM`, `DEST`, `BCAST`, `RSTATE`, one after another. -/
theorem test_one_write_a_step :
    seen (fun s => (s.sum, s.dest, s.bcast, s.rstate)) (steps 3 (nodeIn .gotSync [0xFF])) =
      some (0xFF, 0x00, false, .gotSync) ∧
    seen (fun s => (s.sum, s.dest, s.bcast, s.rstate)) (steps 4 (nodeIn .gotSync [0xFF])) =
      some (0xFF, 0xFF, false, .gotSync) ∧
    seen (fun s => (s.sum, s.dest, s.bcast, s.rstate)) (steps 5 (nodeIn .gotSync [0xFF])) =
      some (0xFF, 0xFF, true, .gotSync) ∧
    seen (fun s => (s.sum, s.dest, s.bcast, s.rstate)) (steps 6 (nodeIn .gotSync [0xFF])) =
      some (0xFF, 0xFF, true, .readCount) := by decide

/-- The same in a dispatch (R185): CNTR appends the counter to the reply, and then clears it, in steps of their own. -/
theorem test_cntr_clears_after_append :
    seen (fun s => (s.cntr, replyBody s)) (steps 7 { nodeWith 0x05 0x73 [] with cntr := 0x07 }) =
      some (0x07, [0x01, 0x07]) ∧
    seen (fun s => (s.cntr, replyBody s)) (steps 8 { nodeWith 0x05 0x73 [] with cntr := 0x07 }) =
      some (0x00, [0x01, 0x07]) := by decide

/-- Half a reply is a state (R5, R110, R225): after the dispatch and seven of its actions two bytes are out,
  and `TSUM` is
as it was; three more set it to `MASTER`, add the length byte, and push that. -/
theorem test_reply_in_progress :
    seen (fun s => (s.rstate, s.dir, s.tsum, sent s)) (steps 8 { nodeWith 0x05 0x70 [] with tsum := 0x55 }) =
      some (.verifySum, .tx, 0x55, [0xE0, 0x00]) ∧
    seen (fun s => (s.rstate, s.dir, s.tsum, sent s)) (steps 11 { nodeWith 0x05 0x70 [] with tsum := 0x55 }) =
      some (.verifySum, .tx, 0x03, [0xE0, 0x00, 0x03]) := by decide

/-- ASSIGN_ADDR drives its sense output last: the reply is out, `DIR = RX` again,
  and the output is still high (R175). -/
theorem test_assignAddr_sense_last :
    seen (fun s => (s.id, s.dir, s.senseOut, s.todo))
        (steps 18 { nodeWith 0xFF 0xF1 [0x05] with id := 0xFF, senseOut := .high }) =
      some (0x05, .rx, .high, [.port (.senseOut .low), .ret]) := by decide

/-- The call of a note is under way until its return (R193). -/
theorem test_noteUp_in_call :
    seen (fun s => (s.rstate, s.inCall)) (ran (nodeWith 0x05 0x75 [0x00, 0x00, 0x45, 0x00])) =
      some (.verifySum, some (.noteUp 0 0 69 0)) := by decide

/-- The power-on of a chain: two nodes, each with its own stream of draws. -/
theorem test_chain_powerOn :
    (Chain.powerOn .high [Config.ref, Config.ref]).nodes =
      [State.powerOn Config.ref, { State.powerOn Config.ref with stream := 1 }] := by decide

/-- The instrument's return from a note ends the tick (R193). -/
theorem test_blocked_call_returns :
    seen (fun s => (s.rstate, s.inCall))
        (ran { nodeIn .verifySum [] with inCall := some (.noteUp 0 0 69 0), instrReady := true }) =
      some (.waiting, none) := by decide

/-- Under a configuration that R9 does not admit, the step refuses. -/
theorem test_configuration_refused :
    refusal (step { node [] with cfg := { Config.ref with timeBytes := 0 } }) = some .configuration := by decide

/-- A write beyond `RxBuf`, in a state no run reaches, is the fault. -/
theorem test_rxBufIndex :
    steps 2 { nodeIn .readBody [0x01] with count := 0xFF, ptr := 32 } = .fault .rxBufIndex := rfl


/-! ## Witnesses: for each statement with hypotheses, a state and operands that meet them, clause by clause -/

theorem witness_DecodeUndoesEncode :
    admitted Config.ref = true ∧ (Instr.assignAddr [0xE0]).wellFormed Config.ref = true ∧
    (Instr.control (List.replicate 30 0xD0)).wellFormed Config.ref = true ∧
    (Instr.unknown 0xE0 []).wellFormed Config.ref = true := by decide

theorem witness_StuffedPayloadDecodesBack :
    Decoding (nodeIn .readCommand []) ∧ (nodeIn .readCommand []).escape = false ∧ reserved 0xE0 = true ∧
    reserved 0xDF = false := ⟨.inr (.inr (.inl rfl)), rfl, rfl, rfl⟩

/-- A body as long as a length byte can say, and the lengths on either side of 2. -/
theorem witness_RequestLengths :
    (List.replicate 253 (0xE0 : Byte)).length ≤ 253 ∧ 2 ≤ (2 : Byte).toNat ∧ ((0 : Byte) = 0 ∨ (0 : Byte) = 1) ∧
    ((1 : Byte) = 0 ∨ (1 : Byte) = 1) ∧ admitted Config.ref = true :=
  ⟨(List.length_replicate).le, by decide⟩

theorem witness_CommandCodesSelectTheirCommand :
    admitted Config.ref = true ∧ (0xD9 : Byte) ∉ Config.ref.codes := by decide

theorem witness_AdmittedConfigurations :
    admitted { node [] with cfg := { Config.ref with rxBufCap := 256 } }.cfg = false := by decide

/-- An idle node, and a ready one. -/
theorem witness_idle : Idle (node []) := ⟨by decide, rfl, rfl⟩

theorem witness_ready : Ready (node []) := ⟨witness_idle, rfl⟩

/-- A node at a dispatch, with the checksum's addition to `SUM` left to do. -/
def dispatching : State := { nodeIn .verifySum [] with todo := [.write (.sum 0xEE)] }

theorem witness_dispatching : Dispatching dispatching := by
  refine ⟨by decide, rfl, fun a h => ⟨.sum 0xEE, ?_⟩⟩
  simpa [dispatching] using h

theorem witness_settled : settled dispatching = { nodeIn .verifySum [] with sum := 0xEE } := rfl

/-- The node at the checksum of `PING @05 []`. -/
def atChecksum (rx : List Byte) : State := { nodeIn .verifySum rx with dest := 0x05, count := 2, cmd := 0x70, sum :=
    0x77 }

theorem witness_StepRunsDecodedInstruction :
    At .verifySum (atChecksum [0x77]) ∧ (atChecksum [0x77]).rx = 0x77 :: [] ∧
    Payload (atChecksum [0x77]) 0x77 (atChecksum [0x77]).sum ∧
    Ready (atChecksum [0xE0]) ∧ Decoding (atChecksum [0xE0]) ∧ (atChecksum [0xE0]).rx = syncByte :: [] ∧
    Ready (node [0xE0]) ∧ (node [0xE0]).rstate = .waiting ∧ (node [0xE0]).rx = syncByte :: [] ∧
    Decoding (atChecksum [0xD0]) ∧ (atChecksum [0xD0]).escape = false ∧ (atChecksum [0xD0]).rx = markByte :: [] ∧
    (node [0xD0]).rstate = .waiting ∧ (node [0xD0]).rx = markByte :: [] :=
  ⟨⟨⟨⟨by decide, rfl, rfl⟩, rfl⟩, rfl⟩, rfl, ⟨by decide, by decide, rfl⟩, ⟨⟨by decide, rfl, rfl⟩, rfl⟩,
    .inr (.inr (.inr (.inr rfl))), rfl, ⟨⟨by decide, rfl, rfl⟩, rfl⟩, rfl, rfl, .inr (.inr (.inr (.inr rfl))), rfl, rfl,
    rfl, rfl⟩

theorem witness_WholeFrameRunsItsCommand :
    At .waiting (node [0xE0, 0x05, 0x03, 0x73, 0xD0, 0xDF, 0x5B, 0x01]) ∧
    (Instr.cntr [0xE0]).wellFormed Config.ref = true ∧ (Instr.cntr [0xE0]).isWire = false ∧
    (0x05 : Byte) ≠ masterAddr ∧ acceptsDest (node []) 0x05 = true ∧
    (node [0xE0, 0x05, 0x03, 0x73, 0xD0, 0xDF, 0x5B, 0x01]).rx = encode Config.ref 0x05 (.cntr [0xE0]) ++ [0x01] :=
  ⟨⟨⟨⟨by decide, rfl, rfl⟩, rfl⟩, rfl⟩, by decide, rfl, by decide, by decide, by decide⟩

theorem witness_inv_atChecksum : Inv (atChecksum [0x77]) :=
  ⟨rfl, fun _ => rfl, rfl, rfl, rfl, rfl, rfl, by decide, by decide,
    fun _ => ⟨⟨by decide, by decide, by decide⟩, by decide⟩, fun h => absurd rfl h⟩

/-- The node in the middle of PING's reply, its length byte next. -/
def inReply : State :=
  { atChecksum [] with
    sum := 0xEE, dir := .tx, txBuf := [(0, 1)], tlen := 1, out := [.dir .tx, .tx 0xE0, .tx 0x00],
    todo := (sendReply 0x01 [0x01]).drop 3 ++ [.ret] }

/-- The node in the middle of the writes of a destination byte: `DEST`, `BCAST` and `RSTATE` are still to be written. -/
def inWrites : State :=
  { nodeIn .gotSync [] with
    sum := 0x05, todo := [.write (.dest 0x05), .write (.bcast false), .write (.rstate .readCount)] }

theorem witness_inv_inWrites : Inv inWrites :=
  ⟨rfl, fun h => h.elim (fun h => absurd rfl h) fun h => absurd rfl h, rfl, rfl, rfl, rfl, rfl,
    ⟨by decide, by decide, by decide⟩, by decide, rfl⟩

/-- At a checksum, in the middle of a reply, and in the middle of a byte's writes. -/
theorem witness_StepKeepsInv :
    Inv (atChecksum [0x77]) ∧ seen State.popped (step (atChecksum [0x77])) = some (some 0x77) ∧
    Inv inReply ∧ seen State.dir (step inReply) = some .tx ∧
    Inv inWrites ∧ seen State.dest (step inWrites) = some 0x05 :=
  ⟨witness_inv_atChecksum, by decide,
    ⟨by decide, fun h => h.elim (fun h => absurd rfl h) fun h => absurd rfl h, rfl, rfl, rfl, rfl, by decide, rfl, rfl⟩,
    by decide, witness_inv_inWrites, by decide⟩

theorem witness_NoStepFaults : Inv (atChecksum [0x77]) := witness_inv_atChecksum

/-- The node whose CONTROL comes back with an answer of 33 bytes. -/
def atUnfit : State :=
  { node [] with rstate := .verifySum, inCall := some (.control 0 0 2 16), answers := [⟨true,
    some (List.replicate 33 0)⟩] }

theorem witness_OnlyUnfitAnswersAreRefused :
    admitted atUnfit.cfg = true ∧ refusal (step atUnfit) = some .instrumentAnswer := by decide

theorem witness_TickSendsNothingOrOneReply :
    (atChecksum [0x77]).todo = [] ∧ (atChecksum [0x77]).inCall = none ∧
    seen sent (tick (atChecksum [0x77])) = some [0xE0, 0x00, 0x03, 0x01, 0x01, 0x05] ∧
    (node [0x05]).todo = [] ∧ (node [0x05]).inCall = none ∧ seen sent (tick (node [0x05])) = some [] := by decide

/-- A pop; a push, a sense output, a device reset,
  a call; a register written; the tick's return; the end of `READ_BODY`;
a listing, and no byte to pop. -/
theorem witness_StepIsOneTransaction :
    seen State.rx (step (node [0x05, 0x06])) = some [0x06] ∧
    seen State.out (step { inReply with out := [], todo := [.port (.tx 0x01), .ret] }) = some [.tx 0x01] ∧
    seen State.senseOut (step { node [] with todo := [.port (.senseOut .high)] }) = some .high ∧
    seen State.inCall (step { node [] with todo := [.port (.call (.light 0 0 1 2))] }) = some (some (.light 0 0 1 2)) ∧
    seen State.tsum (step { inReply with tsum := 0x10, todo := [.write (.addTsum 0x05), .ret] }) = some 0x15 ∧
    seen State.rstate (step { inReply with dir := .rx, todo := [.ret] }) = some .waiting ∧
    seen State.rstate (step { nodeIn .readBody [] with count := 2 }) = some .verifySum ∧
    seen State.todo (step { node [] with popped := some 0xE0 }) =
      some [.write (.rstate .gotSync), .write (.sum 0)] ∧
    seen State.rx (step (node [])) = some [] ∧
    ∃ t, step { node [] with todo := [.port .devReset] } = .next t :=
  ⟨by decide, by decide, by decide, by decide, by decide, by decide, by decide, by decide, by decide, _, rfl⟩

theorem witness_TickEndsWaitingOrBlocked :
    Inv (atChecksum [0x77]) ∧ seen State.rstate (tick (atChecksum [0x77])) = some .waiting ∧
    Inv (nodeIn .gotSync []) ∧ seen blocked (tick (nodeIn .gotSync [])) = some true :=
  ⟨witness_inv_atChecksum, by decide, ⟨rfl, fun _ => rfl, rfl, rfl, rfl, rfl, rfl, rfl, rfl⟩, by decide⟩

theorem witness_WaitingTakesOneByte :
    At .waiting (node []) ∧ (node []).rx = [] ∧ (node [0xD0, 0xE0]).rx = 0xD0 :: [0xE0] ∧
    (0xD0 : Byte) ≠ syncByte ∧ (node [0xE0, 0x05]).rx = syncByte :: [0x05] :=
  ⟨⟨⟨⟨by decide, rfl, rfl⟩, rfl⟩, rfl⟩, rfl, rfl, by decide, rfl⟩

theorem witness_SyncRestartsEveryDecode :
    Ready { nodeIn .readBody [0xE0] with count := 3 } ∧
    Decoding { nodeIn .readBody [0xE0] with count := 3 } ∧ (nodeIn .readBody [0xE0]).rx = syncByte :: [] ∧
    At .overflow (nodeIn .overflow [0xE0]) :=
  ⟨⟨⟨by decide, rfl, rfl⟩, rfl⟩, .inr (.inr (.inr (.inl ⟨rfl, by decide⟩))), rfl, ⟨⟨by decide, rfl, rfl⟩, rfl⟩, rfl⟩

theorem witness_EmptyPortHolds :
    Ready { nodeIn .readCount [] with escape := true } ∧ Decoding { nodeIn .readCount [] with escape := true } ∧
    (nodeIn .readCount []).rx = [] := ⟨⟨⟨by decide, rfl, rfl⟩, rfl⟩, .inr (.inl rfl), rfl⟩

/-- Each clause, at the values beside its boundaries: `00`, `06` for a node `05`, `05`, `FE` for a node `FE`, `FF`. -/
theorem witness_GotSyncRoutes :
    At .gotSync (nodeIn .gotSync [0x00]) ∧ PayloadAt (nodeIn .gotSync [0x00]) 0x00 [] ∧
    PayloadAt (nodeIn .gotSync [0x06]) 0x06 [] ∧ (0x06 : Byte) ≠ (nodeIn .gotSync [0x06]).id ∧
    PayloadAt (nodeIn .gotSync [0x05]) 0x05 [] ∧ (0x05 : Byte) = (nodeIn .gotSync [0x05]).id ∧
    PayloadAt { nodeIn .gotSync [0xFE] with id := 0xFE } 0xFE [] ∧ PayloadAt (nodeIn .gotSync [0xFF]) 0xFF [] ∧
    PayloadAt { nodeIn .gotSync [0xDF] with escape := true } 0xE0 [] :=
  ⟨⟨⟨⟨by decide, rfl, rfl⟩, rfl⟩, rfl⟩, ⟨0x00, rfl, by decide, by decide, rfl⟩, ⟨0x06, rfl, by decide, by decide,
    rfl⟩, by decide,
    ⟨0x05, rfl, by decide, by decide, rfl⟩, rfl, ⟨0xFE, rfl, by decide, by decide, rfl⟩,
    ⟨0xFF, rfl, by decide, by decide, rfl⟩, ⟨0xDF, rfl, by decide, by decide⟩⟩

/-- At the capacity and one above it, directed and broadcast. -/
theorem witness_ReadCountTestsCapacity :
    At .readCount (nodeIn .readCount [0x20]) ∧ PayloadAt (nodeIn .readCount [0x20]) 0x20 [] ∧
    (0x20 : Byte).toNat ≤ Config.ref.rxBufCap ∧ PayloadAt (nodeIn .readCount [0x21]) 0x21 [] ∧
    Config.ref.rxBufCap < (0x21 : Byte).toNat ∧ (nodeIn .readCount [0x21]).bcast = false ∧
    At .readCount { nodeIn .readCount [0x21] with bcast := true } ∧
    PayloadAt { nodeIn .readCount [0x21] with bcast := true } 0x21 [] ∧
    At .readCount (nodeIn .readCount [0xE0]) ∧ (nodeIn .readCount [0xE0]).rx = syncByte :: [] :=
  ⟨⟨⟨⟨by decide, rfl, rfl⟩, rfl⟩, rfl⟩, ⟨0x20, rfl, by decide, by decide, rfl⟩, by decide, ⟨0x21, rfl, by decide,
    by decide, rfl⟩,
    by decide, rfl, ⟨⟨⟨by decide, rfl, rfl⟩, rfl⟩, rfl⟩, ⟨0x21, rfl, by decide, by decide, rfl⟩, ⟨⟨⟨by decide, rfl,
      rfl⟩, rfl⟩, rfl⟩, rfl⟩

theorem witness_ReadCommandTakesAnyCode :
    At .readCommand (nodeIn .readCommand [0xD9]) ∧ PayloadAt (nodeIn .readCommand [0xD9]) 0xD9 [] ∧
    At .readCommand (nodeIn .readCommand [0xE0]) ∧ (nodeIn .readCommand [0xE0]).rx = syncByte :: [] :=
  ⟨⟨⟨⟨by decide, rfl, rfl⟩, rfl⟩, rfl⟩, ⟨0xD9, rfl, by decide, by decide, rfl⟩, ⟨⟨⟨by decide, rfl, rfl⟩, rfl⟩, rfl⟩,
    rfl⟩

/-- The last body byte that `RxBuf` can hold (`COUNT = 32`, `PTR = 29`), and a complete body. -/
theorem witness_ReadBodyStoresUntilComplete :
    At .readBody { nodeIn .readBody [0x55] with count := 32, ptr := 29 } ∧
    { nodeIn .readBody [0x55] with count := 32, ptr := 29 }.ptr.toNat < bodyLen 32 ∧
    { nodeIn .readBody [0x55] with count := 32, ptr := 29 }.ptr.toNat < Config.ref.rxBufCap ∧
    PayloadAt { nodeIn .readBody [0x55] with count := 32, ptr := 29 } 0x55 [] ∧
    At .readBody { nodeIn .readBody [] with count := 1, ptr := 0 } ∧
    bodyLen { nodeIn .readBody [] with count := 1, ptr := 0 }.count ≤ (0 : Byte).toNat ∧
    { nodeIn .readBody [0xE0] with count := 3, ptr := 0 }.rx = syncByte :: [] :=
  ⟨⟨⟨⟨by decide, rfl, rfl⟩, rfl⟩, rfl⟩, by decide, by decide, ⟨0x55, rfl, by decide, by decide, rfl⟩, ⟨⟨⟨by decide,
    rfl, rfl⟩, rfl⟩, rfl⟩,
    by decide, rfl⟩

theorem witness_OverflowReportsAndReturns : At .overflow (nodeIn .overflow [0x70]) := ⟨⟨⟨by decide, rfl, rfl⟩, rfl⟩,
    rfl⟩

theorem witness_ChecksumDecidesTheFrame :
    At .verifySum (atChecksum [0x77]) ∧ PayloadAt (atChecksum [0x77]) 0x77 [] ∧ (0x77 : Byte) = (atChecksum []).sum ∧
    At .verifySum (atChecksum [0x76]) ∧ PayloadAt (atChecksum [0x76]) 0x76 [] ∧ (0x76 : Byte) ≠ (atChecksum []).sum ∧
    At .verifySum (atChecksum [0xE0]) ∧ (atChecksum [0xE0]).rx = syncByte :: [] :=
  ⟨⟨⟨⟨by decide, rfl, rfl⟩, rfl⟩, rfl⟩, ⟨0x77, rfl, by decide, by decide, rfl⟩, rfl, ⟨⟨⟨by decide, rfl, rfl⟩, rfl⟩,
    rfl⟩,
    ⟨0x76, rfl, by decide, by decide, rfl⟩, by decide, ⟨⟨⟨by decide, rfl, rfl⟩, rfl⟩, rfl⟩, rfl⟩

theorem witness_LeftoverBytesAreDrained :
    At .waiting (node [0x02, 0xD0, 0x78, 0xE0]) ∧ syncByte ∉ ([0x02, 0xD0, 0x78] : List Byte) ∧
    (node [0x02, 0xD0, 0x78, 0xE0]).rx = [0x02, 0xD0, 0x78] ++ [0xE0] := ⟨⟨⟨⟨by decide, rfl, rfl⟩, rfl⟩, rfl⟩,
      by decide, rfl⟩

theorem witness_OtherRepliesAreDropped :
    At .waiting (node [0xE0, 0x00, 0x03, 0x01, 0x01, 0x05, 0xE0]) ∧
    (node [0xE0, 0x00, 0x03, 0x01, 0x01, 0x05, 0xE0]).rx = encodeReply 0x01 [0x01] ++ [0xE0] :=
  ⟨⟨⟨⟨by decide, rfl, rfl⟩, rfl⟩, rfl⟩, by decide⟩

theorem witness_SyncCompletes :
    (nodeIn .readBody []).rstate ≠ .overflow ∧ Idle (nodeIn .readBody []) ∧ (nodeIn .overflow []).rstate = .overflow :=
  ⟨by decide, ⟨by decide, rfl, rfl⟩, rfl⟩

theorem witness_MarkCompletes :
    (nodeIn .verifySum []).rstate ≠ .overflow ∧ (nodeIn .verifySum []).rstate ≠ .waiting ∧
    (node []).rstate = .waiting ∧ (nodeIn .overflow []).rstate = .overflow := by decide

/-- An idle node, and a body of 255 bytes. -/
theorem witness_SendReplyIsAReplyFrame : Idle (node []) ∧ (List.replicate 255 (0 : Byte)).length ≤ 255 :=
  ⟨witness_idle, List.length_replicate.le⟩

theorem witness_StatusFramesAreFiveBytes :
    Idle (node []) ∧ (0x04 : Byte) = (node []).cfg.statusOverflow ∧ (0x03 : Byte) = (node []).cfg.statusSumErr :=
  ⟨witness_idle, by decide, by decide⟩

theorem witness_ResetTestsItsCheckByte : (0xD8 : Byte) ≠ dispatching.cfg.resetCheck ∧ Dispatching dispatching :=
  ⟨by decide, witness_dispatching⟩

/-- A node whose RESET has requested the device reset, the tick's return left to do. -/
def afterRequest : State := { node [] with id := unsetId, senseOut := .high, cntr := 7, todo := [.ret] }

theorem witness_DeviceResetOutcomes :
    admitted afterRequest.cfg = true ∧ afterRequest.inCall = none ∧ afterRequest.todo = [.ret] ∧
    afterRequest.id = unsetId ∧ afterRequest.senseOut = .high ∧ afterRequest.dir = .rx ∧ afterRequest.cntr ≠ 0 :=
  by decide

/-- An eligible node; and a node turned away for its low input alone, or for its identity alone. -/
theorem witness_AssignAddrNeedsEligibility :
    Dispatching { dispatching with id := 0xFF } ∧ { dispatching with id := 0xFF }.senseIn = .high ∧
    { dispatching with id := 0xFF }.id = 0xFF ∧
    ¬({ dispatching with id := 0xFF, senseIn := .low }.senseIn = .high ∧
      { dispatching with id := 0xFF, senseIn := .low }.id = 0xFF) ∧
    ¬(dispatching.senseIn = .high ∧ dispatching.id = 0xFF) := ⟨witness_dispatching, by decide⟩

theorem witness_ReadIdRepliesWithIdString : Dispatching dispatching := witness_dispatching

theorem witness_VersionQueriesReply : Dispatching dispatching := witness_dispatching

theorem witness_GetFeaturesReplies : Dispatching dispatching := witness_dispatching

theorem witness_PingReplies : Dispatching dispatching := witness_dispatching

theorem witness_GetSenseRepliesInputLevel : Dispatching dispatching := witness_dispatching

theorem witness_IncrAddsOne : Dispatching dispatching := witness_dispatching

theorem witness_CntrReportsAndClears : Dispatching dispatching := witness_dispatching

theorem witness_UnknownCommandsReported :
    Dispatching dispatching ∧ dispatching.bcast = false ∧ Dispatching { dispatching with bcast := true } ∧
    { dispatching with bcast := true }.bcast = true ∧
    (Instr.unknown 0xD9 [] = .unknown 0xD9 [] ∨ Instr.unknown 0xD9 [] = .reqRetransmit []) :=
  ⟨witness_dispatching, rfl, witness_dispatching, rfl, .inl rfl⟩

theorem witness_EventsReachTheInstrument : Dispatching dispatching ∧ dispatching.instrReady = true :=
  ⟨witness_dispatching, rfl⟩

/-- The node in a LIGHT, and in a CONTROL, that has not returned, with these answers queued. -/
def inEvent (c : Call) (answers : List Answer) : State := { nodeIn .verifySum [] with inCall := some c, answers :=
    answers }

/-- Both calls; an unhandled answer, broadcast and directed; no reply; a body at the room's end and one above it. -/
theorem witness_LightAndControlFollowTheAnswer :
    InCall (.light 0 0 1 2) (inEvent (.light 0 0 1 2) [⟨false, none⟩]) ∧
    InCall (.control 0 0 1 2) (inEvent (.control 0 0 1 2) [⟨true, none⟩]) ∧
    (inEvent (.light 0 0 1 2) [⟨false, none⟩]).instrReady = true ∧
    (inEvent (.light 0 0 1 2) [⟨false, none⟩]).answers = ⟨false, none⟩ :: [] ∧
    { inEvent (.light 0 0 1 2) [] with bcast := true }.bcast = true ∧ (inEvent (.light 0 0 1 2) []).bcast = false ∧
    (List.replicate 32 (0 : Byte)).length ≤ min (node []).cfg.txBufCap 253 ∧ (inEvent (.light 0 0 1 2) []).tlen = 0 ∧
    min (node []).cfg.txBufCap 253 < (List.replicate 33 (0 : Byte)).length :=
  ⟨⟨by decide, rfl, rfl⟩, ⟨by decide, rfl, rfl⟩, by decide⟩

theorem witness_UnqueuedAnswersAreDraws :
    InCall (.light 0 0 1 2) (inEvent (.light 0 0 1 2) []) ∧ (inEvent (.light 0 0 1 2) []).instrReady = true ∧
    (inEvent (.light 0 0 1 2) []).answers = [] := ⟨⟨by decide, rfl, rfl⟩, rfl, rfl⟩

/-- A node whose instrument has not returned from a NOTE_DOWN, and one whose instrument returns now. -/
theorem witness_InstrumentCallBlocksTheTick :
    admitted (inEvent (.noteDown 0 0 69 100) []).cfg = true ∧
    { inEvent (.noteDown 0 0 69 100) [] with instrReady := false }.inCall ≠ none ∧
    { inEvent (.noteDown 0 0 69 100) [] with instrReady := false }.instrReady = false ∧
    (inEvent (.noteDown 0 0 69 100) []).instrReady = true ∧
    InCall (.noteDown 0 0 69 100) (inEvent (.noteDown 0 0 69 100) []) :=
  ⟨by decide, by decide, rfl, rfl, by decide, rfl, rfl⟩

/-- A node in the middle of RESET's actions, its device reset next. -/
def atDevReset : State := { node [] with id := 0xFF, senseOut := .high, cntr := 7, todo := [.port .devReset, .ret] }

/-- CNTR; steps that do a write of each kind, a device reset, and a step that runs a RESET. -/
theorem witness_OnlyResetAndAssignWriteIdentity :
    seen State.id (exec (.cntr [0x01]) (node [])) = some 0x05 ∧ (∀ b, Instr.cntr [0x01] ≠ .reset b) ∧
    (∀ b, Instr.cntr [0x01] ≠ .assignAddr b) ∧ (∃ t, step atDevReset = .next t) ∧
    seen State.id (step { node [] with todo := [.write (.id 0x09)] }) = some 0x09 ∧
    seen State.senseOut (step { node [] with todo := [.port (.senseOut .high)] }) = some .high ∧
    seen (fun t => t.todo.contains (.write (.id 0xFF))) (step (nodeWith 0x05 0xF0 [0xD9])) = some true ∧
    .write (.id 0xFF) ∉ (nodeWith 0x05 0xF0 [0xD9]).todo :=
  ⟨by decide, nofun, nofun, ⟨_, rfl⟩, by decide, by decide, by decide, by decide⟩

/-- PING; the RESET that lists a device reset; steps that do a write of `CNTR` and the device reset; a step that runs
INCR. -/
theorem witness_OnlyIncrAndCntrWriteTheCounter :
    seen State.cntr (exec (.ping []) { node [] with cntr := 7 }) = some 7 ∧ (∀ b, Instr.ping [] ≠ .incr b) ∧
    (∀ b, Instr.ping [] ≠ .cntr b) ∧
    seen (fun t => t.todo.contains (.port .devReset)) (exec (.reset [0xD9]) (node [])) = some true ∧
    .port .devReset ∉ (node []).todo ∧ seen State.cntr (step { node [] with todo := [.write (.cntr 9)] }) = some 9 ∧
    seen (fun t => t.todo.contains (.write (.cntr 8))) (step { nodeWith 0x05 0x72 [] with cntr := 7 }) = some true ∧
    .write (.cntr 8) ∉ (nodeWith 0x05 0x72 []).todo ∧ ∃ t, step atDevReset = .next t :=
  ⟨by decide, nofun, nofun, by decide, by decide, by decide, by decide, by decide, _, rfl⟩

/-- PING, both outcomes of RESET's check byte, a call's return, a byte pushed, a write of each kind,
  the device reset. -/
theorem witness_InstructionsLeaveTheBuffers :
    Idle (node []) ∧ seen State.tlen (dispatch (.ping []) { node [] with txBuf := [(5, 9)] }) = some 1 ∧
    seen (fun t => t.todo.contains (.port .devReset)) (exec (.reset [0xD9]) (node [])) = some true ∧
    seen State.tlen (dispatch (.reset [0xD8]) (node [])) = some 0 ∧
    (inEvent (.light 0 0 1 2) []).todo = [] ∧ (inEvent (.light 0 0 1 2) []).inCall ≠ none ∧
    (inEvent (.light 0 0 1 2) []).instrReady = true ∧
    seen State.tlen (ran (inEvent (.light 0 0 1 2) [⟨true, some [4]⟩])) = some 1 ∧
    seen State.tlen (step inReply) = some 1 ∧
    seen State.rxBuf (step { node [] with todo := [.write (.rxBuf 3 7)] }) = some [(3, 7)] ∧
    seen State.txBuf (step { node [] with todo := [.write (.txBuf 3 7)] }) = some [(3, 7)] ∧
    ∃ t, step atDevReset = .next t :=
  ⟨witness_idle, by decide, by decide, by decide, rfl, by decide, rfl, by decide, by decide, by decide, by decide,
    _, rfl⟩

/-- A reply, an event, and a command that does nothing. -/
theorem witness_CommandsEndTheTick :
    (Instr.ping []).isWire = false ∧ Dispatching dispatching ∧ dispatching.popped = none ∧ dispatching.dir = .rx ∧
    seen State.rstate (dispatch (.ping []) dispatching) = some .waiting ∧
    seen State.inCall (dispatch (.noteUp [1, 2, 3, 4]) dispatching) = some (some (.noteUp 1 2 3 4)) ∧
    seen State.rstate (dispatch (.assignAddr [9]) dispatching) = some .waiting :=
  ⟨rfl, witness_dispatching, rfl, rfl, by decide, by decide, by decide⟩

/-- Each class of error, with its actions done. -/
def erred (e : ErrorClass) (s : State) : Host.Outcome State Fault Refusal := andThen (takeError e s) finishActions

theorem witness_ErrorsKeepTheNode :
    Dispatching dispatching ∧ seen State.rstate (erred .framing (nodeIn .readBody [])) = some .gotSync ∧
    seen State.rstate (erred .capacity (nodeIn .readCount [])) = some .overflow ∧
    seen sent (erred .integrity dispatching) = some [0xE0, 0x00, 0x02, 0x03, 0x05] ∧
    seen State.rstate (erred .routing (nodeIn .gotSync [])) = some .waiting ∧
    seen sent (erred .unknownCommand dispatching) = some [0xE0, 0x00, 0x02, 0x02, 0x04] :=
  ⟨witness_dispatching, by decide, by decide, by decide, by decide, by decide⟩

theorem witness_CounterCountsIncrs : Idle { node [] with cntr := 0xFF } := ⟨by decide, rfl, rfl⟩

theorem witness_SecondAssignIsIgnored :
    Idle State.reset ∧ State.reset.senseIn = .high ∧ State.reset.id = 0xFF ∧ (0xFE : Byte) ≠ 0xFF :=
  ⟨⟨by decide, rfl, rfl⟩, by decide⟩

/-! ## The chain (section 7): an addressed node, then two fresh ones -/

def chain : Chain := { firstSense := .high, nodes := [node [], State.reset, State.reset] }

theorem witness_NodesAreIndependent :
    (Chain.powerOn .high [Config.ref, Config.ref]).nodes[1]? = some { State.powerOn Config.ref with stream := 1 } ∧
    stepNode 1 chain = .next chain := ⟨rfl, rfl⟩

theorem witness_sweptTo : sweptTo 1 chain := by
  refine ⟨by decide, rfl, fun k n h => ?_⟩
  match k, h with
  | 0, h => cases h; exact ⟨rfl, rfl, fun _ => by decide, fun h => absurd h (by decide)⟩
  | 1, h => cases h; exact ⟨rfl, rfl, fun h => absurd h (by decide), fun _ => by decide⟩
  | 2, h => cases h; exact ⟨rfl, rfl, fun h => absurd h (by decide), fun _ => by decide⟩
  | k + 3, h => cases h

theorem witness_OnlyTheNextNodeIsEligible : sweptTo 1 chain ∧ 2 < chain.nodes.length := ⟨witness_sweptTo, by decide⟩

theorem witness_SweepMovesOneNodeFurther :
    sweptTo 1 chain ∧ 1 < chain.nodes.length ∧ (∀ n ∈ chain.nodes, admitted n.cfg = true) ∧ (0x06 : Byte) ≠ unsetId ∧
    1 ∉ [0, 2] := ⟨witness_sweptTo, by decide, by decide, by decide, by decide⟩

theorem witness_ResetRearmsTheChain :
    chain.firstSense = .high ∧ ∀ n ∈ chain.nodes, Idle n ∧ n.cfg.resetCheck = 0xD9 := by
  refine ⟨rfl, fun n h => ?_⟩
  simp only [chain, List.mem_cons, List.not_mem_nil, or_false] at h
  rcases h with rfl | rfl | rfl <;> exact ⟨⟨by decide, rfl, rfl⟩, rfl⟩

/-- The second node's dispatch before any of the first's actions, on either side of `ID <- a`, after all actions but the
last, and after the last. -/
theorem witness_LateDispatchTakesTheSameAddress :
    admitted State.reset.cfg = true ∧ sweptTo 0 { firstSense := .high, nodes := [State.reset, State.reset] } ∧
    (0x06 : Byte) ≠ unsetId ∧
    (([freshReply, .write (.id 0x06)] : List Machine.Action) ++ txAppendAll 0 [0x01] ++ sendReply 0x01 [0x01] ++
      [Machine.Action.port (.senseOut .low)]).length = 17 ∧
    0 ≤ 17 ∧ 1 ≤ 17 ∧ 2 ≤ 17 ∧ 16 ≤ 17 ∧ 17 ≤ 17 := by
  refine ⟨by decide, ⟨by decide, rfl, fun k n h => ?_⟩, by decide⟩
  match k, h with
  | 0, h => cases h; exact ⟨rfl, rfl, fun h => absurd h (by decide), fun _ => by decide⟩
  | 1, h => cases h; exact ⟨rfl, rfl, fun h => absurd h (by decide), fun _ => by decide⟩
  | k + 2, h => cases h

end Sys2Proof.Tests
end

/-! SUPPORT. Proofs of the statements about the scope of the model (spec/00_scope.md): admission (R9), the step as one
transaction (R5), and the independence of a chain's nodes (R274, R290). -/

namespace Sys2Proof.Machine

/-! ## Admission, item by item (R9) -/

/-- A status that a fixed frame sends unstuffed (R9 item 3, R224). -/
theorem statusFrameFits_iff (status : Byte) : statusFrameFits status = true ↔
    (status ≠ syncByte ∧ status ≠ markByte) ∧ (status + 2 ≠ syncByte ∧ status + 2 ≠ markByte) := by
  simp only [statusFrameFits, Bool.and_eq_true, Bool.not_eq_true', reserved_false_iff]

/-- Codes distinct from each other and from a further one (R9 item 4, with the pad `FEAT_PAD`). -/
theorem nodup_append_pad_iff (codes : List Byte) (pad : Byte) :
    (codes ++ [pad]).Nodup ↔ codes.Nodup ∧ ∀ b ∈ codes, b ≠ pad := by
  simp [List.nodup_append]

/-! ## What no action and no step writes -/

/-- What a platform fixes at setup or drives from outside (R35, R191), and the node's stream of draws (log 26), are the
same in both states. -/
structure SameSetup (s t : State) : Prop where
  cfg : t.cfg = s.cfg
  senseIn : t.senseIn = s.senseIn
  instrReady : t.instrReady = s.instrReady
  stream : t.stream = s.stream

/-- What neither effect of a device reset changes (R292, R293). -/
theorem deviceReset_keeps (s : State) :
    deviceReset s = { deviceReset s with
      cfg := s.cfg, rx := s.rx, senseIn := s.senseIn, answers := s.answers, instrReady := s.instrReady,
      out := s.out, stream := s.stream } := by
  unfold deviceReset afterReset; split <;> rfl

/-- Every port action goes out, and leaves alone the inputs, the configuration and the stream (R37). -/
theorem perform_port_keeps (e : PortEvent) (s : State) :
    perform (.port e) s = { perform (.port e) s with
      cfg := s.cfg, rx := s.rx, senseIn := s.senseIn, answers := s.answers, instrReady := s.instrReady,
      out := s.out ++ [e], stream := s.stream } := by
  cases e with
  | devReset => exact deviceReset_keeps _
  | dir | tx | senseOut | call => rfl

theorem perform_sameSetup (a : Action) (s : State) : SameSetup s (perform a s) := by
  cases a with
  | write w => rw [perform_write, applyWrite_keeps]; exact ⟨rfl, rfl, rfl, rfl⟩
  | ret => exact ⟨rfl, rfl, rfl, rfl⟩
  | port e => rw [perform_port_keeps]; exact ⟨rfl, rfl, rfl, rfl⟩

/-- No step writes the configuration, the sense input, the instrument's readiness or the stream. -/
theorem step_sameSetup {s t : State} (h : step s = .next t) : SameSetup s t := by
  cases step_kinds h with
  | acts a rest hc ht =>
    obtain ⟨hcfg, hsense, hready, hstream⟩ := perform_sameSetup a { s with todo := rest }
    exact ⟨hcfg, hsense, hready, hstream⟩
  | holds | pops | completes | writes | lists | returns => exact ⟨rfl, rfl, rfl, rfl⟩

/-! ## One port action -/

theorem perform_port_out (e : PortEvent) (s : State) : (perform (.port e) s).out = s.out ++ [e] := by
  rw [perform_port_keeps]

theorem perform_port_rx (e : PortEvent) (s : State) : (perform (.port e) s).rx = s.rx := by
  rw [perform_port_keeps]

/-- A port action but the device reset changes the trace of the ports and what is its own: `SetDir` the direction,
`SenseOut` the sense output, a call the call under way. -/
theorem perform_port_frame {e : PortEvent} (he : e ≠ .devReset) (s : State) :
    let t := perform (.port e) s
    t = { s with out := t.out, dir := t.dir, senseOut := t.senseOut, inCall := t.inCall } ∧
      (t.dir = s.dir ∨ e = .dir t.dir) ∧ (t.senseOut = s.senseOut ∨ e = .senseOut t.senseOut) ∧
      (t.inCall = s.inCall ∨ ∃ c, e = .call c ∧ t.inCall = some c) := by
  cases e with
  | devReset => exact absurd rfl he
  | dir d => exact ⟨rfl, .inr rfl, .inl rfl, .inl rfl⟩
  | tx b => exact ⟨rfl, .inl rfl, .inl rfl, .inl rfl⟩
  | senseOut l => exact ⟨rfl, .inl rfl, .inr rfl, .inl rfl⟩
  | call c => exact ⟨rfl, .inl rfl, .inl rfl, .inr ⟨c, rfl, rfl⟩⟩

/-- A device reset that keeps the engine only goes out and uses up its draw (R292). -/
theorem perform_devReset_engineKept {s : State} (h : Config.freeResetEffect s.stream s.draws = .engineKept) :
    perform (.port .devReset) s = { s with out := (perform (.port .devReset) s).out, draws := s.draws + 1 } := by
  simp [deviceReset, h, afterReset]

/-! ## A node of a chain -/

/-- A node moves alone: the chain is as it was, or node `k` has become what `f` makes of it. -/
theorem runNode_eq_next {k : Nat} {f : State → Host.Outcome State Fault Refusal} {c d : Chain}
    (h : runNode k f c = .next d) :
    d = c ∨ ∃ n t, c.nodes[k]? = some n ∧ f (sampled c k n) = .next t ∧ d = { c with nodes := c.nodes.set k t } := by
  unfold runNode at h
  split at h
  · exact .inl (Host.Outcome.next.inj h).symm
  · next n hn =>
    split at h
    · next t ht => exact .inr ⟨n, t, hn, ht, (Host.Outcome.next.inj h).symm⟩
    all_goals cases h

/-- The streams of a chain at power-on are numbered as its nodes are (log 26). -/
theorem powerOn_streams (first : Level) (cfgs : List Config) :
    (Chain.powerOn first cfgs).nodes.map State.stream = List.range cfgs.length := by
  apply List.ext_getElem <;> simp [Chain.powerOn]

/-- Replacing an element by one with the same image leaves the list of images as it is. -/
theorem map_stream_set {nodes : List State} {k : Nat} {n t : State} (hn : nodes[k]? = some n)
    (ht : t.stream = n.stream) : (nodes.set k t).map State.stream = nodes.map State.stream := by
  obtain ⟨hk, rfl⟩ := List.getElem?_eq_some_iff.mp hn
  rw [List.map_set, ht, ← List.getElem_map State.stream (h := by simpa using hk), List.set_getElem_self]

/-! ## The statements -/

/-- Settles O7: the admission check taken apart by `admitted_iff`, items 3 and 4 put in the spec's terms. -/
theorem admittedConfigurations : Obligations.AdmittedConfigurations := by
  refine ⟨fun c => (admitted_iff c).trans ⟨fun h => ?_, ?_⟩, fun s => step_unadmitted⟩
  · obtain ⟨hsum, hsum2⟩ := (statusFrameFits_iff _).mp h.sumErr
    obtain ⟨hover, hover2⟩ := (statusFrameFits_iff _).mp h.overflow
    refine ⟨h.codes, h.statuses, ?_, (nodup_append_pad_iff [_, _, _, _] featPad).mp h.feats, ⟨h.rx_two, h.rx_max⟩,
      ⟨h.features, h.idString⟩, h.time_pos, h.time_fits⟩
    simp only [List.forall_mem_cons]
    exact ⟨hsum, hover, hsum2, hover2, by simp⟩
  · rintro ⟨hcodes, hstatuses, hplain, hfeats, ⟨hrx2, hrxMax⟩, ⟨hfeatures, hid⟩, htime, hfits⟩
    simp only [List.forall_mem_cons] at hplain
    obtain ⟨hsum, hover, hsum2, hover2, -⟩ := hplain
    exact {
      codes := hcodes
      statuses := hstatuses
      sumErr := (statusFrameFits_iff _).mpr ⟨hsum, hsum2⟩
      overflow := (statusFrameFits_iff _).mpr ⟨hover, hover2⟩
      feats := (nodup_append_pad_iff [_, _, _, _] featPad).mpr hfeats
      rx_two := hrx2
      rx_max := hrxMax
      features := hfeatures
      idString := hid
      time_pos := htime
      time_fits := hfits }

/-- Settles O16: the kinds of step (`step_kinds`), a listed action taken by its own kind. -/
theorem stepIsOneTransaction : Obligations.StepIsOneTransaction := by
  intro s t h
  obtain ⟨hcfg, hsense, hready, -⟩ := step_sameSetup h
  refine ⟨?_, hcfg, hsense, hready⟩
  cases step_kinds h with
  | pops b rest hy hr hx => exact .inl ⟨b, rest, hx, rfl⟩
  | acts a rest hc ht =>
    cases a with
    | port e =>
      refine .inr (.inl ⟨e, rest, ht, perform_port_out e _, perform_port_rx e _,
        fun he => perform_port_frame he { s with todo := rest }, ?_⟩)
      rintro rfl hkept
      exact perform_devReset_engineKept (s := { s with todo := rest }) hkept
    | write w => exact .inr (.inr (.inl ⟨w, rest, ht, rfl⟩))
    | ret => exact .inr (.inr (.inr (.inl ⟨rest, ht, rfl⟩)))
  | completes hy hr hl => exact .inr (.inr (.inr (.inr (.inl ⟨hr, rfl⟩))))
  | holds | writes | lists | returns => exact .inr (.inr (.inr (.inr (.inr rfl))))

/-- Settles O56: power-on numbers the streams, and a node's step replaces that node alone, its stream kept. -/
theorem nodesAreIndependent : Obligations.NodesAreIndependent := by
  refine ⟨fun first cfgs k n hn => ?_, fun first cfgs => ⟨?_, ?_⟩, fun c d k h => ?_⟩
  · rw [Chain.powerOn, List.getElem?_mapIdx] at hn
    obtain ⟨c, hc, rfl⟩ := Option.map_eq_some_iff.mp hn
    exact ⟨c, hc, rfl⟩
  · exact List.length_mapIdx
  · rw [powerOn_streams]; exact List.nodup_range
  · rcases runNode_eq_next h with rfl | ⟨n, t, hn, ht, rfl⟩
    · exact ⟨rfl, rfl, fun _ _ => rfl⟩
    · exact ⟨rfl, map_stream_set hn (step_sameSetup ht).stream, fun j hj => List.getElem?_set_ne hj.symm⟩

end Sys2Proof.Machine

/-! SUPPORT. Proofs of the statements about the state (spec/10_state.md): power-on (R36, R290), the invariant and its
step lemma (R25 to R31, R50, R113), the device reset (R292), and who writes `ID`, `SENSE_OUT` and `CNTR`
(R22 to R24, R191). -/

namespace Sys2Proof.Machine

/-! ## What a payload byte comes to -/

/-- Everything a payload byte `v` can come to inside a frame, rule by rule (R133 to R138). -/
inductive ReceiveCase (v : Byte) (s : State) : Host.Outcome State Fault Refusal → Prop where
  /-- a frame to the master is dropped -/
  | toMaster (hr : s.rstate = .gotSync) (hm : v = masterAddr) :
      ReceiveCase v s (.next (enqueue [.write (.sum (s.sum + v)), .write (.dest v), .ret] s))
  /-- a frame to another node is dropped -/
  | toOther (hr : s.rstate = .gotSync) :
      ReceiveCase v s (.next (enqueue
        [.write (.sum (s.sum + v)), .write (.dest v), .write (.bcast (broadcastFlag v)), .ret] s))
  /-- a frame to this node or to all goes on -/
  | routed (hr : s.rstate = .gotSync) (hm : v ≠ masterAddr) (ha : acceptsDest s v = true) :
      ReceiveCase v s (.next (enqueue [.write (.sum (s.sum + v)), .write (.dest v),
        .write (.bcast (broadcastFlag v)), .write (.rstate .readCount)] s))
  /-- a broadcast frame over capacity is dropped -/
  | tooLongForAll (hr : s.rstate = .readCount) :
      ReceiveCase v s (.next (enqueue [.write (.sum (s.sum + v)), .write (.count v), .ret] s))
  /-- a directed frame over capacity is to be reported -/
  | tooLong (hr : s.rstate = .readCount) (ho : overCapacity s v = true) (hb : s.bcast = false) :
      ReceiveCase v s (.next (enqueue
        [.write (.sum (s.sum + v)), .write (.count v), .write (.rstate .overflow)] s))
  /-- a length within capacity -/
  | counted (hr : s.rstate = .readCount) (ho : overCapacity s v = false) :
      ReceiveCase v s (.next (enqueue
        [.write (.sum (s.sum + v)), .write (.count v), .write (.rstate .readCommand)] s))
  /-- the command byte -/
  | commanded (hr : s.rstate = .readCommand) :
      ReceiveCase v s (.next (enqueue
        [.write (.sum (s.sum + v)), .write (.cmd v), .write (.ptr 0), .write (.rstate .readBody)] s))
  /-- a body byte inside the buffer -/
  | stored (hr : s.rstate = .readBody) (hp : s.ptr.toNat < s.cfg.rxBufCap) :
      ReceiveCase v s (.next (enqueue
        [.write (.sum (s.sum + v)), .write (.rxBuf s.ptr.toNat v), .write (.ptr (s.ptr + 1))] s))
  /-- a body byte outside the buffer -/
  | outside (hr : s.rstate = .readBody) : ReceiveCase v s (.fault .rxBufIndex)
  /-- the right checksum: the frame's command is dispatched -/
  | dispatches (hr : s.rstate = .verifySum) :
      ReceiveCase v s (exec (decodeCommand s.cfg s.cmd (frameBody s)) (accumulate v s))
  /-- a wrong checksum is reported -/
  | badSum (hr : s.rstate = .verifySum) : ReceiveCase v s (statusFrame s.cfg.statusSumErr (accumulate v s))

theorem receive_cases (v : Byte) {s : State} (hr : InFrame s) : ReceiveCase v s (receive v s).outcome := by
  obtain ⟨hw, ho⟩ := hr
  cases hr : s.rstate with
  | waiting => exact absurd hr hw
  | overflow => exact absurd hr ho
  | gotSync =>
    simp only [receive, hr, accumulate, takeError, enqueue_enqueue]
    split
    · next hm => exact .toMaster hr hm
    · next hm =>
      split
      · next ha => exact .routed hr hm ha
      · exact .toOther hr
  | readCount =>
    simp only [receive, hr, accumulate, enqueue_enqueue]
    split
    · next ho =>
      cases hb : s.bcast
      · simpa [takeError, hb] using ReceiveCase.tooLong hr ho hb
      · simpa [takeError, hb] using ReceiveCase.tooLongForAll hr
    · next ho => exact .counted hr (Bool.eq_false_iff.mpr ho)
  | readCommand => simpa [receive, hr, accumulate] using ReceiveCase.commanded hr
  | readBody =>
    simp only [receive, hr, storeBody, Fetched.outcome_done]
    split
    · next hp => simpa [accumulate] using ReceiveCase.stored hr hp
    · exact .outside hr
  | verifySum =>
    simp only [receive, hr]
    split
    · exact .dispatches hr
    · exact .badSum hr

/-! ## The device reset (R292) -/

/-- The action restarts the node: a device reset whose drawn effect is `POWER_ON` (R292). -/
def Action.Restarts (s : State) (a : Action) : Prop :=
  a = .port .devReset ∧ Config.freeResetEffect s.stream s.draws = .powerOn

theorem perform_restarts {a : Action} {s : State} (h : a.Restarts s) :
    perform a s = restartNode { s with out := s.out ++ [.devReset], draws := s.draws + 1 } := by
  obtain ⟨rfl, he⟩ := h
  rw [perform_devReset, deviceReset, he]; rfl

/-- A device reset that does not restart the node only goes out and uses up its draw. -/
theorem perform_devReset_kept {s : State} (h : ¬Action.Restarts s (.port .devReset)) :
    perform (.port .devReset) s = { s with out := s.out ++ [.devReset], draws := s.draws + 1 } := by
  have he : Config.freeResetEffect s.stream s.draws = .engineKept := by
    cases he : Config.freeResetEffect s.stream s.draws with
    | engineKept => rfl
    | powerOn => exact absurd ⟨rfl, he⟩ h
  rw [perform_devReset_engineKept he, perform_port_out]

/-! ## One action, where it does not restart the node -/

/-- An action does the same whatever is to do after it. -/
theorem perform_with_todo {a : Action} {s : State} (h : ¬a.Restarts s) (l : List Action) :
    perform a { s with todo := l } = { perform a s with todo := l } := by
  cases a with
  | write w => exact perform_todo rfl s l
  | ret => rfl
  | port e =>
    cases e with
    | devReset => rw [perform_devReset_kept h, perform_devReset_kept (s := { s with todo := l }) h]
    | dir | tx | senseOut | call => rfl

theorem perform_popped {a : Action} {s : State} (h : ¬a.Restarts s) : (perform a s).popped = s.popped := by
  cases a with
  | write w => rw [perform_write, applyWrite_keeps]
  | ret => rfl
  | port e =>
    cases e with
    | devReset => rw [perform_devReset_kept h]
    | dir | tx | senseOut | call => rfl

/-- Only an instrument call brings a call under way. -/
theorem perform_inCall {a : Action} {s : State} (h : ¬a.Restarts s) (hc : ∀ c, a ≠ .port (.call c)) :
    (perform a s).inCall = s.inCall := by
  cases a with
  | write w => rw [perform_write, applyWrite_keeps]
  | ret => rfl
  | port e =>
    cases e with
    | devReset => rw [perform_devReset_kept h]
    | call c => exact absurd rfl (hc c)
    | dir | tx | senseOut => rfl

theorem bracketed_of_last {d : Direction} {rest : List Action} (h : (d == .rx && rest.isEmpty) = true) :
    bracketed d rest = true := by
  obtain ⟨hd, hrest⟩ := Bool.and_eq_true_iff.mp h
  rw [List.isEmpty_iff.mp hrest]; exact hd

/-- Doing the next action leaves the direction bracket of the rest (R225). -/
theorem bracketed_perform {a : Action} {rest : List Action} {s : State} (h : ¬a.Restarts s)
    (hb : bracketed s.dir (a :: rest) = true) : bracketed (perform a s).dir rest = true := by
  cases a with
  | write w => rw [perform_write, applyWrite_keeps]; exact hb
  | ret => exact bracketed_of_last hb
  | port e =>
    cases e with
    | devReset => rw [perform_devReset_kept h]; exact (Bool.and_eq_true_iff.mp hb).2
    | dir d => exact hb
    | tx | senseOut => exact (Bool.and_eq_true_iff.mp hb).2
    | call c => exact bracketed_of_last hb

/-- A step that does the next action leaves what the node comes to once everything is done. -/
theorem settled_perform {a : Action} {rest : List Action} {s : State} (h : ¬a.Restarts s) (ht : s.todo = a :: rest) :
    settled { perform a s with todo := rest } = settled s := by
  have e : perform a { s with todo := [] } = { perform a s with todo := [] } := perform_with_todo h []
  rw [settled, settled, ht, performAll_cons, e]

/-! ## The buffers (R50, R51, R53) -/

/-- Both buffers are in canonical form and within their sizes. -/
def BuffersFit (s : State) : Prop :=
  s.rxBuf.wf = true ∧ s.txBuf.wf = true ∧
    s.rxBuf.below s.cfg.rxBufCap = true ∧ s.txBuf.below s.cfg.txBufCap = true

theorem Inv.buffersFit {s : State} (h : Inv s) : BuffersFit s :=
  ⟨h.rxBuf_wf, h.txBuf_wf, h.rxBuf_below, h.txBuf_below⟩

/-- A restart fills both buffers with draws, as many as they hold (R36). -/
theorem restartNode_buffersFit (s : State) : BuffersFit (restartNode s) :=
  ⟨Memory.wf_writeAll _ _ _ rfl, Memory.wf_writeAll _ _ _ rfl,
    Memory.below_writeAll _ _ (by simp [drawBytes_length, restartNode]) rfl,
    Memory.below_writeAll _ _ (by simp [drawBytes_length, restartNode]) rfl⟩

theorem applyWrite_buffersFit {w : Write} {s : State} (hw : Action.inBuffers s.cfg (.write w) = true)
    (h : BuffersFit s) : BuffersFit (applyWrite w s) := by
  obtain ⟨hrx, htx, hrxBelow, htxBelow⟩ := h
  cases w with
  | rxBuf a v =>
    exact ⟨Memory.wf_write _ a v hrx, htx, Memory.below_write _ v (of_decide_eq_true hw) hrxBelow, htxBelow⟩
  | txBuf a v =>
    exact ⟨hrx, Memory.wf_write _ a v htx, hrxBelow, Memory.below_write _ v (of_decide_eq_true hw) htxBelow⟩
  | id | cntr | rstate | sum | dest | bcast | count | cmd | ptr | tlen | tsum | addTsum =>
    exact ⟨hrx, htx, hrxBelow, htxBelow⟩

/-- An action inside the buffers keeps them so. -/
theorem perform_buffersFit {a : Action} {s : State} (h : ¬a.Restarts s) (hi : a.inBuffers s.cfg = true)
    (hs : BuffersFit s) : BuffersFit (perform a s) := by
  cases a with
  | write w => exact applyWrite_buffersFit hi hs
  | ret => exact hs
  | port e =>
    cases e with
    | devReset => rw [perform_devReset_kept h]; exact hs
    | dir | tx | senseOut | call => exact hs

/-! ## The invariant: a listed action -/

/-- A node just restarted meets the invariant, whatever it was before (R290, R292). -/
theorem inv_restartNode (s : State) : Inv (restartNode s) := by
  obtain ⟨hrx, htx, hrxBelow, htxBelow⟩ := restartNode_buffersFit s
  exact ⟨rfl, fun _ => rfl, hrx, htx, hrxBelow, htxBelow, rfl, rfl, rfl⟩

/-- The step that does the next action keeps the invariant. -/
theorem Inv.performNext {s : State} {a : Action} {rest : List Action} (h : Inv s) (ht : s.todo = a :: rest) :
    Inv (perform a { s with todo := rest }) := by
  by_cases hr : a.Restarts s
  · rw [perform_restarts (s := { s with todo := rest }) hr]
    exact inv_restartNode _
  have hb : bracketed s.dir (a :: rest) = true := ht ▸ h.bracket
  have hi : (a :: rest).all (Action.inBuffers s.cfg) = true := ht ▸ h.inBuffers
  obtain ⟨hia, hirest⟩ := Bool.and_eq_true_iff.mp hi
  obtain ⟨hrx, htx, hrxBelow, htxBelow⟩ := perform_buffersFit hr hia h.buffersFit
  have hcfg : (perform a s).cfg = s.cfg := (perform_sameSetup a s).cfg
  have busy : ¬(s.popped ≠ none ∨ s.inCall ≠ none) := fun hne => by simp [h.alone hne] at ht
  obtain ⟨hp, hc⟩ := not_or.mp busy
  rw [perform_with_todo hr]
  refine ⟨bracketed_perform hr hb, fun hne => ?_, hrx, htx, hrxBelow, htxBelow, ?_, ?_⟩
  · rcases hne with hne | hne
    · exact absurd ((perform_popped hr).trans (not_not.mp hp)) hne
    · by_cases hcall : ∃ c, a = .port (.call c)
      · obtain ⟨c, rfl⟩ := hcall
        simpa [bracketed] using (Bool.and_eq_true_iff.mp hb).2
      · exact absurd ((perform_inCall hr (not_exists.mp hcall)).trans (not_not.mp hc)) hne
  · change rest.all (Action.inBuffers (perform a s).cfg) = true
    rw [hcfg]; exact hirest
  · rw [settled_perform hr ht]; exact h.frame

/-! ## The invariant: a listing -/

/-- What the invariant gives of a node with nothing left to do, whatever byte or call it stands at. -/
def Rested (s : State) : Prop := s.dir = .rx ∧ s.todo = [] ∧ BuffersFit s

theorem Inv.rested {s : State} (h : Inv s) (ht : s.todo = []) : Rested s := by
  have hb := h.bracket
  rw [ht] at hb
  exact ⟨beq_iff_eq.mp hb, ht, h.buffersFit⟩

theorem Inv.frame_rested {s : State} (h : Inv s) (ht : s.todo = []) : FrameInv s := settled_nil ht ▸ h.frame

theorem settled_enqueue {s : State} (ht : s.todo = []) (as : List Action) :
    settled (enqueue as s) = performAll as s := by
  rw [settled, enqueue_todo, ht, List.nil_append]
  congr 1
  rw [enqueue, ← ht]

/-- A node with nothing left to do, and what is in flight as it should be, meets the invariant. -/
theorem Rested.inv {s : State} (h : Rested s) (hf : FrameInv s) : Inv s := by
  obtain ⟨hd, ht, hrx, htx, hrxBelow, htxBelow⟩ := h
  exact ⟨by rw [hd, ht]; rfl, fun _ => ht, hrx, htx, hrxBelow, htxBelow, by rw [ht]; rfl, (settled_nil ht).symm ▸ hf⟩

/-- Listing actions from rest keeps the invariant, where they keep the bracket and the buffers, and come to a frame in
flight that is as it should be. -/
theorem Rested.inv_enqueue {s : State} (h : Rested s) (hp : s.popped = none) (hc : s.inCall = none)
    {as : List Action} (hb : bracketed .rx as = true) (hi : as.all (Action.inBuffers s.cfg) = true)
    (hf : FrameInv (performAll as s)) : Inv (enqueue as s) := by
  obtain ⟨hd, ht, hrx, htx, hrxBelow, htxBelow⟩ := h
  have he : (enqueue as s).todo = as := by rw [enqueue_todo, ht, List.nil_append]
  refine ⟨?_, fun hne => ?_, hrx, htx, hrxBelow, htxBelow, ?_, ?_⟩
  · rw [he, enqueue_dir, hd]; exact hb
  · rcases hne with hne | hne
    · exact absurd hp hne
    · exact absurd hc hne
  · rw [he]; exact hi
  · rw [settled_enqueue ht]; exact hf

/-- A tick that has returned has no frame in flight (R141). -/
theorem frameInv_ret {as : List Action} {s : State} (hp : as.all Action.isPlain = true) (he : s.escape = false)
    (hc : s.inCall = none) : FrameInv (performAll (as ++ [.ret]) s) := by
  rw [performAll_append, performAll_keeps hp]
  exact ⟨he, hc⟩

/-- A list of plain actions that ends in the tick's return, listed from rest. -/
theorem Rested.inv_ret {s : State} (h : Rested s) (hp : s.popped = none) (hc : s.inCall = none)
    (he : s.escape = false) {as : List Action} (hb : bracketed .rx (as ++ [.ret]) = true)
    (hi : (as ++ [Action.ret]).all (Action.inBuffers s.cfg) = true) (hplain : as.all Action.isPlain = true) :
    Inv (enqueue (as ++ [.ret]) s) :=
  h.inv_enqueue hp hc hb hi (frameInv_ret (s := s) hplain he hc)

/-- A fixed status frame, listed from rest (R224). -/
theorem Rested.inv_statusFrame {status : Byte} {ws : List Write} {s t : State} (h : Rested s) (hp : s.popped = none)
    (hc : s.inCall = none) (he : s.escape = false) (hi : (ws.map Action.write).all (Action.inBuffers s.cfg) = true)
    (ht : statusFrame status (enqueue (ws.map .write) s) = .next t) : Inv t := by
  obtain ⟨-, rfl⟩ := listIf_eq_next ht
  rw [enqueue_enqueue, ← List.append_assoc]
  refine h.inv_ret hp hc he ?_ ?_ ?_
  · rw [List.append_assoc, bracketed_writes]; rfl
  · rw [List.append_assoc, List.all_append, hi]; rfl
  · rw [List.all_append, writes_plain, sendStatusFrame_plain]; rfl

/-! ## The frame in flight, state by state -/

theorem frameInv_gotSync {s : State} (hr : s.rstate = .gotSync) : FrameInv s ↔ s.sum = 0 ∧ s.inCall = none := by
  simp only [FrameInv, hr]

theorem frameInv_readCount {s : State} (hr : s.rstate = .readCount) :
    FrameInv s ↔ Routed s ∧ s.sum = s.dest ∧ s.inCall = none := by
  simp only [FrameInv, hr]

theorem frameInv_readCommand {s : State} (hr : s.rstate = .readCommand) :
    FrameInv s ↔ Routed s ∧ overCapacity s s.count = false ∧ s.sum = s.dest + s.count ∧ s.inCall = none := by
  simp only [FrameInv, hr]

theorem frameInv_overflow {s : State} (hr : s.rstate = .overflow) :
    FrameInv s ↔ Routed s ∧ overCapacity s s.count = true ∧ s.bcast = false ∧ s.escape = false ∧ s.inCall = none ∧
      s.popped = none := by
  simp only [FrameInv, hr]

theorem frameInv_readBody {s : State} (hr : s.rstate = .readBody) :
    FrameInv s ↔ Routed s ∧ overCapacity s s.count = false ∧ s.ptr.toNat ≤ bodyLen s.count ∧ s.inCall = none ∧
      (s.popped ≠ none → s.ptr.toNat < bodyLen s.count) ∧
      s.sum = s.dest + s.count + s.cmd + byteSum (s.rxBuf.prefixBytes s.ptr.toNat) := by
  simp only [FrameInv, hr]

theorem frameInv_verifySum {s : State} (hr : s.rstate = .verifySum) :
    FrameInv s ↔ overCapacity s s.count = false ∧ s.ptr.toNat = bodyLen s.count ∧
      (s.inCall = none →
        Routed s ∧ s.sum = s.dest + s.count + s.cmd + byteSum (s.rxBuf.prefixBytes s.ptr.toNat)) ∧
      (s.inCall ≠ none → s.escape = false ∧ s.popped = none ∧ s.tlen = 0) := by
  simp only [FrameInv, hr]

theorem frameInv_waiting {s : State} (hr : s.rstate = .waiting) :
    FrameInv s ↔ s.escape = false ∧ s.inCall = none := by
  simp only [FrameInv, hr]

/-! ## The invariant: a popped byte -/

/-- The byte just popped has no part in the frame in flight, nor has a pending `MARK` inside a frame. -/
theorem FrameInv.unpopped {s : State} (h : FrameInv s) (hc : s.inCall = none) {e : Bool}
    (he : ¬InFrame s → e = s.escape) : FrameInv { s with popped := none, escape := e } := by
  cases hr : s.rstate with
  | waiting =>
    obtain ⟨hesc, hcall⟩ := (frameInv_waiting hr).mp h
    exact (frameInv_waiting rfl).mpr ⟨(he fun hf => hf.1 hr).trans hesc, hcall⟩
  | overflow =>
    obtain ⟨hrouted, hcap, hb, hesc, hcall, -⟩ := (frameInv_overflow hr).mp h
    exact (frameInv_overflow rfl).mpr ⟨hrouted, hcap, hb, (he fun hf => hf.2 hr).trans hesc, hcall, rfl⟩
  | gotSync => exact (frameInv_gotSync rfl).mpr ((frameInv_gotSync hr).mp h)
  | readCount => exact (frameInv_readCount rfl).mpr ((frameInv_readCount hr).mp h)
  | readCommand => exact (frameInv_readCommand rfl).mpr ((frameInv_readCommand hr).mp h)
  | readBody =>
    obtain ⟨hrouted, hcap, hptr, hcall, -, hsum⟩ := (frameInv_readBody hr).mp h
    exact (frameInv_readBody rfl).mpr ⟨hrouted, hcap, hptr, hcall, fun hp => absurd rfl hp, hsum⟩
  | verifySum =>
    obtain ⟨hcap, hptr, hframe, -⟩ := (frameInv_verifySum hr).mp h
    exact (frameInv_verifySum rfl).mpr ⟨hcap, hptr, hframe, fun hcall => absurd hc hcall⟩

/-- A device reset leaves neither a pending `MARK` nor a call where there was none. -/
theorem deviceReset_ends {s : State} (he : s.escape = false) (hc : s.inCall = none) :
    (deviceReset s).escape = false ∧ (deviceReset s).inCall = none := by
  unfold deviceReset afterReset
  split
  · exact ⟨he, hc⟩
  · exact ⟨rfl, rfl⟩

/-- What a dispatch lists comes to a returned tick, or to an instrument call in `VERIFY_SUM` (R141, R193). -/
theorem Agenda.frameInv {c : Config} {as : List Action} (h : Agenda c as) {s : State} (hr : s.rstate = .verifySum)
    (hcap : overCapacity s s.count = false) (hptr : s.ptr.toNat = bodyLen s.count) (hp : s.popped = none)
    (he : s.escape = false) (hc : s.inCall = none) : FrameInv (performAll as s) := by
  rcases h.shape with ⟨pre, rfl, hplain, -⟩ | rfl | ⟨k, rfl⟩
  · exact frameInv_ret hplain he hc
  · exact deviceReset_ends he hc
  · have hr' : (performAll [freshReply, .port (.call k)] s).rstate = .verifySum := hr
    exact (frameInv_verifySum hr').mpr ⟨hcap, hptr, nofun, fun _ => ⟨he, hp, rfl⟩⟩

/-- The frame in flight after its destination (R133). -/
theorem frameInv_routed {s : State} {v : Byte} (hf : FrameInv s) (hr : s.rstate = .gotSync) (hm : v ≠ masterAddr)
    (ha : acceptsDest s v = true) :
    FrameInv { s with sum := s.sum + v, dest := v, bcast := broadcastFlag v, rstate := .readCount } := by
  obtain ⟨hsum, hcall⟩ := (frameInv_gotSync hr).mp hf
  have hnext : s.sum + v = v := by rw [hsum, zero_add]
  exact ⟨⟨hm, rfl, ha⟩, hnext, hcall⟩

/-- The frame in flight after a length over capacity, where it is to be reported (R134, R137). -/
theorem frameInv_tooLong {s : State} {v : Byte} (hf : FrameInv s) (hr : s.rstate = .readCount)
    (ho : overCapacity s v = true) (hb : s.bcast = false) (hp : s.popped = none) (he : s.escape = false) :
    FrameInv { s with sum := s.sum + v, count := v, rstate := .overflow } := by
  obtain ⟨hrouted, -, hcall⟩ := (frameInv_readCount hr).mp hf
  exact ⟨hrouted, ho, hb, he, hcall, hp⟩

/-- The frame in flight after a length within capacity (R134). -/
theorem frameInv_counted {s : State} {v : Byte} (hf : FrameInv s) (hr : s.rstate = .readCount)
    (ho : overCapacity s v = false) :
    FrameInv { s with sum := s.sum + v, count := v, rstate := .readCommand } := by
  obtain ⟨hrouted, hsum, hcall⟩ := (frameInv_readCount hr).mp hf
  exact ⟨hrouted, ho, congrArg (· + v) hsum, hcall⟩

/-- The frame in flight after its command byte, with no body byte yet (R135). -/
theorem frameInv_commanded {s : State} (v : Byte) (hf : FrameInv s) (hr : s.rstate = .readCommand)
    (hp : s.popped = none) :
    FrameInv { s with sum := s.sum + v, cmd := v, ptr := 0, rstate := .readBody } := by
  obtain ⟨hrouted, hcap, hsum, hcall⟩ := (frameInv_readCommand hr).mp hf
  have hnext : s.sum + v = s.dest + s.count + v + byteSum [] := by rw [hsum, byteSum_nil, add_zero]
  exact ⟨hrouted, hcap, Nat.zero_le _, hcall, fun hne => absurd hp hne, hnext⟩

/-- The frame in flight after one more body byte (R113, R136). -/
theorem frameInv_stored {s : State} (v : Byte) (hf : FrameInv s) (hr : s.rstate = .readBody) (hp : s.popped = none)
    (hlt : s.ptr.toNat < bodyLen s.count) :
    FrameInv { s with sum := s.sum + v, rxBuf := s.rxBuf.write s.ptr.toNat v, ptr := s.ptr + 1 } := by
  obtain ⟨hrouted, hcap, -, hcall, -, hsum⟩ := (frameInv_readBody hr).mp hf
  have hnext : (s.ptr + 1).toNat = s.ptr.toNat + 1 := by
    have hlen : bodyLen s.count ≤ 253 := by have := s.count.isLt; simp only [bodyLen]; omega
    rw [BitVec.toNat_add, show (1 : Byte).toNat = 1 from rfl]; omega
  refine (frameInv_readBody (by exact hr)).mpr ⟨hrouted, hcap, ?_, hcall, fun hne => absurd hp hne, ?_⟩
  · change (s.ptr + 1).toNat ≤ bodyLen s.count
    omega
  · change s.sum + v = s.dest + s.count + s.cmd +
      byteSum ((s.rxBuf.write s.ptr.toNat v).prefixBytes (s.ptr + 1).toNat)
    rw [hnext, Memory.prefixBytes_succ, Memory.prefixBytes_write _ _ le_rfl, Memory.read_write_same, byteSum_append,
      hsum]
    simp [BitVec.add_assoc]

/-- A command dispatched from rest, with the checksum byte still to be added to `SUM` (R138, R170). -/
theorem Rested.inv_dispatch {i : Instr} {v : Byte} {s t : State} (h : Rested s) (hf : FrameInv s)
    (hr : s.rstate = .verifySum) (hp : s.popped = none) (hc : s.inCall = none) (he : s.escape = false)
    (hw : i.isWire = false) (ht : exec i (accumulate v s) = .next t) : Inv t := by
  obtain ⟨hcap, hptr, -, -⟩ := (frameInv_verifySum hr).mp hf
  obtain ⟨as, he', hag⟩ := exec_lists hw ht
  have hlist : t = enqueue (.write (.sum (s.sum + v)) :: as) { s with draws := t.draws, answers := t.answers } := by
    rw [he']; simp [accumulate, enqueue]
  rw [hlist]
  have hrest : Rested { s with draws := t.draws, answers := t.answers } := h
  exact hrest.inv_enqueue hp hc hag.bracketed hag.inBuffers (hag.frameInv hr hcap hptr hp he hc)

/-- Whatever a payload byte comes to, listed from rest, keeps the invariant (R133 to R138). -/
theorem Rested.inv_receive {v : Byte} {s t : State} (h : Rested s) (hf : FrameInv s) (hfr : InFrame s)
    (hp : s.popped = none) (hc : s.inCall = none) (he : s.escape = false)
    (hlt : s.rstate = .readBody → s.ptr.toNat < bodyLen s.count) (ht : (receive v s).outcome = .next t) : Inv t := by
  have hcase := receive_cases v hfr
  rw [ht] at hcase
  generalize ho : Host.Outcome.next t = o at hcase
  cases hcase with
  | toMaster | tooLongForAll =>
    cases ho
    exact h.inv_ret (as := [.write _, .write _]) hp hc he rfl rfl rfl
  | toOther =>
    cases ho
    exact h.inv_ret (as := [.write _, .write _, .write _]) hp hc he rfl rfl rfl
  | routed hr hm ha => cases ho; exact h.inv_enqueue hp hc rfl rfl (frameInv_routed (s := s) hf hr hm ha)
  | tooLong hr hover hb => cases ho; exact h.inv_enqueue hp hc rfl rfl (frameInv_tooLong (s := s) hf hr hover hb hp he)
  | counted hr hfits => cases ho; exact h.inv_enqueue hp hc rfl rfl (frameInv_counted (s := s) hf hr hfits)
  | commanded hr => cases ho; exact h.inv_enqueue hp hc rfl rfl (frameInv_commanded (s := s) v hf hr hp)
  | stored hr hptr =>
    cases ho
    refine h.inv_enqueue hp hc rfl ?_ (frameInv_stored (s := s) v hf hr hp (hlt hr))
    simp [Action.inBuffers, hptr]
  | outside hr => cases ho
  | dispatches hr => exact h.inv_dispatch hf hr hp hc he (decodeCommand_isWire _ _ _) ho.symm
  | badSum hr => exact h.inv_statusFrame (ws := [_]) hp hc he rfl ho.symm

/-! ## The invariant: every step -/

/-- A step that comes to a next state is of a node with an admitted configuration, and so one of the cases (R9). -/
theorem stepCase_of_next {s t : State} (h : step s = .next t) : StepCase s (.next t) := by
  have ha : admitted s.cfg = true := by
    by_contra ha
    rw [step_unadmitted (Bool.eq_false_iff.mpr ha)] at h
    cases h
  rw [← h]
  exact step_cases ha

/-- A call under way stands in `VERIFY_SUM`, with no `MARK` pending and no byte popped (R138, R193). -/
theorem FrameInv.of_inCall {s : State} (h : FrameInv s) {c : Call} (hc : s.inCall = some c) :
    s.escape = false ∧ s.popped = none := by
  have hne : s.inCall ≠ none := by simp [hc]
  cases hr : s.rstate with
  | verifySum =>
    obtain ⟨-, -, -, hcall⟩ := (frameInv_verifySum hr).mp h
    obtain ⟨he, hp, -⟩ := hcall hne
    exact ⟨he, hp⟩
  | waiting | gotSync | readCount | readCommand | overflow | readBody =>
    simp only [FrameInv, hr] at h
    exact absurd (by tauto) hne

/-- A pop leaves the frame in flight as it should be, in a state that pops (R131 to R138). -/
theorem frameInv_justPopped {s : State} (h : FrameInv s) (hc : s.inCall = none)
    (hr : s.rstate = .waiting ∨ Decoding s) (b : Byte) (rest : List Byte) : FrameInv (justPopped b rest s) := by
  rcases hr with hr | hr | hr | hr | ⟨hr, hlt⟩ | hr
  · exact (frameInv_waiting (s := justPopped b rest s) hr).mpr ((frameInv_waiting hr).mp h)
  · exact (frameInv_gotSync (s := justPopped b rest s) hr).mpr ((frameInv_gotSync hr).mp h)
  · exact (frameInv_readCount (s := justPopped b rest s) hr).mpr ((frameInv_readCount hr).mp h)
  · exact (frameInv_readCommand (s := justPopped b rest s) hr).mpr ((frameInv_readCommand hr).mp h)
  · obtain ⟨hrouted, hcap, hptr, hcall, -, hsum⟩ := (frameInv_readBody hr).mp h
    exact (frameInv_readBody (s := justPopped b rest s) hr).mpr ⟨hrouted, hcap, hptr, hcall, fun _ => hlt, hsum⟩
  · obtain ⟨hcap, hptr, hframe, -⟩ := (frameInv_verifySum hr).mp h
    exact (frameInv_verifySum (s := justPopped b rest s) hr).mpr ⟨hcap, hptr, hframe, fun hne => absurd hc hne⟩

/-- The end of `READ_BODY`: the body is complete (R136). -/
theorem FrameInv.completed {s : State} (h : FrameInv s) (hc : s.inCall = none) (hr : s.rstate = .readBody)
    (hl : bodyLen s.count ≤ s.ptr.toNat) : FrameInv { s with rstate := .verifySum } := by
  obtain ⟨hrouted, hcap, hptr, -, -, hsum⟩ := (frameInv_readBody hr).mp h
  exact ⟨hcap, Nat.le_antisymm hptr hl, fun _ => ⟨hrouted, hsum⟩, fun hne => absurd hc hne⟩

/-- `OVERFLOW` has no `MARK` pending (R137). -/
theorem FrameInv.escape_of_overflow {s : State} (h : FrameInv s) (hr : s.rstate = .overflow) : s.escape = false := by
  obtain ⟨-, -, -, he, -⟩ := (frameInv_overflow hr).mp h
  exact he

/-- A byte popped in `READ_BODY` is a body byte (R31, R136). -/
theorem FrameInv.ptr_lt {s : State} (h : FrameInv s) (hp : s.popped ≠ none) (hr : s.rstate = .readBody) :
    s.ptr.toNat < bodyLen s.count := by
  obtain ⟨-, -, -, -, hlt, -⟩ := (frameInv_readBody hr).mp h
  exact hlt hp

/-- Settles O12, case by case of what a step can come to (`step_cases`). -/
theorem stepKeepsInv : Obligations.StepKeepsInv := by
  intro s t h hstep
  have hcase := stepCase_of_next hstep
  generalize ho : Host.Outcome.next t = o at hcase
  cases hcase with
  | holds _ => cases ho; exact h
  | acts a rest _ ht => cases ho; exact h.performNext ht
  | returns c hc hr =>
    have ht : s.todo = [] := h.alone (.inr (by simp [hc]))
    obtain ⟨he, hp⟩ := (h.frame_rested ht).of_inCall hc
    obtain ⟨as, hlist, hag, hplain⟩ := callReturn_lists ho.symm
    have hrest : Rested { s with inCall := none, draws := t.draws, answers := t.answers } := h.rested ht
    rw [hlist]
    exact hrest.inv_ret hp rfl he hag.bracketed hag.inBuffers hplain
  | overflows hy hr =>
    obtain ⟨⟨-, hc, ht⟩, hp⟩ := hy
    have he := (h.frame_rested ht).escape_of_overflow hr
    exact (h.rested ht).inv_statusFrame (ws := []) hp hc he rfl (by simpa [reportOverflow] using ho.symm)
  | completes hy hr hl =>
    obtain ⟨⟨-, hc, ht⟩, -⟩ := hy
    cases ho
    have hrest : Rested { s with rstate := .verifySum } := h.rested ht
    exact hrest.inv ((h.frame_rested ht).completed hc hr hl)
  | pops b rest hy hr _ =>
    obtain ⟨⟨-, hc, ht⟩, -⟩ := hy
    cases ho
    have hrest : Rested (justPopped b rest s) := h.rested ht
    exact hrest.inv (frameInv_justPopped (h.frame_rested ht) hc hr b rest)
  | starts hy hp hr =>
    obtain ⟨-, hc, ht⟩ := hy
    cases ho
    have hrest : Rested { s with popped := none, escape := false } := h.rested ht
    exact hrest.inv_enqueue rfl hc rfl rfl ⟨rfl, hc⟩
  | discards b hy hp hr =>
    obtain ⟨-, hc, ht⟩ := hy
    cases ho
    have hrest : Rested { s with popped := none } := h.rested ht
    exact hrest.inv ((h.frame_rested ht).unpopped hc fun _ => rfl)
  | marks hy hp hr _ =>
    obtain ⟨-, hc, ht⟩ := hy
    cases ho
    have hrest : Rested { s with popped := none, escape := true } := h.rested ht
    exact hrest.inv ((h.frame_rested ht).unpopped hc fun hn => absurd hr hn)
  | receives b v hy hp hr _ =>
    obtain ⟨-, hc, ht⟩ := hy
    have hf := h.frame_rested ht
    have hrest : Rested { s with popped := none, escape := false } := h.rested ht
    exact hrest.inv_receive (hf.unpopped hc fun hn => absurd hr hn) hr rfl hc rfl
      (hf.ptr_lt (by simp [hp])) ho.symm

/-! ## Power-on and the device reset -/

/-- Settles O8: the fields of `State.powerOn`, and the reference configuration for the reset state. -/
theorem powerOnValues : Obligations.PowerOnValues :=
  ⟨fun _ => ⟨rfl, rfl, rfl, rfl, rfl, rfl⟩, fun _ => ⟨rfl, rfl, rfl, rfl⟩, Config.ref, by decide, rfl⟩

theorem inv_powerOn (c : Config) : Inv (State.powerOn c) := by
  have hrest : Rested (State.powerOn c) := ⟨rfl, rfl, rfl, rfl, rfl, rfl⟩
  exact hrest.inv ⟨rfl, rfl⟩

/-- Settles O9: a node at power-on is at rest in `WAITING`, with empty buffers. -/
theorem powerOnMeetsInv : Obligations.PowerOnMeetsInv := ⟨inv_powerOn, inv_powerOn Config.ref⟩

/-- Settles O35, for each of the two effects: the return is the one action left, or nothing is. -/
theorem deviceResetOutcomes : Obligations.DeviceResetOutcomes := by
  intro e s ha hc ht hid hsense hdir
  cases e with
  | engineKept =>
    have hfin : finishActions s = .next { s with rstate := .waiting, todo := [] } := by
      rw [finish_plain ha hc (by rw [ht]; rfl), settled, ht]; rfl
    exact ⟨_, hfin, hid, hsense, hdir, rfl, rfl, rfl, rfl, rfl, rfl, rfl, rfl, fun _ => ⟨rfl, rfl⟩, nofun⟩
  | powerOn =>
    exact ⟨restartNode s, finish_nil rfl, rfl, rfl, rfl, rfl, rfl, rfl, rfl, rfl, rfl, rfl, rfl, nofun,
      fun _ => ⟨rfl, rfl, rfl, rfl, rfl⟩⟩

/-! ## Who lists the writes of `ID`, `SENSE_OUT` and `CNTR`, and the device reset (R22 to R24, R191) -/

/-- Every action but the writes of `ID`, `CNTR` and `SENSE_OUT`, and the device reset. -/
def Action.isOrdinary : Action → Bool
  | .write (.id _) | .write (.cntr _) | .port (.senseOut _) | .port .devReset => false
  | .write _ | .port _ | .ret => true

/-- The instruction `i`, run in the state `s`, is one that the spec lets do the action: `ID` and `SENSE_OUT` are of
RESET and ASSIGN_ADDR (R174, R175), `CNTR` is of INCR and CNTR (R184, R185), and the device reset is of a RESET with the
right check byte (R174). -/
def MayList (i : Instr) (s : State) : Action → Prop
  | .write (.id _) | .port (.senseOut _) => (∃ body, i = .reset body) ∨ ∃ body, i = .assignAddr body
  | .write (.cntr _) => (∃ body, i = .incr body) ∨ ∃ body, i = .cntr body
  | .port .devReset => ∃ body, i = .reset body ∧ operandAt s.stream body s.draws 0 = s.cfg.resetCheck
  | .write _ | .port _ | .ret => True

/-- Every action that is to do in `t` and not in `s` is one of which `P` holds. -/
def AddsOnly (P : Action → Prop) (s t : State) : Prop := ∀ a ∈ t.todo, a ∈ s.todo ∨ P a

/-- Nothing but ordinary actions is listed. -/
def AddsOrdinary (s t : State) : Prop := AddsOnly (fun a => a.isOrdinary = true) s t

theorem mayList_of_ordinary {i : Instr} {s : State} {a : Action} (h : a.isOrdinary = true) : MayList i s a := by
  cases a with
  | ret => trivial
  | write w =>
    cases w with
    | id | cntr => cases h
    | rstate | sum | dest | bcast | count | cmd | ptr | rxBuf | txBuf | tlen | tsum | addTsum => trivial
  | port e =>
    cases e with
    | senseOut | devReset => cases h
    | dir | tx | call => trivial

theorem AddsOrdinary.mayList {i : Instr} {s t : State} (h : AddsOrdinary s t) : AddsOnly (MayList i s) s t :=
  fun a ha => (h a ha).imp_right mayList_of_ordinary

/-- What a listing adds is what it lists. -/
theorem addsOnly_enqueue {P : Action → Prop} {s u : State} (hu : u.todo = s.todo) {as : List Action}
    (h : ∀ a ∈ as, P a) : AddsOnly P s (enqueue as u) := fun a ha => by
  rw [enqueue_todo, hu] at ha
  exact (List.mem_append.mp ha).imp_right (h a)

theorem addsOnly_listIf {P : Action → Prop} {fits : Bool} {r : Refusal} {s u t : State} (hu : u.todo = s.todo)
    {as : List Action} (h : ∀ a ∈ as, P a) (ht : listIf fits r as u = .next t) : AddsOnly P s t := by
  obtain ⟨-, rfl⟩ := listIf_eq_next ht
  exact addsOnly_enqueue hu h

theorem addsOrdinary_enqueue (as : List Action) {s : State} (h : as.all Action.isOrdinary = true) :
    AddsOrdinary s (enqueue as s) := addsOnly_enqueue rfl (List.all_eq_true.mp h)

/-! ### Which lists are ordinary -/

theorem txAppendAll_ordinary (bytes : List Byte) (n : Nat) :
    (txAppendAll n bytes).all Action.isOrdinary = true := by
  induction bytes generalizing n with
  | nil => rfl
  | cons v rest ih => rw [txAppendAll, List.all_append, ih]; rfl

theorem sendFrame_ordinary (status : Byte) (body : List Byte) :
    (sendFrame status body).all Action.isOrdinary = true := by
  rw [List.all_eq_true]
  intro a ha
  rcases mem_sendFrame ha with ⟨_, rfl⟩ | ⟨_, rfl⟩ | ⟨_, rfl⟩ | ⟨_, rfl⟩ <;> rfl

/-- A reply lists ordinary actions, and those around its body and its frame. -/
theorem addsOnly_reply {i : Instr} {before between after : List Action} {body : List Byte} {s u t : State}
    (ht : reply before body between after u = .next t) (hu : u.todo = s.todo) (hbefore : ∀ a ∈ before, MayList i s a)
    (hbetween : ∀ a ∈ between, MayList i s a) (hafter : ∀ a ∈ after, MayList i s a) :
    AddsOnly (MayList i s) s t := by
  refine addsOnly_listIf hu (fun a ha => ?_) ht
  simp only [List.mem_append, List.mem_singleton] at ha
  rcases ha with ((((ha | ha) | ha) | ha) | ha) | rfl
  · exact hbefore a ha
  · exact mayList_of_ordinary (List.all_eq_true.mp (txAppendAll_ordinary _ _) a ha)
  · exact hbetween a ha
  · exact mayList_of_ordinary (List.all_eq_true.mp (sendFrame_ordinary _ _) a ha)
  · exact hafter a ha
  · trivial

theorem addsOnly_replyOk {i : Instr} {body : List Byte} {s t : State} (ht : replyOk body s = .next t) :
    AddsOnly (MayList i s) s t :=
  addsOnly_reply ht rfl (by simp [freshReply, MayList]) (by simp) (by simp)

/-- An unknown command, whatever is to do before it (R190). -/
theorem addsOrdinary_unknown {s t : State} (ht : takeError .unknownCommand s = .next t) : AddsOrdinary s t := by
  rw [takeError] at ht
  split at ht <;> cases ht
  · exact addsOrdinary_enqueue _ rfl
  · refine addsOrdinary_enqueue _ ?_
    rw [List.all_append, sendReply, sendFrame_ordinary]; rfl

theorem addsOrdinary_statusFrame {status : Byte} {s t : State} (ht : statusFrame status s = .next t) :
    AddsOrdinary s t := by
  obtain ⟨-, rfl⟩ := listIf_eq_next ht
  exact addsOrdinary_enqueue _ rfl

theorem addsOrdinary_startFrame (s : State) : AddsOrdinary s (startFrame s) :=
  addsOnly_enqueue rfl (List.all_eq_true.mp rfl)

theorem AddsOrdinary.of_enqueue {s t : State} {as : List Action} (h : AddsOrdinary (enqueue as s) t)
    (has : as.all Action.isOrdinary = true) : AddsOrdinary s t := fun a ha => by
  rcases h a ha with h | h
  · exact (List.mem_append.mp h).imp_right (List.all_eq_true.mp has a)
  · exact .inr h

/-- What the engine does with an instrument's answer (R188). -/
theorem addsOrdinary_useAnswer {a : Answer} {s t : State} (ht : useAnswer a s = .next t) : AddsOrdinary s t := by
  rw [useAnswer] at ht
  split at ht
  · split at ht
    · cases ht; exact addsOrdinary_enqueue _ rfl
    · obtain ⟨-, rfl⟩ := listIf_eq_next ht
      refine addsOrdinary_enqueue _ ?_
      rw [List.all_append, List.all_append, txAppendAll_ordinary, sendReply, sendFrame_ordinary]; rfl
  · exact addsOrdinary_unknown ht

theorem takeAnswer_todo (s : State) : (takeAnswer s).2.todo = s.todo := by
  unfold takeAnswer; split <;> rfl

/-- The return of an instrument call (R193). -/
theorem addsOrdinary_callReturn {c : Call} {s t : State} (ht : callReturn c s = .next t) : AddsOrdinary s t := by
  cases c with
  | noteDown | noteUp => cases ht; exact addsOrdinary_enqueue _ rfl
  | light | control =>
    intro a ha
    rw [← takeAnswer_todo s]
    exact addsOrdinary_useAnswer ht a ha

/-! ### Every instruction -/

/-- The check byte of a RESET is its first operand (R173, R174). -/
theorem bodyAt_zero (stream : Nat) (body : List Byte) (d : Nat) :
    (bodyAt stream body 0 d).1 = operandAt stream body d 0 := by
  have h := bodyAt_eq stream body d 0
  rw [Nat.zero_sub, Nat.add_zero] at h
  rw [h]

/-- An instruction lists no action but ordinary ones and those the spec lets it do. -/
theorem exec_addsOnly {i : Instr} {s t : State} (h : exec i s = .next t) : AddsOnly (MayList i s) s t := by
  cases i with
  | reset body =>
    change execReset body s = _ at h
    simp only [execReset, bodyAt_zero] at h
    split at h <;> cases h
    · next hcheck =>
      exact addsOnly_enqueue rfl (by simp [freshReply, MayList, show operandAt _ _ _ _ = _ from hcheck])
    · exact addsOnly_enqueue rfl (by simp [freshReply, MayList])
  | assignAddr body =>
    change execAssignAddr body s = _ at h
    simp only [execAssignAddr] at h
    split at h
    · exact addsOnly_reply h rfl (by simp [freshReply, MayList]) (by simp) (by simp [MayList])
    · cases h; exact addsOnly_enqueue rfl (by simp [freshReply, MayList])
  | incr body => cases h; exact addsOnly_enqueue rfl (by simp [freshReply, MayList])
  | cntr body => exact addsOnly_reply h rfl (by simp [freshReply, MayList]) (by simp [MayList]) (by simp)
  | readId body =>
    refine addsOnly_listIf (P := MayList _ s) rfl (fun a ha => mayList_of_ordinary ?_) h
    revert a
    rw [← List.all_eq_true, List.all_append, List.all_cons, sendIdReply, sendFrame_ordinary]; rfl
  | getCmdVersion | getJvsVersion | getCommVersion | getFeatures | ping | getSense => exact addsOnly_replyOk h
  | reqRetransmit | unknown => exact ((addsOrdinary_unknown h).of_enqueue rfl).mayList
  | noteDown body | noteUp body | light body | control body =>
    have h := (forwardEvent_eq _ body s).symm.trans h
    cases h
    exact addsOnly_enqueue rfl (by simp [freshReply, MayList])
  | sync =>
    change execSync s = _ at h
    by_cases ho : s.rstate = .overflow
    · rw [show execSync s = .next s by simp [execSync, ho]] at h
      cases h; exact fun a ha => .inl ha
    · rw [execSync_eq ho] at h
      cases h; exact (addsOrdinary_startFrame s).mayList
  | mark =>
    change execMark s = _ at h
    by_cases hf : InFrame s
    · rw [execMark_inFrame hf] at h
      cases h; exact fun a ha => .inl ha
    · rw [execMark_outside hf] at h
      cases h; exact fun a ha => .inl ha

/-- An instruction lists actions, uses up draws and answers, and writes nothing else but the pending `MARK`. -/
theorem exec_frame {i : Instr} {s t : State} (h : exec i s = .next t) :
    t = { s with todo := t.todo, escape := t.escape, draws := t.draws, answers := t.answers } := by
  cases hw : i.isWire with
  | false =>
    obtain ⟨as, ht, -⟩ := exec_lists hw h
    rw [ht]; rfl
  | true =>
    cases i with
    | sync =>
      change execSync s = _ at h
      unfold execSync takeError at h
      split at h <;> cases h <;> rfl
    | mark =>
      change execMark s = _ at h
      unfold execMark at h
      split at h <;> cases h <;> rfl
    | reset | assignAddr | readId | getCmdVersion | getJvsVersion | getCommVersion | getFeatures | reqRetransmit
    | ping | getSense | incr | cntr | noteDown | noteUp | light | control | unknown => cases hw

/-! ### Every step -/

/-- A dispatched command carries the code it was selected by (R77). -/
theorem decodeCommand_code (c : Config) (code : Byte) (body : List Byte) :
    (decodeCommand c code body).code c = code := by
  unfold decodeCommand
  split
  · next row hr =>
    have hcode : row.1 = code := by simpa using List.find?_some hr
    have hrows : ∀ r ∈ commandTable c, (r.2 body).code c = r.1 := by
      simp only [commandTable, List.forall_mem_cons, List.not_mem_nil]
      exact ⟨rfl, rfl, rfl, rfl, rfl, rfl, rfl, rfl, rfl, rfl, rfl, rfl, rfl, rfl, rfl, rfl, nofun⟩
    exact (hrows row (List.mem_of_find?_eq_some hr)).trans hcode
  · rfl

/-- The step is one that runs a command (R138, R170): a byte is popped in `VERIFY_SUM`, and nothing is left to do. -/
def AtDispatch (s : State) : Prop := s.rstate = .verifySum ∧ Idle s ∧ s.popped ≠ none

/-- Doing an action adds none. -/
theorem perform_adds_nothing (a : Action) (s : State) {b : Action} (h : b ∈ (perform a s).todo) : b ∈ s.todo := by
  by_cases hr : a.Restarts s
  · rw [perform_restarts hr] at h
    cases h
  · rw [show perform a s = { perform a s with todo := s.todo } from perform_with_todo hr s.todo] at h
    exact h

/-- An ordinary action, or one that the command of the frame held in `VERIFY_SUM` may list (R138, R170). -/
def OrdinaryOrCommanded (s : State) (a : Action) : Prop :=
  a.isOrdinary = true ∨ s.rstate = .verifySum ∧ MayList (decodeCommand s.cfg s.cmd (frameBody s)) s a

/-- What a payload byte adds: ordinary actions, or what its frame's command may list. -/
theorem receive_addsOnly {v : Byte} {s t : State} (hr : InFrame s) (ht : (receive v s).outcome = .next t) :
    AddsOnly (OrdinaryOrCommanded s) s t := by
  have ordinary (h : AddsOrdinary s t) : AddsOnly (OrdinaryOrCommanded s) s t := fun a ha => (h a ha).imp_right .inl
  have hcase := receive_cases v hr
  rw [ht] at hcase
  generalize ho : Host.Outcome.next t = o at hcase
  cases hcase with
  | toMaster | toOther | routed | tooLongForAll | tooLong | counted | commanded | stored =>
    cases ho; exact ordinary (addsOrdinary_enqueue _ rfl)
  | outside => cases ho
  | dispatches hv =>
    intro a ha
    rcases exec_addsOnly ho.symm a ha with h | h
    · rcases List.mem_append.mp h with h | h
      · exact .inl h
      · rw [List.mem_singleton.mp h]; exact .inr (.inl rfl)
    · exact .inr (.inr ⟨hv, h⟩)
  | badSum => exact ordinary ((addsOrdinary_statusFrame ho.symm).of_enqueue rfl)

/-- What a step adds: ordinary actions, or, where it runs a command, what that command may list. -/
theorem step_addsOnly {s t : State} (h : step s = .next t) :
    AddsOnly (fun a => a.isOrdinary = true ∨
      AtDispatch s ∧ MayList (decodeCommand s.cfg s.cmd (frameBody s)) s a) s t := by
  have hcase := stepCase_of_next h
  generalize ho : Host.Outcome.next t = o at hcase
  intro a hat
  cases hcase with
  | holds | completes | pops | discards | marks => cases ho; exact .inl hat
  | returns c _ _ =>
    exact (addsOrdinary_callReturn ho.symm a hat).imp_right .inl
  | acts b rest _ hrest =>
    cases ho
    rw [hrest]
    exact .inl (List.mem_cons_of_mem b (perform_adds_nothing b _ hat))
  | overflows => exact (addsOrdinary_statusFrame ho.symm a hat).imp_right .inl
  | starts => cases ho; exact (addsOrdinary_startFrame { s with popped := none } a hat).imp_right .inl
  | receives b v hy hp hr _ =>
    rcases receive_addsOnly (s := { s with popped := none, escape := false }) hr ho.symm a hat with h | h | ⟨hv, h⟩
    · exact .inl h
    · exact .inr (.inl h)
    · exact .inr (.inr ⟨⟨hv, hy, by simp [hp]⟩, h⟩)

/-! ### The writes themselves -/

/-- What an action does to `ID` and `SENSE_OUT`: nothing, its own write, or a restart (R22, R23, R292). -/
theorem perform_identity (a : Action) (s : State) :
    ((perform a s).id = s.id ∧ (perform a s).senseOut = s.senseOut) ∨
      (a = .write (.id (perform a s).id) ∧ (perform a s).senseOut = s.senseOut) ∨
      (a = .port (.senseOut (perform a s).senseOut) ∧ (perform a s).id = s.id) ∨
      (a.Restarts s ∧ (perform a s).id = 0xFF ∧ (perform a s).senseOut = .high) := by
  by_cases hr : a.Restarts s
  · rw [perform_restarts hr]; exact .inr (.inr (.inr ⟨hr, rfl, rfl⟩))
  cases a with
  | ret => exact .inl ⟨rfl, rfl⟩
  | write w =>
    cases w with
    | id v => exact .inr (.inl ⟨rfl, rfl⟩)
    | cntr | rstate | sum | dest | bcast | count | cmd | ptr | rxBuf | txBuf | tlen | tsum | addTsum =>
      exact .inl ⟨rfl, rfl⟩
  | port e =>
    cases e with
    | devReset => rw [perform_devReset_kept hr]; exact .inl ⟨rfl, rfl⟩
    | senseOut l => exact .inr (.inr (.inl ⟨rfl, rfl⟩))
    | dir | tx | call => exact .inl ⟨rfl, rfl⟩

/-- What an action does to `CNTR`: nothing, its own write, or a restart (R24, R292). -/
theorem perform_counter (a : Action) (s : State) :
    (perform a s).cntr = s.cntr ∨ a = .write (.cntr (perform a s).cntr) ∨
      (a.Restarts s ∧ (perform a s).cntr = 0x00) := by
  by_cases hr : a.Restarts s
  · rw [perform_restarts hr]; exact .inr (.inr ⟨hr, rfl⟩)
  cases a with
  | ret => exact .inl rfl
  | write w =>
    cases w with
    | cntr v => exact .inr (.inl rfl)
    | id | rstate | sum | dest | bcast | count | cmd | ptr | rxBuf | txBuf | tlen | tsum | addTsum => exact .inl rfl
  | port e =>
    cases e with
    | devReset => rw [perform_devReset_kept hr]; exact .inl rfl
    | dir | tx | senseOut | call => exact .inl rfl

/-- A step either leaves `ID`, `SENSE_OUT` and `CNTR` alone, or does the next action left to do. -/
theorem step_registers {s t : State} (h : step s = .next t) :
    (t.id = s.id ∧ t.senseOut = s.senseOut ∧ t.cntr = s.cntr) ∨
      ∃ a rest, s.todo = a :: rest ∧ t = perform a { s with todo := rest } := by
  cases step_kinds h with
  | acts a rest _ ht => exact .inr ⟨a, rest, ht, rfl⟩
  | holds | pops | completes | writes | lists | returns => exact .inl ⟨rfl, rfl, rfl⟩

/-- A command that may list a write of the identity or of the sense output has the code of RESET or ASSIGN_ADDR. -/
theorem code_of_identity_command {c : Config} {code : Byte} {frame : List Byte}
    (h : (∃ body, decodeCommand c code frame = .reset body) ∨ ∃ body, decodeCommand c code frame = .assignAddr body) :
    code = c.cmdReset ∨ code = cmdAssignAddr := by
  have hcode := decodeCommand_code c code frame
  rcases h with ⟨body, hd⟩ | ⟨body, hd⟩ <;> rw [hd] at hcode
  · exact .inl hcode.symm
  · exact .inr hcode.symm

/-- A command that may list a write of the counter has the code of INCR or CNTR. -/
theorem code_of_counter_command {c : Config} {code : Byte} {frame : List Byte}
    (h : (∃ body, decodeCommand c code frame = .incr body) ∨ ∃ body, decodeCommand c code frame = .cntr body) :
    code = c.cmdIncr ∨ code = c.cmdCntr := by
  have hcode := decodeCommand_code c code frame
  rcases h with ⟨body, hd⟩ | ⟨body, hd⟩ <;> rw [hd] at hcode
  · exact .inl hcode.symm
  · exact .inr hcode.symm

/-- A step that adds an action that is not ordinary runs a command that may list it. -/
theorem step_adds_extraordinary {s t : State} (h : step s = .next t) {a : Action} (ht : a ∈ t.todo) (hs : a ∉ s.todo)
    (ho : a.isOrdinary = false) : AtDispatch s ∧ MayList (decodeCommand s.cfg s.cmd (frameBody s)) s a := by
  rcases step_addsOnly h a ht with hmem | hord | hd
  · exact absurd hmem hs
  · rw [ho] at hord; cases hord
  · exact hd

/-! ### The statements -/

/-- Settles O49: what an instruction may list (`exec_addsOnly`), what an action writes, and what a step adds. -/
theorem onlyResetAndAssignWriteIdentity : Obligations.OnlyResetAndAssignWriteIdentity := by
  refine ⟨fun i s t h => ?_, fun s t h => ⟨?_, ?_⟩⟩
  · refine ⟨by rw [exec_frame h], by rw [exec_frame h], fun hreset hassign => ?_⟩
    have hno : ¬((∃ body, i = .reset body) ∨ ∃ body, i = .assignAddr body) :=
      not_or.mpr ⟨not_exists.mpr hreset, not_exists.mpr hassign⟩
    exact ⟨fun v hm => (exec_addsOnly h _ hm).resolve_right hno, fun l hm => (exec_addsOnly h _ hm).resolve_right hno⟩
  · rcases step_registers h with ⟨hid, hsense, -⟩ | ⟨a, rest, ht, hperform⟩
    · exact .inl ⟨hid, hsense⟩
    · have hhead : s.todo.head? = some a := by rw [ht]; rfl
      have hcases := perform_identity a { s with todo := rest }
      rw [← hperform] at hcases
      rcases hcases with hsame | ⟨ha, hsense⟩ | ⟨ha, hid⟩ | ⟨⟨ha, heffect⟩, hid, hsense⟩
      · exact .inl hsame
      · exact .inr (.inl ⟨hhead.trans (congrArg some ha), hsense⟩)
      · exact .inr (.inr (.inl ⟨hhead.trans (congrArg some ha), hid⟩))
      · exact .inr (.inr (.inr ⟨hhead.trans (congrArg some ha), heffect, hid, hsense⟩))
  · intro a ha ht hs
    have hd : AtDispatch s ∧ ((∃ body, decodeCommand s.cfg s.cmd (frameBody s) = .reset body) ∨
        ∃ body, decodeCommand s.cfg s.cmd (frameBody s) = .assignAddr body) := by
      rcases ha with ⟨v, rfl⟩ | ⟨l, rfl⟩
      · exact step_adds_extraordinary h ht hs rfl
      · exact step_adds_extraordinary h ht hs rfl
    obtain ⟨⟨hverify, hidle, hpopped⟩, hcmd⟩ := hd
    exact ⟨hverify, hidle, hpopped, code_of_identity_command hcmd⟩

/-- Settles O50, as O49 is settled. -/
theorem onlyIncrAndCntrWriteTheCounter : Obligations.OnlyIncrAndCntrWriteTheCounter := by
  refine ⟨fun i s t h => ⟨by rw [exec_frame h], fun hincr hcntr v hm => ?_⟩, fun i s t h hm hs => ?_,
    fun s t h => ⟨?_, fun v ht hs => ?_⟩⟩
  · have hno : ¬((∃ body, i = .incr body) ∨ ∃ body, i = .cntr body) :=
      not_or.mpr ⟨not_exists.mpr hincr, not_exists.mpr hcntr⟩
    exact (exec_addsOnly h _ hm).resolve_right hno
  · exact (exec_addsOnly h _ hm).resolve_left hs
  · rcases step_registers h with ⟨-, -, hsame⟩ | ⟨a, rest, ht, hperform⟩
    · exact .inl hsame
    · have hhead : s.todo.head? = some a := by rw [ht]; rfl
      have hcases := perform_counter a { s with todo := rest }
      rw [← hperform] at hcases
      rcases hcases with hsame | ha | ⟨⟨ha, heffect⟩, hclear⟩
      · exact .inl hsame
      · exact .inr (.inl (hhead.trans (congrArg some ha)))
      · exact .inr (.inr ⟨hhead.trans (congrArg some ha), heffect, hclear⟩)
  · obtain ⟨⟨hverify, hidle, hpopped⟩, hcmd⟩ := step_adds_extraordinary h ht hs rfl
    exact ⟨hverify, hidle, hpopped, code_of_counter_command hcmd⟩

end Sys2Proof.Machine

/-! SUPPORT. Proofs of the statements about the memory (spec/20_memory.md): no step leaves the buffers or refuses a
reply of the node's own (R51, R53, R188), what the receiver stores (R136) and drops (R133, R143), what a reply is made
of (R110, R220), and who writes the buffers (R51, R53, R191). -/

namespace Sys2Proof.Machine

/-! ## Every instruction comes to a next state (R53, R269) -/

theorem encFeature_length (c : Config) (f : Feature) : (encFeature c f).length = 4 := by
  cases f <;> rfl

/-- The body of GET_FEATURES: report, four bytes a descriptor, terminator (R80, R180). -/
theorem featuresBody_length (c : Config) : (featuresBody c).length = 1 + 4 * c.features.length + 1 := by
  simp only [featuresBody, List.length_cons, List.length_append, List.length_nil, List.length_flatMap,
    encFeature_length, List.map_const', List.sum_replicate, smul_eq_mul]
  omega

theorem listIf_completes {fits : Bool} (h : fits = true) (r : Refusal) (as : List Action) (s : State) :
    ∃ t, listIf fits r as s = .next t := ⟨_, listIf_true h r as s⟩

/-- A reply that fits is listed. -/
theorem reply_completes {s : State} {body : List Byte} (h : body.length ≤ replyRoom s.cfg)
    (before between after : List Action) : ∃ t, reply before body between after s = .next t :=
  listIf_completes (decide_eq_true h) _ _ _

theorem takeError_unknown_completes (s : State) : ∃ t, takeError .unknownCommand s = .next t := by
  simp only [takeError]
  split
  · exact ⟨_, rfl⟩
  · exact ⟨_, rfl⟩

theorem forwardEvent_completes (mk : Nat → Byte → Byte → Byte → Call) (body : List Byte) (s : State) :
    ∃ t, forwardEvent mk body s = .next t := ⟨_, forwardEvent_eq mk body s⟩

/-- Under an admitted configuration every instruction comes to a next state: it never faults, and no reply of the node's
own is refused (R53, R269). -/
theorem exec_completes (i : Instr) {s : State} (ha : admitted s.cfg = true) : ∃ t, exec i s = .next t := by
  have A := (admitted_iff _).mp ha
  have h2 : 2 ≤ replyRoom s.cfg := A.two_le_room
  have h1 : 1 ≤ replyRoom s.cfg := le_of_lt h2
  cases i with
  | reset body =>
    change ∃ t, execReset body s = _
    simp only [execReset]
    split
    · exact ⟨_, rfl⟩
    · exact ⟨_, rfl⟩
  | assignAddr body =>
    change ∃ t, execAssignAddr body s = _
    simp only [execAssignAddr]
    split
    · exact reply_completes (s := { s with draws := (bodyAt s.stream body 0 s.draws).2 }) (body := [_]) h1 _ _ _
    · exact ⟨_, rfl⟩
  | readId body => exact listIf_completes (decide_eq_true A.idString) _ _ _
  | getFeatures body => exact reply_completes (featuresBody_length s.cfg ▸ A.features) _ _ _
  | ping body => exact reply_completes (body := [_]) h1 _ _ _
  | getCmdVersion body | getJvsVersion body | getCommVersion body | getSense body | cntr body =>
    exact reply_completes (body := [_, _]) h2 _ _ _
  | reqRetransmit body | unknown code body => exact takeError_unknown_completes _
  | incr body => exact ⟨_, rfl⟩
  | noteDown body | noteUp body | light body | control body => exact forwardEvent_completes _ body s
  | sync =>
    change ∃ t, execSync s = _
    by_cases ho : s.rstate = .overflow
    · exact ⟨s, by simp [execSync, ho]⟩
    · exact ⟨_, execSync_eq ho⟩
  | mark =>
    change ∃ t, execMark s = _
    by_cases hf : InFrame s
    · exact ⟨_, execMark_inFrame hf⟩
    · exact ⟨_, execMark_outside hf⟩

/-! ## What stops a step: an unfit answer, or a body byte beyond the buffer -/

/-- The instrument's next answer asks for a reply that does not fit `TxBuf` or the length byte (R188, log 17). -/
def UnfitAnswer (s : State) : Prop :=
  ∃ (a : Answer) (bytes : List Byte), (a ∈ s.answers ∨ a = Config.freeAnswer s.stream s.draws) ∧
    a.handled = true ∧ a.reply = some bytes ∧ min s.cfg.txBufCap 253 < bytes.length

/-- A body byte is popped that `RxBuf` has no place for (R51). -/
def BodyByteBeyond (s : State) : Prop :=
  Idle s ∧ s.popped ≠ none ∧ s.rstate = .readBody ∧ s.cfg.rxBufCap ≤ s.ptr.toNat

/-- How a step of a node with an admitted configuration can end (R51, R53, R188). -/
inductive StepEnd (s : State) : Host.Outcome State Fault Refusal → Prop where
  | next (t : State) : StepEnd s (.next t)
  | refused (h : UnfitAnswer s) : StepEnd s (.refused .instrumentAnswer)
  | fault (h : BodyByteBeyond s) : StepEnd s (.fault .rxBufIndex)

theorem StepEnd.of_next {s : State} {o : Host.Outcome State Fault Refusal} (h : ∃ t, o = .next t) : StepEnd s o := by
  obtain ⟨t, rfl⟩ := h
  exact .next t

/-- The answer taken is the oldest one queued, or a draw (R193). -/
theorem takeAnswer_mem (s : State) :
    (takeAnswer s).1 ∈ s.answers ∨ (takeAnswer s).1 = Config.freeAnswer s.stream s.draws := by
  unfold takeAnswer
  split
  · next a rest h => exact .inl (h ▸ List.mem_cons_self)
  · exact .inr rfl

theorem takeAnswer_cfg (s : State) : (takeAnswer s).2.cfg = s.cfg := by
  unfold takeAnswer; split <;> rfl

/-- Only a handled answer whose body does not fit is refused (R188). -/
theorem useAnswer_ends (a : Answer) (s : State) :
    (∃ t, useAnswer a s = .next t) ∨
      useAnswer a s = .refused .instrumentAnswer ∧ a.handled = true ∧
        ∃ bytes, a.reply = some bytes ∧ replyRoom s.cfg < bytes.length := by
  unfold useAnswer
  split
  · next hh =>
    split
    · exact .inl ⟨_, rfl⟩
    · next bytes hb =>
      by_cases hl : bytes.length ≤ replyRoom s.cfg
      · exact .inl (listIf_completes (decide_eq_true hl) _ _ _)
      · exact .inr ⟨by simp [listIf, hl], hh, bytes, hb, Nat.lt_of_not_le hl⟩
  · exact .inl (takeError_unknown_completes s)

/-- The return of an instrument call goes on, or is refused for an unfit answer. -/
theorem callReturn_ends (c : Call) (s : State) :
    (∃ t, callReturn c s = .next t) ∨ callReturn c s = .refused .instrumentAnswer ∧ UnfitAnswer s := by
  have answer := useAnswer_ends (takeAnswer s).1 (takeAnswer s).2
  rw [takeAnswer_cfg] at answer
  cases c with
  | noteDown | noteUp => exact .inl ⟨_, rfl⟩
  | light | control =>
    refine answer.imp_right ?_
    rintro ⟨hr, hh, bytes, hb, hl⟩
    exact ⟨hr, _, bytes, takeAnswer_mem s, hh, hb, hl⟩

/-- A payload byte is taken, unless it is a body byte beyond the buffer (R51, R133 to R138). -/
theorem receive_ends (v : Byte) {s : State} (ha : admitted s.cfg = true) (hr : InFrame s) :
    (∃ t, (receive v s).outcome = .next t) ∨
      (receive v s).outcome = .fault .rxBufIndex ∧ s.rstate = .readBody ∧ s.cfg.rxBufCap ≤ s.ptr.toNat := by
  have hcase := receive_cases v hr
  generalize ho : (receive v s).outcome = o at hcase
  cases hcase with
  | toMaster | toOther | routed | tooLongForAll | tooLong | counted | commanded | stored => exact .inl ⟨_, rfl⟩
  | outside hb =>
    refine .inr ⟨rfl, hb, Nat.le_of_not_lt fun hlt => ?_⟩
    obtain ⟨t, ht⟩ : ∃ t, storeBody v (accumulate v s) = .next t := ⟨_, if_pos hlt⟩
    simp only [receive, hb, ht] at ho
    cases ho
  | dispatches => exact .inl (exec_completes _ ha)
  | badSum => exact .inl (listIf_completes ((admitted_iff _).mp ha).sumErr _ _ _)

/-- Every step of such a node ends so, case by case of what it can come to (`step_cases`). -/
theorem step_ends {s : State} (ha : admitted s.cfg = true) : StepEnd s (step s) := by
  have hcase := step_cases ha
  generalize step s = o at hcase
  cases hcase with
  | holds | acts | completes | pops | starts | discards | marks => exact .next _
  | returns c _ _ =>
    rcases callReturn_ends c { s with inCall := none } with hn | ⟨ho, hu⟩
    · exact .of_next hn
    · rw [ho]; exact .refused hu
  | overflows => exact .of_next (listIf_completes ((admitted_iff _).mp ha).overflow _ _ _)
  | receives b v hy hp hr _ =>
    rcases receive_ends v (s := { s with popped := none, escape := false }) ha hr with hn | ⟨ho, hb, hcap⟩
    · exact .of_next hn
    · rw [ho]
      exact .fault ⟨hy, by simp [hp], hb, hcap⟩

/-- Where the invariant holds, a body byte has its place in `RxBuf`: `PTR` is within the body, and the body within the
capacity (R31, R134). -/
theorem Inv.body_fits {s : State} (h : Inv s) : ¬BodyByteBeyond s := by
  rintro ⟨⟨-, -, ht⟩, hp, hr, hcap⟩
  obtain ⟨-, hover, -, -, hlt, -⟩ := (frameInv_readBody hr).mp (h.frame_rested ht)
  have hcount : ¬s.cfg.rxBufCap < s.count.toNat := of_decide_eq_false hover
  have hptr : s.ptr.toNat < s.count.toNat - 2 := hlt hp
  omega

/-- Settles O13: the one fault a step can end in (`step_ends`) is of a body byte that the invariant keeps within
`RxBuf`. -/
theorem noStepFaults : Obligations.NoStepFaults := by
  intro s r h hstep
  by_cases ha : admitted s.cfg = true
  · have hend := step_ends ha
    rw [hstep] at hend
    cases hend with
    | fault hb => exact h.body_fits hb
  · rw [step_unadmitted (Bool.eq_false_iff.mpr ha)] at hstep
    cases hstep

/-- Settles O14: the one refusal a step under an admitted configuration can end in (`step_ends`). -/
theorem onlyUnfitAnswersAreRefused : Obligations.OnlyUnfitAnswersAreRefused := by
  intro s r ha hstep
  have hend := step_ends ha
  rw [hstep] at hend
  cases hend with
  | refused hu => exact ⟨rfl, hu⟩

/-! ## What the receiver stores and drops (R133, R136, R143) -/

/-- Settles O24: the byte's steps by `takesByte_payload`, and the laws of a store for the buffer it leaves. -/
theorem readBodyStoresUntilComplete : Obligations.ReadBodyStoresUntilComplete := by
  refine ⟨fun s ⟨hy, hr⟩ hlt => ?_, fun s v rest ⟨hy, hr⟩ hlt hcap hv => ?_, fun s ⟨hy, hr⟩ hle => ?_⟩
  · exact takesByte_sync hy (.inr (.inr (.inr (.inr (.inl ⟨hr, hlt⟩)))))
  · have hd : Decoding s := .inr (.inr (.inr (.inl ⟨hr, hlt⟩)))
    refine ⟨s.rxBuf.write s.ptr.toNat v, ?_, Memory.read_write_same _ _ _,
      fun a ha => Memory.read_write_other _ (Ne.symm ha) v⟩
    refine takesByte_payload hy hd hv rfl ?_
    simp [receive, hr, storeBody, hcap, accumulate]
  · rw [step_of_ready hy, fetchFrame, hr]
    exact if_neg (Nat.not_lt.mpr hle)

/-- Plain actions listed from rest, done one a step. -/
theorem steps_listed {as : List Action} (hp : as.all Action.isPlain = true) {s : State} (h : Idle s) :
    steps as.length (enqueue as s) = .next (performAll as s) := by
  obtain ⟨ha, hc, ht⟩ := h
  have hrest : performAll as s = { performAll as s with todo := [] } := by rw [performAll_keeps hp, ht]
  rw [steps_plain as [] (enqueue as s) ha hc hp (by simp [ht]), enqueue, performAll_todo hp, hrest]

/-- All the steps of a byte that lists plain actions. -/
theorem TakesByte.steps_eq {as : List Action} {rest : List Byte} {s t : State} (h : TakesByte as rest s t)
    (hy : Ready s) (hp : as.all Action.isPlain = true) :
    steps (2 + as.length) s = .next (performAll as { s with rx := rest, escape := false }) := by
  have hidle : Idle { s with rx := rest, escape := false } := hy.1
  rw [steps_add 2 as.length h.1]
  exact steps_listed hp hidle

/-- A byte that starts no frame is drained in `WAITING` (R131, R300). -/
theorem steps_discard {s : State} {b : Byte} {rest : List Byte} (h : At .waiting s) (hb : b ≠ syncByte)
    (hx : s.rx = b :: rest) : steps 2 s = .next { s with rx := rest } := by
  obtain ⟨hy, hr⟩ := h
  have hout : ¬InFrame { s with rx := rest } := fun hf => hf.1 hr
  rw [steps_succ 1 (step_pops hy (.inl hr) hx), steps_one, step_justPopped hy]
  by_cases hm : b = markByte
  · rw [hm, receiveWire_mark (.inr hout)]; exact execMark_outside hout
  · rw [receiveWire_discard hb hm hout]; rfl

/-- In `WAITING` bytes that hold no `SYNC` are drained, and nothing but the port changes (R143, R300). -/
theorem steps_drain (bytes rest : List Byte) {s : State} (h : At .waiting s) (hb : syncByte ∉ bytes)
    (hx : s.rx = bytes ++ rest) : steps (2 * bytes.length) s = .next { s with rx := rest } := by
  induction bytes generalizing s with
  | nil =>
    have hx : s.rx = rest := hx
    subst hx; rfl
  | cons b more ih =>
    obtain ⟨hne, hmore⟩ := List.ne_and_not_mem_of_not_mem_cons hb
    have hlen : 2 * (b :: more).length = 2 + 2 * more.length := by rw [List.length_cons]; omega
    rw [hlen, steps_add 2 _ (steps_discard h (Ne.symm hne) hx)]
    exact ih (s := { s with rx := more ++ rest }) h hmore rfl

theorem sync_not_mem_stuff (bytes : List Byte) : syncByte ∉ stuff bytes := fun h => by
  obtain ⟨b, -, hb⟩ := List.mem_flatMap.mp h
  exact sync_not_mem_stuffByte b hb

/-- The steps of a `SYNC` in `WAITING`: its pop, the listing, and two writes (R131). -/
theorem steps_sync {s : State} {rest : List Byte} (h : At .waiting s) (hx : s.rx = syncByte :: rest) :
    steps 4 s = .next { s with rx := rest, rstate := .gotSync, sum := 0, escape := false } :=
  (takesByte_sync h.1 (.inl h.2) rest hx).steps_eq h.1 rfl

/-- The steps of the master's address in `GOT_SYNC`: its pop, the listing, two writes, and the tick's return (R133). -/
theorem steps_toMaster {s : State} {rest : List Byte} (h : At .gotSync s) (he : s.escape = false)
    (hx : s.rx = masterAddr :: rest) :
    steps 5 s = .next { s with
      rx := rest, sum := s.sum + masterAddr, dest := masterAddr, rstate := .waiting, escape := false } := by
  obtain ⟨hy, hr⟩ := h
  have hv : PayloadAt s masterAddr rest := ⟨masterAddr, hx, by decide, by simp [he]; decide⟩
  refine (takesByte_payload (as := [.write (.sum (s.sum + masterAddr)), .write (.dest masterAddr), .ret]) hy (.inl hr)
    hv rfl ?_).steps_eq hy rfl
  simp [receive, hr, accumulate, takeError]

/-- The steps of a frame to the master: its `SYNC` and its destination, which ends the tick; the bytes after them are
drained (R133, R143). -/
theorem steps_frameToMaster {s : State} {tail rest : List Byte} (h : At .waiting s)
    (hx : s.rx = syncByte :: masterAddr :: (tail ++ rest)) (hb : syncByte ∉ tail) :
    steps (4 + (5 + 2 * tail.length)) s =
      .next { s with rx := rest, sum := 0, dest := masterAddr, escape := false } := by
  have hsync := steps_sync h hx
  have hmaster := steps_toMaster (rest := tail ++ rest)
    (s := { s with rx := masterAddr :: (tail ++ rest), rstate := .gotSync, sum := 0, escape := false })
    ⟨h.1, rfl⟩ rfl rfl
  have hdrain := steps_drain tail rest
    (s := { s with rx := tail ++ rest, rstate := .waiting, sum := 0, dest := masterAddr, escape := false })
    ⟨h.1, rfl⟩ hb rfl
  rw [steps_add 4 _ hsync, steps_add 5 _ hmaster]
  rw [← h.2] at hdrain ⊢
  exact hdrain

/-- Settles O28: a reply is a frame to the master, and its stuffed bytes hold no `SYNC`. -/
theorem otherRepliesAreDropped : Obligations.OtherRepliesAreDropped := by
  intro status body rest s hw hx
  have hlen : 2 * (encodeReply status body).length + 5 = 4 + (5 + 2 * (stuff (replyBytes status body ++
      [byteSum (masterAddr :: replyBytes status body)])).length) := by
    rw [encodeReply, List.length_cons, List.length_cons]; omega
  rw [hlen]
  exact steps_frameToMaster hw hx (sync_not_mem_stuff _)

/-! ## What a reply is made of (R110, R220, R222) -/

/-- After any number of plain actions from rest, `TSUM` and the ports are as the actions done say. -/
theorem steps_take {as : List Action} (hp : as.all Action.isPlain = true) {s : State} (h : Idle s) (k : Nat) :
    ∃ t, steps (min k as.length) (enqueue as s) = .next t ∧ t.tsum = sumAfter s.tsum (as.take k) ∧
      t.out = s.out ++ portEvents (as.take k) := by
  obtain ⟨ha, hc, ht⟩ := h
  have hpk : (as.take k).all Action.isPlain = true :=
    List.all_eq_true.mpr fun a hmem => List.all_eq_true.mp hp a (List.mem_of_mem_take hmem)
  have hsteps := steps_plain (as.take k) (as.drop k) (enqueue as s) ha hc hpk (by simp [ht])
  rw [List.length_take, performAll_keeps hpk] at hsteps
  exact ⟨_, hsteps, rfl, rfl⟩

/-- Plain actions listed from rest, done. -/
theorem Idle.finish {s : State} (h : Idle s) {as : List Action} (hp : as.all Action.isPlain = true) :
    finishActions (enqueue as s) = .next (performAll as s) := by
  rw [finish_enqueue h.dispatching hp, settled_nil h.2.2]

/-- Settles O31: what the operations of the send side do (`performAll_encodeByte`, `performAll_txAppendAll`,
`performAll_sendFrame`), one action a step. -/
theorem sendReplyIsAReplyFrame : Obligations.SendReplyIsAReplyFrame := by
  refine ⟨fun v s h => ⟨?_, ?_⟩, fun body s h hl => ?_, fun status body s => ⟨portEvents_sendFrame status body,
    fun h => ⟨steps_take (sendFrame_plain status body) h, ?_⟩⟩⟩
  · obtain ⟨ha, hc, ht⟩ := h
    exact step_plain (s := enqueue (encodeByte v) s) (a := .write (.addTsum v)) ha hc rfl
      (by rw [enqueue_todo, ht]; rfl)
  · rw [h.finish (encodeByte_plain v), performAll_encodeByte]
  · have hp : (freshReply :: txAppendAll 0 body).all Action.isPlain = true := txAppendAll_plain body 0
    have hlen : (BitVec.ofNat 8 (0 + body.length)).toNat = body.length := by
      rw [BitVec.toNat_ofNat]; omega
    refine ⟨_, h.finish hp, ?_⟩
    rw [performAll_cons, performAll_txAppendAll body 0 _ rfl]
    change ((s.txBuf.writeAll 0 body).prefixBytes (BitVec.ofNat 8 (0 + body.length)).toNat) = body
    rw [hlen, Memory.prefixBytes_writeAll]
  · have hp : (sendReply status body ++ [Action.ret]).all Action.isPlain = true := by
      rw [List.all_append, sendReply, sendFrame_plain]; rfl
    rw [h.finish hp, sendReply, performAll_append, performAll_sendFrame]
    rfl

/-! ## Who writes the buffers (R51, R53, R191) -/

/-- A plain action that writes neither buffer. -/
def Action.keepsBuffers : Action → Bool
  | .write (.rxBuf _ _) | .write (.txBuf _ _) | .port .devReset | .port (.call _) => false
  | .write _ | .port _ | .ret => true

/-- A plain action that writes neither buffer, nor `TLEN`. -/
def Action.keepsReply : Action → Bool
  | .write (.tlen _) => false
  | a => a.keepsBuffers

/-- The lists of actions that an instruction, or the return of its call, can leave to do, by what they write of the
reply body: `TxAppend` of some bytes from `TLEN = 0` on, with nothing before them that writes a buffer and nothing after
them that writes a buffer or `TLEN` (R53, R170). -/
inductive ReplyList : List Action → Prop where
  /-- a reply body, or none -/
  | builds (before : List Action) (body : List Byte) (after : List Action) (hl : body.length ≤ 255)
      (hb : before.all Action.keepsBuffers = true) (ha : after.all Action.keepsReply = true) :
      ReplyList (before ++ txAppendAll 0 body ++ after)
  /-- an event's call -/
  | calls (k : Call) : ReplyList [freshReply, .port (.call k)]
  /-- RESET with the right check byte -/
  | resets : ReplyList [freshReply, .write (.id unsetId), .port (.senseOut .high), .port .devReset, .ret]

/-- Of `u`'s buffers, only `TxBuf[0 .. TLEN-1]` differs from `s`'s. -/
def OnlyReplyWritten (s u : State) : Prop :=
  u.rxBuf = s.rxBuf ∧ ∀ a, u.tlen.toNat ≤ a → u.txBuf.read a = s.txBuf.read a

/-! ### Actions that keep the buffers -/

theorem Action.isPlain_of_keepsBuffers {a : Action} (h : a.keepsBuffers = true) : a.isPlain = true := by
  cases a with
  | write w => rfl
  | ret => rfl
  | port e =>
    cases e with
    | devReset | call => cases h
    | dir | tx | senseOut => rfl

theorem Action.keepsBuffers_of_keepsReply {a : Action} (h : a.keepsReply = true) : a.keepsBuffers = true := by
  cases a with
  | write w =>
    cases w with
    | tlen => rfl
    | rxBuf | txBuf => cases h
    | id | cntr | rstate | sum | dest | bcast | count | cmd | ptr | tsum | addTsum => rfl
  | ret => rfl
  | port e => exact h

theorem perform_keepsBuffers {a : Action} (h : a.keepsBuffers = true) (s : State) :
    (perform a s).rxBuf = s.rxBuf ∧ (perform a s).txBuf = s.txBuf := by
  cases a with
  | write w =>
    cases w with
    | rxBuf | txBuf => cases h
    | id | cntr | rstate | sum | dest | bcast | count | cmd | ptr | tlen | tsum | addTsum => exact ⟨rfl, rfl⟩
  | ret => exact ⟨rfl, rfl⟩
  | port e =>
    cases e with
    | devReset | call => cases h
    | dir | tx | senseOut => exact ⟨rfl, rfl⟩

theorem perform_keepsTlen {a : Action} (h : a.keepsReply = true) (s : State) : (perform a s).tlen = s.tlen := by
  cases a with
  | write w =>
    cases w with
    | tlen => cases h
    | id | cntr | rstate | sum | dest | bcast | count | cmd | ptr | rxBuf | txBuf | tsum | addTsum => rfl
  | ret => rfl
  | port e =>
    cases e with
    | devReset | call => cases h
    | dir | tx | senseOut => rfl

theorem performAll_keepsBuffers {as : List Action} (h : as.all Action.keepsBuffers = true) (s : State) :
    (performAll as s).rxBuf = s.rxBuf ∧ (performAll as s).txBuf = s.txBuf := by
  induction as generalizing s with
  | nil => exact ⟨rfl, rfl⟩
  | cons a rest ih =>
    obtain ⟨ha, hrest⟩ := Bool.and_eq_true_iff.mp h
    obtain ⟨hrx, htx⟩ := perform_keepsBuffers ha s
    rw [performAll_cons, ← hrx, ← htx]
    exact ih hrest (perform a s)

theorem performAll_keepsTlen {as : List Action} (h : as.all Action.keepsReply = true) (s : State) :
    (performAll as s).tlen = s.tlen := by
  induction as generalizing s with
  | nil => rfl
  | cons a rest ih =>
    obtain ⟨ha, hrest⟩ := Bool.and_eq_true_iff.mp h
    rw [performAll_cons, ih hrest, perform_keepsTlen ha]

theorem all_isPlain_of_keepsBuffers {as : List Action} (h : as.all Action.keepsBuffers = true) :
    as.all Action.isPlain = true :=
  List.all_eq_true.mpr fun a ha => Action.isPlain_of_keepsBuffers (List.all_eq_true.mp h a ha)

theorem all_keepsBuffers_of_keepsReply {as : List Action} (h : as.all Action.keepsReply = true) :
    as.all Action.keepsBuffers = true :=
  List.all_eq_true.mpr fun a ha => Action.keepsBuffers_of_keepsReply (List.all_eq_true.mp h a ha)

/-! ### What a reply's list leaves -/

/-- `TxAppend` of bytes from address 0 on writes `TxBuf[0 .. TLEN-1]`, whatever `TLEN` was:
the first append sets it. -/
theorem performAll_txAppendAll_zero {body : List Byte} (hl : body.length ≤ 255) (s : State) :
    OnlyReplyWritten s (performAll (txAppendAll 0 body) s) := by
  cases body with
  | nil => exact ⟨rfl, fun _ _ => rfl⟩
  | cons v rest =>
    simp only [List.length_cons] at hl
    rw [txAppendAll, performAll_append, performAll_txAppendAll rest 1 _ rfl]
    refine ⟨rfl, fun a ha => ?_⟩
    have ha : (BitVec.ofNat 8 (1 + rest.length)).toNat ≤ a := ha
    rw [BitVec.toNat_ofNat] at ha
    change ((s.txBuf.write 0 v).writeAll 1 rest).read a = s.txBuf.read a
    rw [Memory.read_writeAll_other rest _ (.inr (by omega)), Memory.read_write_other _ (by omega)]

/-- Everything but the reply body is left as it was by a list that builds one. -/
theorem performAll_builds {before after : List Action} {body : List Byte} (hl : body.length ≤ 255)
    (hb : before.all Action.keepsBuffers = true) (ha : after.all Action.keepsReply = true) (s : State) :
    OnlyReplyWritten s (performAll (before ++ txAppendAll 0 body ++ after) s) := by
  rw [performAll_append, performAll_append]
  obtain ⟨hrx, htx⟩ := performAll_keepsBuffers hb s
  obtain ⟨hrxBody, htxBody⟩ := performAll_txAppendAll_zero hl (performAll before s)
  generalize performAll (txAppendAll 0 body) (performAll before s) = t at hrxBody htxBody ⊢
  obtain ⟨hrxAfter, htxAfter⟩ := performAll_keepsBuffers (all_keepsBuffers_of_keepsReply ha) t
  refine ⟨hrxAfter.trans (hrxBody.trans hrx), fun a hle => ?_⟩
  rw [performAll_keepsTlen ha] at hle
  rw [htxAfter, htxBody a hle, htx]

theorem actionSteps_perform {s : State} {a : Action} {rest : List Action} (n : Nat) (ha : admitted s.cfg = true)
    (hc : s.inCall = none) (ht : s.todo = a :: rest) :
    actionSteps (n + 1) s = actionSteps n (perform a { s with todo := rest }) :=
  actionSteps_succ n (by simp [ht]) (step_perform ha hc ht)

/-- A device reset that keeps the engine, and the tick's return (R292). -/
theorem actionSteps_devReset_kept {s : State} (ha : admitted s.cfg = true) (hc : s.inCall = none)
    (ht : s.todo = [.port .devReset, .ret]) (hr : ¬Action.Restarts s (.port .devReset)) :
    actionSteps 2 s = .next { s with
      out := s.out ++ [.devReset], draws := s.draws + 1, rstate := .waiting, todo := [] } := by
  rw [actionSteps_perform 1 ha hc ht, perform_devReset_kept (s := { s with todo := [.ret] }) hr]
  exact actionSteps_perform 0 (s := { s with out := s.out ++ [.devReset], draws := s.draws + 1, todo := [.ret] })
    ha hc rfl

/-- The actions of a RESET whose device reset keeps the engine (R174, R292). -/
theorem finish_reset_kept {s : State} (ha : admitted s.cfg = true) (hc : s.inCall = none)
    (ht : s.todo = [freshReply, .write (.id unsetId), .port (.senseOut .high), .port .devReset, .ret])
    (hr : ¬Action.Restarts s (.port .devReset)) :
    finishActions s = .next { s with
      tlen := 0, id := unsetId, senseOut := .high, out := s.out ++ [.senseOut .high] ++ [.devReset],
      draws := s.draws + 1, rstate := .waiting, todo := [] } := by
  have hplain := actionSteps_plain [freshReply, .write (.id unsetId), .port (.senseOut .high)]
    [.port .devReset, .ret] 2 s ha hc rfl ht
  rw [finishActions, ht]
  exact hplain.trans (actionSteps_devReset_kept ha hc rfl hr)

/-- Once an instruction's list is done, only the reply body is written, unless a device reset among it restarts the node
(R53, R292). -/
theorem ReplyList.finished {t u : State} (h : ReplyList t.todo) (ha : admitted t.cfg = true) (hc : t.inCall = none)
    (hu : finishActions t = .next u) :
    OnlyReplyWritten t u ∨
      (.port .devReset ∈ t.todo ∧ Config.freeResetEffect t.stream t.draws = .powerOn) := by
  generalize hl : t.todo = as at h ⊢
  cases h with
  | builds before body after hlen hb hafter =>
    have hplain : t.todo.all Action.isPlain = true := by
      rw [hl, List.all_append, List.all_append, all_isPlain_of_keepsBuffers hb, txAppendAll_plain,
        all_isPlain_of_keepsBuffers (all_keepsBuffers_of_keepsReply hafter)]; rfl
    rw [finish_plain ha hc hplain, settled, hl] at hu
    cases hu
    exact .inl (performAll_builds hlen hb hafter { t with todo := [] })
  | calls k =>
    have hfresh := actionSteps_perform 1 ha hc hl
    have hcall := actionSteps_perform 0 (s := { t with tlen := 0, todo := [.port (.call k)] }) ha hc rfl
    rw [finishActions, hl] at hu
    cases hu.symm.trans (hfresh.trans hcall)
    exact .inl ⟨rfl, fun _ _ => rfl⟩
  | resets =>
    by_cases hr : Action.Restarts t (.port .devReset)
    · exact .inr ⟨by simp, hr.2⟩
    · rw [finish_reset_kept ha hc hl hr] at hu
      cases hu
      exact .inl ⟨rfl, fun _ _ => rfl⟩

/-! ### What an instruction lists -/

theorem txAppendAll_no_rxBuf (bytes : List Byte) (n a : Nat) (v : Byte) :
    .write (.rxBuf a v) ∉ txAppendAll n bytes := by
  induction bytes generalizing n with
  | nil => exact List.not_mem_nil
  | cons b rest ih => simp [txAppendAll, txAppend, ih]

/-- No such list writes `RxBuf` (R51). -/
theorem ReplyList.no_rxBuf {as : List Action} (h : ReplyList as) (a : Nat) (v : Byte) :
    .write (.rxBuf a v) ∉ as := by
  cases h with
  | builds before body after hl hb ha =>
    intro hm
    rcases List.mem_append.mp hm with hm | hm
    · rcases List.mem_append.mp hm with hm | hm
      · cases List.all_eq_true.mp hb _ hm
      · exact txAppendAll_no_rxBuf body 0 a v hm
    · cases List.all_eq_true.mp ha _ hm
  | calls | resets => simp [freshReply]

theorem ReplyList.of_keepsBuffers {as : List Action} (h : as.all Action.keepsBuffers = true) : ReplyList as := by
  simpa [txAppendAll] using ReplyList.builds as [] [] (by simp) h rfl

theorem sendFrame_keepsReply (status : Byte) (body : List Byte) :
    (sendFrame status body).all Action.keepsReply = true := by
  rw [List.all_eq_true]
  intro a ha
  rcases mem_sendFrame ha with ⟨_, rfl⟩ | ⟨_, rfl⟩ | ⟨_, rfl⟩ | ⟨_, rfl⟩ <;> rfl

theorem sendFrame_keepsBuffers (status : Byte) (body : List Byte) :
    (sendFrame status body).all Action.keepsBuffers = true :=
  all_keepsBuffers_of_keepsReply (sendFrame_keepsReply status body)

/-- What is to do in `t` is what was to do in `s`, and then a list that writes the reply body alone. -/
def AddsReplyList (s t : State) : Prop := ∃ as, t.todo = s.todo ++ as ∧ ReplyList as

theorem addsReplyList_enqueue {s u : State} (hu : u.todo = s.todo) {as : List Action} (h : ReplyList as) :
    AddsReplyList s (enqueue as u) := ⟨as, by rw [enqueue_todo, hu], h⟩

/-- A reply body that fits, and a reply after it, with what keeps the buffers around them (R53, R220). -/
theorem ReplyList.of_reply {c : Config} {status : Byte} {before between after : List Action} {bytes : List Byte}
    (hl : bytes.length ≤ replyRoom c) (hbefore : before.all Action.keepsBuffers = true)
    (hbetween : between.all Action.keepsReply = true) (hafter : after.all Action.keepsReply = true) :
    ReplyList (before ++ txAppendAll 0 bytes ++ between ++ sendReply status bytes ++ after ++ [.ret]) := by
  have hroom : replyRoom c ≤ 253 := Nat.min_le_right _ _
  have hrest : (between ++ (sendReply status bytes ++ (after ++ [Action.ret]))).all Action.keepsReply = true := by
    rw [List.all_append, List.all_append, List.all_append, hbetween, sendReply, sendFrame_keepsReply, hafter]; rfl
  simpa only [List.append_assoc] using ReplyList.builds before bytes _ (by omega) hbefore hrest

/-- A positive reply lists its body between what keeps the buffers (R53, R171). -/
theorem addsReplyList_reply {before between after : List Action} {body : List Byte} {s u t : State}
    (ht : reply before body between after u = .next t) (hu : u.todo = s.todo)
    (hbefore : before.all Action.keepsBuffers = true) (hbetween : between.all Action.keepsReply = true)
    (hafter : after.all Action.keepsReply = true) : AddsReplyList s t := by
  obtain ⟨hfits, rfl⟩ := listIf_eq_next ht
  exact addsReplyList_enqueue hu (.of_reply (of_decide_eq_true hfits) hbefore hbetween hafter)

theorem addsReplyList_replyOk {body : List Byte} {s t : State} (ht : replyOk body s = .next t) : AddsReplyList s t :=
  addsReplyList_reply ht rfl rfl rfl rfl

/-- An unknown command, after some actions that keep the buffers (R190). -/
theorem addsReplyList_unknown {as : List Action} (has : as.all Action.keepsBuffers = true) {s t : State}
    (ht : takeError .unknownCommand (enqueue as s) = .next t) : AddsReplyList s t := by
  rw [takeError] at ht
  split at ht <;> cases ht
  · rw [enqueue_enqueue]
    refine addsReplyList_enqueue rfl (.of_keepsBuffers ?_)
    rw [List.all_append, has]; rfl
  · rw [enqueue_enqueue]
    refine addsReplyList_enqueue rfl (.of_keepsBuffers ?_)
    rw [List.all_append, List.all_append, has, sendReply, sendFrame_keepsBuffers]; rfl

/-- What every instruction lists writes the reply body alone (R51, R53, R191). -/
theorem exec_addsReplyList {i : Instr} {s t : State} (h : exec i s = .next t) : AddsReplyList s t := by
  cases i with
  | reset body =>
    change execReset body s = _ at h
    simp only [execReset] at h
    split at h <;> cases h
    · exact addsReplyList_enqueue rfl .resets
    · exact addsReplyList_enqueue rfl (.of_keepsBuffers rfl)
  | assignAddr body =>
    change execAssignAddr body s = _ at h
    simp only [execAssignAddr] at h
    split at h
    · exact addsReplyList_reply h rfl rfl rfl rfl
    · cases h; exact addsReplyList_enqueue rfl (.of_keepsBuffers rfl)
  | readId body =>
    obtain ⟨-, rfl⟩ := listIf_eq_next h
    refine addsReplyList_enqueue rfl (.of_keepsBuffers ?_)
    rw [List.all_append, List.all_cons, sendIdReply, sendFrame_keepsBuffers]; rfl
  | getCmdVersion | getJvsVersion | getCommVersion | getFeatures | ping | getSense => exact addsReplyList_replyOk h
  | cntr body => exact addsReplyList_reply h rfl rfl rfl rfl
  | incr body => cases h; exact addsReplyList_enqueue rfl (.of_keepsBuffers rfl)
  | reqRetransmit | unknown => exact addsReplyList_unknown rfl h
  | noteDown body | noteUp body | light body | control body =>
    cases (forwardEvent_eq _ body s).symm.trans h
    exact addsReplyList_enqueue rfl (.calls _)
  | sync =>
    change execSync s = _ at h
    by_cases ho : s.rstate = .overflow
    · rw [show execSync s = .next s by simp [execSync, ho]] at h
      cases h; exact ⟨[], by simp, .of_keepsBuffers rfl⟩
    · cases (execSync_eq ho).symm.trans h
      exact addsReplyList_enqueue rfl (.of_keepsBuffers rfl)
  | mark =>
    change execMark s = _ at h
    by_cases hf : InFrame s
    · cases (execMark_inFrame hf).symm.trans h
      exact ⟨[], by simp, .of_keepsBuffers rfl⟩
    · cases (execMark_outside hf).symm.trans h
      exact ⟨[], by simp, .of_keepsBuffers rfl⟩

theorem addsReplyList_useAnswer {a : Answer} {s t : State} (ht : useAnswer a s = .next t) : AddsReplyList s t := by
  rw [useAnswer] at ht
  split at ht
  · split at ht
    · cases ht; exact addsReplyList_enqueue rfl (.of_keepsBuffers rfl)
    · next bytes _ =>
      obtain ⟨hfits, rfl⟩ := listIf_eq_next ht
      have h := ReplyList.of_reply (status := s.cfg.statusOk) (before := []) (between := []) (after := [])
        (of_decide_eq_true hfits) rfl rfl rfl
      exact addsReplyList_enqueue rfl (by simpa only [List.append_nil, List.nil_append] using h)
  · exact addsReplyList_unknown (as := []) rfl (by rwa [enqueue_nil])

/-- The return of an instrument call lists likewise (R188, R193). -/
theorem callReturn_addsReplyList {c : Call} {s t : State} (ht : callReturn c s = .next t) : AddsReplyList s t := by
  cases c with
  | noteDown | noteUp => cases ht; exact addsReplyList_enqueue rfl (.of_keepsBuffers rfl)
  | light | control =>
    have h : AddsReplyList (takeAnswer s).2 t := addsReplyList_useAnswer ht
    rwa [AddsReplyList, takeAnswer_todo] at h

/-! ### One action, and the statement -/

/-- What an action does to the buffers and `TLEN`: nothing, its own write, or a restart (R51, R53, R292). -/
theorem perform_buffers (a : Action) (s : State) :
    (((perform a s).rxBuf = s.rxBuf ∨
        ∃ n v, a = .write (.rxBuf n v) ∧ (perform a s).rxBuf = s.rxBuf.write n v) ∧
      ((perform a s).txBuf = s.txBuf ∨
        ∃ n v, a = .write (.txBuf n v) ∧ (perform a s).txBuf = s.txBuf.write n v) ∧
      ((perform a s).tlen = s.tlen ∨ a = .write (.tlen (perform a s).tlen))) ∨ a.Restarts s := by
  by_cases hr : a.Restarts s
  · exact .inr hr
  left
  cases a with
  | ret => exact ⟨.inl rfl, .inl rfl, .inl rfl⟩
  | write w =>
    cases w with
    | rxBuf n v => exact ⟨.inr ⟨n, v, rfl, rfl⟩, .inl rfl, .inl rfl⟩
    | txBuf n v => exact ⟨.inl rfl, .inr ⟨n, v, rfl, rfl⟩, .inl rfl⟩
    | tlen v => exact ⟨.inl rfl, .inl rfl, .inr rfl⟩
    | id | cntr | rstate | sum | dest | bcast | count | cmd | ptr | tsum | addTsum =>
      exact ⟨.inl rfl, .inl rfl, .inl rfl⟩
  | port e =>
    cases e with
    | devReset => rw [perform_devReset_kept hr]; exact ⟨.inl rfl, .inl rfl, .inl rfl⟩
    | dir | tx | senseOut | call => exact ⟨.inl rfl, .inl rfl, .inl rfl⟩

theorem admitted_of_next {s t : State} (h : step s = .next t) : admitted s.cfg = true := by
  by_contra ha
  rw [step_unadmitted (Bool.eq_false_iff.mpr ha)] at h
  cases h

/-- What the step of a call's return leaves of the node: what is to do, and no call under way (R193). -/
theorem step_return_frame {s t : State} {c : Call} (hc : s.inCall = some c) (hr : s.instrReady = true)
    (h : step s = .next t) :
    AddsReplyList s t ∧ t = { s with inCall := none, todo := t.todo, draws := t.draws, answers := t.answers } := by
  rw [step_return (admitted_of_next h) hc hr] at h
  obtain ⟨as, hlist, -⟩ := callReturn_lists h
  have hadds : AddsReplyList { s with inCall := none } t := callReturn_addsReplyList h
  exact ⟨hadds, by rw [hlist]; rfl⟩

/-- Settles O51: what an instruction and a call's return list (`exec_addsReplyList`, `callReturn_addsReplyList`), what
such a list leaves when it is done (`ReplyList.finished`), and what one action writes (`perform_buffers`). -/
theorem instructionsLeaveTheBuffers : Obligations.InstructionsLeaveTheBuffers := by
  refine ⟨fun i s t h => ?_, fun i s t u hlists hu => ?_, fun s t h => ?_⟩
  · obtain ⟨as, htodo, has⟩ := exec_addsReplyList h
    refine ⟨by rw [exec_frame h], by rw [exec_frame h], by rw [exec_frame h], fun a v hm => ?_⟩
    rw [htodo] at hm
    exact (List.mem_append.mp hm).resolve_right (has.no_rxBuf a v)
  · have hlisted : admitted t.cfg = true ∧ t.inCall = none ∧ ReplyList t.todo ∧ t.rxBuf = s.rxBuf ∧
        t.txBuf = s.txBuf := by
      rcases hlists with ⟨⟨ha, hc, ht⟩, h⟩ | ⟨ht, hc, hr, h⟩
      · obtain ⟨as, htodo, has⟩ := exec_addsReplyList h
        rw [ht, List.nil_append] at htodo
        rw [← htodo] at has
        rw [exec_frame h]
        exact ⟨ha, hc, has, rfl, rfl⟩
      · obtain ⟨c, hc⟩ := Option.ne_none_iff_exists'.mp hc
        obtain ⟨⟨as, htodo, has⟩, hframe⟩ := step_return_frame hc hr h
        rw [ht, List.nil_append] at htodo
        rw [← htodo] at has
        have ha := admitted_of_next h
        rw [hframe]
        exact ⟨ha, rfl, has, rfl, rfl⟩
    obtain ⟨ha, hc, has, hrx, htx⟩ := hlisted
    have hdone := has.finished ha hc hu
    rwa [OnlyReplyWritten, hrx, htx] at hdone
  · cases step_kinds h with
    | holds | pops | completes | writes | lists | returns => exact .inl ⟨.inl rfl, .inl rfl, .inl rfl⟩
    | acts a rest _ ht =>
      have hbuffers := perform_buffers a { s with todo := rest }
      simpa [ht, Action.Restarts] using hbuffers

end Sys2Proof.Machine

/-! SUPPORT. Proofs of the statements about the encoding (spec/30_encoding.md): the command map (R77), the feature
descriptors (R80, R84), the lengths of a request (R73, R86), the decoder on what the encoder writes (R72 to R74, R88),
the engine's reception of it (R142), and the operands of the instrument events (R81, R83). -/

namespace Sys2Proof

/-! ## Lengths (R70, R73, R86) -/

theorem length_stuffByte (b : Byte) : (stuffByte b).length = 1 + if b = syncByte ∨ b = markByte then 1 else 0 := by
  cases h : reserved b with
  | true => rw [stuffByte_reserved h, if_pos ((reserved_iff b).mp h)]; rfl
  | false => rw [stuffByte_plain h, if_neg (not_or.mpr ((reserved_false_iff b).mp h))]; rfl

theorem length_stuff (bytes : List Byte) :
    (stuff bytes).length = (bytes.map fun b => 1 + if b = syncByte ∨ b = markByte then 1 else 0).sum := by
  rw [stuff, List.length_flatMap]
  exact congrArg List.sum (List.map_congr_left fun b _ => length_stuffByte b)

/-- The length byte of a body that a frame can carry holds its length plus 2. -/
theorem toNat_lengthByte {n : Nat} (h : n ≤ 253) : (BitVec.ofNat 8 (n + 2)).toNat = n + 2 := by
  rw [BitVec.toNat_ofNat]; omega

theorem bodyLen_lengthByte {n : Nat} (h : n ≤ 253) : bodyLen (BitVec.ofNat 8 (n + 2)) = n := by
  rw [bodyLen, toNat_lengthByte h, Nat.add_sub_cancel]

/-! ## The decoder on a frame (R72 to R74, R88) -/

theorem destuff_stuff (bytes : List Byte) : destuff (stuff bytes) = .ok bytes := by
  induction bytes with
  | nil => rfl
  | cons b rest ih => rw [destuff, stuff_cons, destuffFrom_stuffByte, ← destuff, ih]; rfl

theorem stuff_cons_ne_nil (b : Byte) (rest : List Byte) : stuff (b :: rest) ≠ [] := by
  rw [stuff_cons, stuffByte]; split <;> exact List.cons_ne_nil _ _

/-- A `SYNC` and a stuffed sequence are the request that the sequence holds. -/
theorem decode_stuffed (c : Config) (b : Byte) (rest : List Byte) :
    decode c (syncByte :: stuff (b :: rest)) = parseRequest c (b :: rest) := by
  have hdestuff := destuff_stuff (b :: rest)
  obtain ⟨x, xs, hx⟩ := List.exists_cons_of_ne_nil (stuff_cons_ne_nil b rest)
  rw [hx] at hdestuff ⊢
  rw [decode, if_pos rfl]
  change (destuff (x :: xs)).bind (parseRequest c) = _
  rw [hdestuff]; rfl

/-- A decoded sequence with a body as long as its length byte says, and the right checksum after it, is its request. -/
theorem parseRequest_eq {c : Config} {len : Byte} {body : List Byte} (hcap : len.toNat ≤ c.rxBufCap)
    (hlen : bodyLen len = body.length) (dest code : Byte) :
    parseRequest c (dest :: len :: code :: (body ++ [byteSum (dest :: len :: code :: body)])) =
      .ok (.request dest (decodeCommand c code body)) := by
  simp [parseRequest, Nat.not_lt.mpr hcap, hlen]

/-- A request frame within capacity decodes to the command that its code selects. -/
theorem decode_encodeRequest {c : Config} {body : List Byte} (hmax : c.rxBufCap ≤ 255)
    (hcap : body.length + 2 ≤ c.rxBufCap) (dest code : Byte) :
    decode c (encodeRequest dest code body) = .ok (.request dest (decodeCommand c code body)) := by
  have hn : body.length ≤ 253 := by omega
  exact (decode_stuffed c dest _).trans
    (parseRequest_eq ((toNat_lengthByte hn).trans_le hcap) (bodyLen_lengthByte hn) dest code)

/-- The code of a well-formed command selects that command (R77). -/
theorem decodeCommand_of_wellFormed {c : Config} (hd : c.codes.Nodup) {i : Instr} (hw : i.wellFormed c = true)
    (hi : i.isWire = false) : decodeCommand c (i.code c) i.body = i := by
  cases i with
  | reset body => exact Laws.CodeSelects.reset body c hd hw hi
  | assignAddr body => exact Laws.CodeSelects.assignAddr body c hd hw hi
  | readId body => exact Laws.CodeSelects.readId body c hd hw hi
  | getCmdVersion body => exact Laws.CodeSelects.getCmdVersion body c hd hw hi
  | getJvsVersion body => exact Laws.CodeSelects.getJvsVersion body c hd hw hi
  | getCommVersion body => exact Laws.CodeSelects.getCommVersion body c hd hw hi
  | getFeatures body => exact Laws.CodeSelects.getFeatures body c hd hw hi
  | reqRetransmit body => exact Laws.CodeSelects.reqRetransmit body c hd hw hi
  | ping body => exact Laws.CodeSelects.ping body c hd hw hi
  | getSense body => exact Laws.CodeSelects.getSense body c hd hw hi
  | incr body => exact Laws.CodeSelects.incr body c hd hw hi
  | cntr body => exact Laws.CodeSelects.cntr body c hd hw hi
  | noteDown body => exact Laws.CodeSelects.noteDown body c hd hw hi
  | noteUp body => exact Laws.CodeSelects.noteUp body c hd hw hi
  | light body => exact Laws.CodeSelects.light body c hd hw hi
  | control body => exact Laws.CodeSelects.control body c hd hw hi
  | unknown code body => exact Laws.CodeSelects.unknown code body c hd hw hi
  | sync => exact Laws.CodeSelects.sync c hd hw hi
  | mark => exact Laws.CodeSelects.mark c hd hw hi

theorem Instr.body_fits {c : Config} {i : Instr} (hw : i.wellFormed c = true) : i.body.length + 2 ≤ c.rxBufCap :=
  of_decide_eq_true (Bool.and_eq_true_iff.mp hw).1

theorem encode_command (c : Config) (dest : Byte) {i : Instr} (hi : i.isWire = false) :
    encode c dest i = encodeRequest dest (i.code c) i.body := by rw [encode, hi]; rfl

theorem decode_wire (c : Config) (dest : Byte) {i : Instr} (hi : i.isWire = true) :
    decode c (encode c dest i) = .ok (.wireByte i) := by
  cases i with
  | sync => rfl
  | mark => rfl
  | _ => cases hi

/-- Settles O1: a wire byte is itself, and a command is the one its code selects. -/
theorem decodeUndoesEncode : Obligations.DecodeUndoesEncode := by
  intro c dest i ha hw
  have A := (Machine.admitted_iff c).mp ha
  cases hi : i.isWire with
  | true => exact decode_wire c dest hi
  | false =>
    rw [encode_command c dest hi, decode_encodeRequest A.rx_max (Instr.body_fits hw),
      decodeCommand_of_wellFormed A.codes hw hi]
    rfl

/-- Settles O4: the stuffed length byte by byte, and for `LEN` 0 and 1 the decoder on a frame with an empty body. -/
theorem requestLengths : Obligations.RequestLengths := by
  refine ⟨fun dest code body => ⟨?_, bodyLen_lengthByte⟩, fun len => ⟨fun _ => rfl, ?_⟩,
    fun c dest len code ha hlen => ?_⟩
  · rw [encodeRequest, List.length_cons, length_stuff, Nat.add_comm]
  · rintro (rfl | rfl) <;> rfl
  · have A := (Machine.admitted_iff c).mp ha
    have hcap : len.toNat ≤ c.rxBufCap := by
      have := A.rx_two
      rcases hlen with rfl | rfl <;> exact le_trans (by decide) this
    have hbody : bodyLen len = ([] : List Byte).length := by rcases hlen with rfl | rfl <;> rfl
    have hsum : dest + len + code = byteSum [dest, len, code] := by simp [BitVec.add_assoc]
    rw [decode_stuffed, hsum]
    exact parseRequest_eq hcap hbody dest code

/-- Settles O6: with distinct codes each row of the command map is the one its code selects. -/
theorem commandCodesSelectTheirCommand : Obligations.CommandCodesSelectTheirCommand := by
  intro c body ha
  have hd := ((Machine.admitted_iff c).mp ha).codes
  have row := fun (k : Nat) (hk : k < 16) => decodeCommand_at hd k hk body
  exact ⟨row 0 (by decide), row 1 (by decide), row 2 (by decide), row 3 (by decide), row 4 (by decide),
    row 5 (by decide), row 6 (by decide), row 7 (by decide), row 8 (by decide), row 9 (by decide), row 10 (by decide),
    row 11 (by decide), row 12 (by decide), row 13 (by decide), row 14 (by decide), row 15 (by decide),
    fun _ hc => decodeCommand_unmapped hc body⟩

/-- Settles O5: the decoder evaluated on each word. -/
theorem writtenWordsDecode : Obligations.WrittenWordsDecode := ⟨rfl, rfl, rfl, rfl, rfl, rfl⟩

namespace Machine

/-! ## Feature descriptors (R80, R84) -/

/-- A 16-bit value is its high byte times 256 plus its low byte (R11). -/
theorem toNat_eq_hi_lo (v : BitVec 16) : v.toNat = (hiByte v).toNat * 256 + (loByte v).toNat := by
  simp only [hiByte, loByte, BitVec.extractLsb'_toNat, Nat.shiftRight_eq_div_pow]
  omega

/-- Settles O33: the offset's bytes are its high and its low byte. -/
theorem featureDescriptorsAreFourBytes : Obligations.FeatureDescriptorsAreFourBytes := fun _ _ _ _ v =>
  ⟨rfl, rfl, rfl, hiByte v, loByte v, rfl, toNat_eq_hi_lo v⟩

/-! ## The instrument events (R186 to R189) -/

/-- Register writes do the same whatever number of draws has been made. -/
theorem performAll_draws {as : List Action} (h : ∀ a ∈ as, ∃ w, a = .write w) (s : State) (d : Nat) :
    performAll as { s with draws := d } = { performAll as s with draws := d } := by
  induction as generalizing s with
  | nil => rfl
  | cons a rest ih =>
    obtain ⟨w, rfl⟩ := h a (List.mem_cons_self ..)
    have hw : applyWrite w { s with draws := d } = { applyWrite w s with draws := d } := by cases w <;> rfl
    rw [performAll_cons, performAll_cons, perform_write, perform_write, hw,
      ih (fun b hb => h b (List.mem_cons_of_mem _ hb))]

/-- Listed at rest, the call of an event is made after `TLEN` is cleared (R170, R193). -/
theorem Idle.finish_call {s : State} (h : Idle s) (k : Call) :
    finishActions (enqueue [freshReply, .port (.call k)] s) =
      .next { s with tlen := 0, out := s.out ++ [.call k], inCall := some k } := by
  obtain ⟨ha, hc, ht⟩ := h
  have htodo : (enqueue [freshReply, .port (.call k)] s).todo = [freshReply, .port (.call k)] := by simp [ht]
  have hclear := actionSteps_plain [freshReply] [.port (.call k)] 1 (enqueue [freshReply, .port (.call k)] s) ha hc rfl
    htodo
  have hcall := step_perform (s := { s with tlen := 0, todo := [.port (.call k)] }) ha hc rfl
  rw [finishActions, htodo]
  refine hclear.trans ((actionSteps_succ 0 (List.cons_ne_nil _ _) hcall).trans ?_)
  rw [actionSteps_nil 0 rfl, perform_call, ht]

theorem eventCall_settled {s : State} (h : Dispatching s) (mk : Nat → Byte → Byte → Byte → Call) (body : List Byte) :
    eventCall mk body (settled s) = eventCall mk body s := by rw [h.settled]; rfl

/-- The call of an event, made from a dispatch. -/
theorem finish_calling {s : State} (h : Dispatching s) (mk : Nat → Byte → Byte → Byte → Call) (body : List Byte) :
    finishActions (calling mk body s) = .next (called mk body (settled s)) := by
  have hd : Dispatching { s with draws := s.draws + (s.cfg.timeBytes + 3 - body.length) } := h
  have hs : settled { s with draws := s.draws + (s.cfg.timeBytes + 3 - body.length) } =
      { settled s with draws := s.draws + (s.cfg.timeBytes + 3 - body.length) } :=
    performAll_draws h.2.2 { s with todo := [] } _
  have hdraws : (settled s).draws = s.draws := by rw [h.settled]
  have hcfg : (settled s).cfg = s.cfg := by rw [h.settled]
  rw [calling, hd.finish, hd.idle.finish_call, hs, called, eventCall_settled h, hdraws, hcfg]

/-- Each event forwards its operands to the instrument. -/
theorem exec_event {mk : Nat → Byte → Byte → Byte → Call} {body : List Byte} {i : Instr}
    (h : (mk = .noteDown ∧ i = .noteDown body) ∨ (mk = .noteUp ∧ i = .noteUp body) ∨
      (mk = .light ∧ i = .light body) ∨ (mk = .control ∧ i = .control body)) (s : State) :
    exec i s = .next (calling mk body s) := by
  rw [← forwardEvent_eq]
  rcases h with ⟨rfl, rfl⟩ | ⟨rfl, rfl⟩ | ⟨rfl, rfl⟩ | ⟨rfl, rfl⟩ <;> rfl

/-- The instrument's return from a note lists the tick's return (R186, R187). -/
theorem callReturn_note {mk : Nat → Byte → Byte → Byte → Call} (h : mk = .noteDown ∨ mk = .noteUp)
    (body : List Byte) (u s : State) : callReturn (eventCall mk body u) s = .next (enqueue [.ret] s) := by
  rcases h with rfl | rfl <;> rfl

/-- Settles O45: the call with the operands of `forwardEvent_eq`, and the return of a note. -/
theorem eventsReachTheInstrument : Obligations.EventsReachTheInstrument := by
  intro body s h
  refine ⟨fun mk i hi => ⟨exec_event hi s, finish_calling h mk body⟩, fun mk hmk hready => ?_⟩
  have hidle : Idle { called mk body (settled s) with inCall := none } := ⟨h.idle.1, rfl, h.idle.2.2⟩
  have hready : (called mk body (settled s)).instrReady = true := by rw [← hready, called, h.settled]
  exact ⟨(step_return (s := called mk body (settled s)) h.idle.1 rfl hready).trans (callReturn_note hmk body _ _),
    hidle.finish rfl⟩

/-! ## Reception: one payload byte (R112, R131) -/

/-- The pop of a payload byte and the listing of what its receive state makes of it. -/
theorem steps_payload {s : State} {b v : Byte} {rest : List Byte} (hy : Ready s) (hd : Decoding s)
    (hx : s.rx = b :: rest) (hv : Payload s b v) :
    steps 2 s = (receive v { s with rx := rest, escape := false }).outcome := by
  rw [steps_succ 1 (step_pops hy (.inr hd) hx), steps_one, step_justPopped hy,
    receiveWire_payload (s := { s with rx := rest }) hv hd.inFrame]

/-- The pop of a `MARK`, and its listing, which lists nothing (R112). -/
theorem steps_mark {s : State} {rest : List Byte} (hy : Ready s) (hd : Decoding s) (he : s.escape = false)
    (hx : s.rx = markByte :: rest) : steps 2 s = .next { s with rx := rest, escape := true } := by
  rw [steps_succ 1 (step_pops hy (.inr hd) hx), steps_one, step_justPopped hy,
    receiveWire_mark (s := { s with rx := rest }) (.inl he)]
  exact execMark_inFrame (s := { s with rx := rest }) hd.inFrame

/-- The steps of a stuffed byte, to the listing of what its receive state makes of it: two for each wire byte (R114). -/
theorem steps_stuffByte {s : State} {v : Byte} {rest : List Byte} (hy : Ready s) (hd : Decoding s)
    (he : s.escape = false) (hx : s.rx = stuffByte v ++ rest) :
    steps (2 * (stuffByte v).length) s = (receive v { s with rx := rest }).outcome := by
  have hself : ({ s with rx := rest, escape := false } : State) = { s with rx := rest } := by rw [← he]
  cases hres : reserved v with
  | false =>
    obtain ⟨hsync, hmark⟩ := (reserved_false_iff v).mp hres
    have hv : Payload s v v := ⟨hsync, by simp [he, hmark]⟩
    rw [stuffByte_plain hres] at hx ⊢
    rw [← hself]
    exact steps_payload hy hd hx hv
  | true =>
    obtain ⟨hsync, hsucc⟩ := reserved_pred hres
    rw [stuffByte_reserved hres] at hx ⊢
    have hv : Payload { s with rx := (v - 1) :: rest, escape := true } (v - 1) v := ⟨hsync, hsucc.symm⟩
    rw [← hself]
    exact (steps_add 2 2 (steps_mark hy hd he hx)).trans
      (steps_payload (s := { s with rx := (v - 1) :: rest, escape := true }) hy hd rfl hv)

/-- All the steps of a stuffed byte whose receive state lists plain actions: these come after, one a step. -/
theorem steps_stuffByte_listed {s : State} {v : Byte} {rest : List Byte} {as : List Action} (hy : Ready s)
    (hd : Decoding s) (he : s.escape = false) (hx : s.rx = stuffByte v ++ rest) (hp : as.all Action.isPlain = true)
    (hr : (receive v { s with rx := rest }).outcome = .next (enqueue as { s with rx := rest })) :
    steps (2 * (stuffByte v).length + as.length) s = .next (performAll as { s with rx := rest }) := by
  have hidle : Idle { s with rx := rest } := hy.1
  rw [steps_add _ as.length ((steps_stuffByte hy hd he hx).trans hr)]
  exact steps_listed hp hidle

/-! ## Reception: the bytes of a frame (R133 to R138) -/

/-- A destination that the node accepts: four writes (R133). -/
theorem steps_dest {s : State} {dest : Byte} {rest : List Byte} (h : At .gotSync s) (he : s.escape = false)
    (hx : s.rx = stuffByte dest ++ rest) (hm : dest ≠ masterAddr) (ha : acceptsDest s dest = true) :
    steps (2 * (stuffByte dest).length + 4) s = .next { s with
      rx := rest, sum := s.sum + dest, dest := dest, bcast := broadcastFlag dest, rstate := .readCount } := by
  obtain ⟨hy, hr⟩ := h
  have ha : broadcastFlag dest = true ∨ dest = s.id := by simpa [acceptsDest] using ha
  refine steps_stuffByte_listed (as := [.write (.sum (s.sum + dest)), .write (.dest dest),
    .write (.bcast (broadcastFlag dest)), .write (.rstate .readCount)]) hy (.inl hr) he hx rfl ?_
  simp [receive, hr, accumulate, hm, acceptsDest, ha]

/-- A length within capacity: three writes (R134). -/
theorem steps_count {s : State} {len : Byte} {rest : List Byte} (h : At .readCount s) (he : s.escape = false)
    (hx : s.rx = stuffByte len ++ rest) (hl : len.toNat ≤ s.cfg.rxBufCap) :
    steps (2 * (stuffByte len).length + 3) s = .next { s with
      rx := rest, sum := s.sum + len, count := len, rstate := .readCommand } := by
  obtain ⟨hy, hr⟩ := h
  refine steps_stuffByte_listed (as := [.write (.sum (s.sum + len)), .write (.count len), .write (.rstate .readCommand)])
    hy (.inr (.inl hr)) he hx rfl ?_
  simp [receive, hr, accumulate, overCapacity, Nat.not_lt.mpr hl]

/-- The command byte: four writes (R135). -/
theorem steps_command {s : State} {code : Byte} {rest : List Byte} (h : At .readCommand s) (he : s.escape = false)
    (hx : s.rx = stuffByte code ++ rest) :
    steps (2 * (stuffByte code).length + 4) s = .next { s with
      rx := rest, sum := s.sum + code, cmd := code, ptr := 0, rstate := .readBody } := by
  obtain ⟨hy, hr⟩ := h
  refine steps_stuffByte_listed (as := [.write (.sum (s.sum + code)), .write (.cmd code), .write (.ptr 0),
    .write (.rstate .readBody)]) hy (.inr (.inr (.inl hr))) he hx rfl ?_
  simp [receive, hr, accumulate]

/-- A body byte: three writes (R136). -/
theorem steps_bodyByte {s : State} {v : Byte} {rest : List Byte} (h : At .readBody s) (he : s.escape = false)
    (hx : s.rx = stuffByte v ++ rest) (hlt : s.ptr.toNat < bodyLen s.count) (hcap : s.ptr.toNat < s.cfg.rxBufCap) :
    steps (2 * (stuffByte v).length + 3) s = .next { s with
      rx := rest, sum := s.sum + v, rxBuf := s.rxBuf.write s.ptr.toNat v, ptr := s.ptr + 1 } := by
  obtain ⟨hy, hr⟩ := h
  refine steps_stuffByte_listed (as := [.write (.sum (s.sum + v)), .write (.rxBuf s.ptr.toNat v),
    .write (.ptr (s.ptr + 1))]) hy (.inr (.inr (.inr (.inl ⟨hr, hlt⟩)))) he hx rfl ?_
  simp [receive, hr, storeBody, hcap, accumulate]

/-- A complete body: one step to `VERIFY_SUM` (R136). -/
theorem steps_bodyComplete {s : State} (h : At .readBody s) (hl : bodyLen s.count ≤ s.ptr.toNat) :
    steps 1 s = .next { s with rstate := .verifySum } := by
  rw [steps_one, step_of_ready h.1, fetchFrame, h.2]
  exact if_neg (Nat.not_lt.mpr hl)

/-- The right checksum: the step that lists its addition to `SUM` runs the command (R138, R170). -/
theorem steps_checksum {s : State} {rest : List Byte} (h : At .verifySum s) (he : s.escape = false)
    (hx : s.rx = stuffByte s.sum ++ rest) :
    steps (2 * (stuffByte s.sum).length) s =
      exec (decodeCommand s.cfg s.cmd (frameBody s)) { s with rx := rest, todo := [.write (.sum (s.sum + s.sum))] } := by
  obtain ⟨hy, hr⟩ := h
  rw [steps_stuffByte hy (.inr (.inr (.inr (.inr hr)))) he hx]
  simp [receive, hr, accumulate, enqueue, hy.1.2.2, frameBody]

/-! ## Reception: a whole frame (R142) -/

theorem Memory.writeAll_append_singleton (stored : List Byte) (m : Memory) (a : Nat) (v : Byte) :
    m.writeAll a (stored ++ [v]) = (m.writeAll a stored).write (a + stored.length) v := by
  induction stored generalizing m a with
  | nil => rfl
  | cons b more ih =>
    rw [List.cons_append, Memory.writeAll, Memory.writeAll, ih, List.length_cons, Nat.add_right_comm a 1, Nat.add_assoc]

/-- `s` in `READ_BODY`, when it has received a request's head and the body bytes `stored`, with `rest` on its port. -/
def holding (dest len code : Byte) (stored rest : List Byte) (s : State) : State :=
  { s with
    rstate := .readBody
    sum := byteSum (dest :: len :: code :: stored)
    dest := dest
    bcast := broadcastFlag dest
    count := len
    cmd := code
    ptr := BitVec.ofNat 8 stored.length
    rxBuf := s.rxBuf.writeAll 0 stored
    escape := false
    rx := rest }

/-- The head of a frame, `SYNC` to the command byte, received in `WAITING`. -/
theorem steps_head {s : State} {dest len code : Byte} {rest : List Byte} (h : At .waiting s)
    (hx : s.rx = syncByte :: (stuff [dest, len, code] ++ rest)) (hm : dest ≠ masterAddr)
    (ha : acceptsDest s dest = true) (hl : len.toNat ≤ s.cfg.rxBufCap) :
    steps (15 + 2 * (stuff [dest, len, code]).length) s = .next (holding dest len code [] rest s) := by
  obtain ⟨hy, hr⟩ := h
  have hsync := steps_sync ⟨hy, hr⟩ hx
  have hdest := steps_dest (dest := dest) (rest := stuff [len, code] ++ rest)
    (s := { s with rx := stuff [dest, len, code] ++ rest, rstate := .gotSync, sum := 0, escape := false })
    ⟨hy, rfl⟩ rfl (by simp) hm ha
  have hcount := steps_count (len := len) (rest := stuff [code] ++ rest)
    (s := { s with
      rx := stuff [len, code] ++ rest, rstate := .readCount, sum := 0 + dest, dest := dest, bcast := broadcastFlag dest,
      escape := false })
    ⟨hy, rfl⟩ rfl (by simp) hl
  have hcode := steps_command (code := code) (rest := rest)
    (s := { s with
      rx := stuff [code] ++ rest, rstate := .readCommand, sum := 0 + dest + len, dest := dest,
      bcast := broadcastFlag dest, count := len, escape := false })
    ⟨hy, rfl⟩ rfl (by simp)
  have hsteps : 15 + 2 * (stuff [dest, len, code]).length = 4 + ((2 * (stuffByte dest).length + 4) +
      ((2 * (stuffByte len).length + 3) + (2 * (stuffByte code).length + 4))) := by
    simp only [stuff_cons, stuff_nil, List.length_append, List.length_nil]; omega
  rw [hsteps, steps_add 4 _ hsync, steps_add _ _ hdest, steps_add _ _ hcount, hcode]
  simp [holding, Memory.writeAll, BitVec.add_assoc]

/-- One more body byte received. -/
theorem steps_holding_byte {s : State} (hy : Ready s) {dest len code v : Byte} {stored rest : List Byte}
    (hlt : stored.length < bodyLen len) (hcap : stored.length < s.cfg.rxBufCap) :
    steps (2 * (stuffByte v).length + 3) (holding dest len code stored (stuffByte v ++ rest) s) =
      .next (holding dest len code (stored ++ [v]) rest s) := by
  have hptr : (BitVec.ofNat 8 stored.length).toNat = stored.length := by
    have hmax : bodyLen len < 256 := (Nat.sub_le _ 2).trans_lt len.isLt
    rw [BitVec.toNat_ofNat]; omega
  have hbyte := steps_bodyByte (s := holding dest len code stored (stuffByte v ++ rest) s) (v := v) (rest := rest)
    ⟨hy, rfl⟩ rfl rfl (hptr.trans_lt hlt) (hptr.trans_lt hcap)
  rw [hbyte]
  simp [holding, hptr, Memory.writeAll_append_singleton, BitVec.add_assoc, BitVec.ofNat_add]

/-- The rest of a body received, byte by byte. -/
theorem steps_holding_body (body : List Byte) {s : State} (hy : Ready s) {dest len code : Byte}
    {stored rest : List Byte} (hlen : stored.length + body.length ≤ bodyLen len)
    (hcap : stored.length + body.length ≤ s.cfg.rxBufCap) :
    steps (2 * (stuff body).length + 3 * body.length) (holding dest len code stored (stuff body ++ rest) s) =
      .next (holding dest len code (stored ++ body) rest s) := by
  induction body generalizing stored with
  | nil => rw [List.append_nil]; rfl
  | cons v more ih =>
    rw [List.length_cons] at hlen hcap
    have hbyte := steps_holding_byte hy (dest := dest) (code := code) (v := v) (rest := stuff more ++ rest)
      (show stored.length < bodyLen len by omega) (by omega)
    have hmore := ih (stored := stored ++ [v]) (by simp; omega) (by simp; omega)
    have hsteps : 2 * (stuff (v :: more)).length + 3 * (v :: more).length =
        (2 * (stuffByte v).length + 3) + (2 * (stuff more).length + 3 * more.length) := by
      rw [stuff_cons, List.length_append, List.length_cons]; omega
    rw [hsteps, stuff_cons, List.append_assoc, steps_add _ _ hbyte, hmore, List.append_assoc, List.singleton_append]

/-- With the whole body received, the steps of the checksum run the command that `CMD` and the body select. -/
theorem steps_holding_checksum {s : State} (hy : Ready s) {dest code : Byte} {body rest : List Byte}
    (hn : body.length ≤ 253) :
    let cs := byteSum (requestBytes dest code body)
    steps (1 + 2 * (stuffByte cs).length)
        (holding dest (BitVec.ofNat 8 (body.length + 2)) code body (stuffByte cs ++ rest) s) =
      exec (decodeCommand s.cfg code body) (loaded dest code body rest s) := by
  intro cs
  have hbody := bodyLen_lengthByte hn
  have hptr : (BitVec.ofNat 8 body.length).toNat = body.length := by rw [BitVec.toNat_ofNat]; omega
  have hcomplete := steps_bodyComplete
    (s := holding dest (BitVec.ofNat 8 (body.length + 2)) code body (stuffByte cs ++ rest) s)
    ⟨hy, rfl⟩ (hbody.trans hptr.symm).le
  have hframe : frameBody { holding dest (BitVec.ofNat 8 (body.length + 2)) code body (stuffByte cs ++ rest) s with
      rstate := .verifySum } = body := by
    change (s.rxBuf.writeAll 0 body).prefixBytes (bodyLen (BitVec.ofNat 8 (body.length + 2))) = body
    rw [hbody, Memory.prefixBytes_writeAll]
  have hrun := steps_checksum (rest := rest) (s := { holding dest (BitVec.ofNat 8 (body.length + 2)) code body
    (stuffByte cs ++ rest) s with rstate := .verifySum }) ⟨hy, rfl⟩ rfl rfl
  rw [hframe] at hrun
  exact (steps_add 1 _ hcomplete).trans hrun

/-- A whole request frame, received from `WAITING`: its last step runs the command that `CMD` and the body select. -/
theorem steps_request {s : State} {dest code : Byte} {body rest : List Byte} (h : At .waiting s)
    (hx : s.rx = encodeRequest dest code body ++ rest) (hm : dest ≠ masterAddr) (ha : acceptsDest s dest = true)
    (hcap : body.length + 2 ≤ s.cfg.rxBufCap) :
    steps (2 * (encodeRequest dest code body).length + 3 * body.length + 14) s =
      exec (decodeCommand s.cfg code body) (loaded dest code body rest s) := by
  have hmax := ((admitted_iff _).mp h.1.1.1).rx_max
  have hn : body.length ≤ 253 := by omega
  have hwire : encodeRequest dest code body =
      syncByte :: (stuff [dest, BitVec.ofNat 8 (body.length + 2), code] ++
        (stuff body ++ stuffByte (byteSum (requestBytes dest code body)))) := by
    simp [encodeRequest, requestBytes]
  have hhead := steps_head (dest := dest) (code := code)
    (rest := stuff body ++ (stuffByte (byteSum (requestBytes dest code body)) ++ rest)) h (by simp [hx, hwire]) hm ha
    ((toNat_lengthByte hn).trans_le hcap)
  have hbody := steps_holding_body body h.1 (dest := dest) (code := code) (stored := [])
    (rest := stuffByte (byteSum (requestBytes dest code body)) ++ rest)
    (by rw [bodyLen_lengthByte hn, List.length_nil, Nat.zero_add]) (by rw [List.length_nil]; omega)
  have hsteps : 2 * (encodeRequest dest code body).length + 3 * body.length + 14 =
      (15 + 2 * (stuff [dest, BitVec.ofNat 8 (body.length + 2), code]).length) +
        ((2 * (stuff body).length + 3 * body.length) +
          (1 + 2 * (stuffByte (byteSum (requestBytes dest code body))).length)) := by
    rw [hwire, List.length_cons, List.length_append, List.length_append]; omega
  rw [hsteps, steps_add _ _ hhead, steps_add _ _ hbody, List.nil_append]
  exact steps_holding_checksum h.1 hn

/-- Settles O11: the frame's reception, and the command that a well-formed instruction's code selects. -/
theorem wholeFrameRunsItsCommand : Obligations.WholeFrameRunsItsCommand := by
  intro s dest i rest h hw hi hm ha hx
  have hd := ((admitted_iff _).mp h.1.1.1).codes
  rw [encode_command _ _ hi] at hx ⊢
  rw [steps_request h hx hm ha (Instr.body_fits hw), decodeCommand_of_wellFormed hd hw hi]

end Machine

end Sys2Proof

/-! SUPPORT. Proofs of the statements about the codec (spec/40_codec.md): the bytes of a stuffed sequence (R115), the
payload byte that they are inside a frame (R112, R114), and the instruction that a popped byte runs (R113, R138). -/

namespace Sys2Proof

/-! ## What a stuffed byte is made of (R70, R115) -/

/-- A wire byte of a stuffed byte is that byte, which is then not reserved, or `MARK`, or one less than a reserved
byte. -/
theorem mem_stuffByte {v b : Byte} (h : b ∈ stuffByte v) :
    (b = v ∧ v ≠ syncByte ∧ v ≠ markByte) ∨ b = markByte ∨ b = markByte - 1 ∨ b = syncByte - 1 := by
  cases hres : reserved v with
  | false =>
    rw [stuffByte_plain hres, List.mem_singleton] at h
    exact .inl ⟨h, (reserved_false_iff v).mp hres⟩
  | true =>
    rw [stuffByte_reserved hres, List.mem_cons, List.mem_singleton] at h
    rcases h with hmark | hpred
    · exact .inr (.inl hmark)
    · rcases (reserved_iff v).mp hres with rfl | rfl
      · exact .inr (.inr (.inr hpred))
      · exact .inr (.inr (.inl hpred))

namespace Machine

/-- Settles O3: after its first byte a request is a stuffed sequence, and a reply is one after the master's address. -/
theorem stuffedBytesHoldNoSync : Obligations.StuffedBytesHoldNoSync := by
  refine ⟨fun v b => mem_stuffByte, sync_not_mem_stuff, fun dest code body => sync_not_mem_stuff _,
    fun status body => ?_⟩
  have hmaster : syncByte ≠ masterAddr := by decide
  exact List.not_mem_cons_of_ne_of_not_mem hmaster (sync_not_mem_stuff _)

/-! ## Stuffed bytes inside a frame (R112, R114) -/

/-- A state with no `MARK` pending is as it is without one. -/
theorem clear_escape {s : State} (he : s.escape = false) : ({ s with escape := false } : State) = s := by rw [← he]

/-- A byte that is not reserved is its own payload byte. -/
theorem receiveWire_plain {s : State} {x : Byte} (hr : InFrame s) (he : s.escape = false) (hx : reserved x = false) :
    receiveWire x s = receive x s := by
  obtain ⟨hsync, hmark⟩ := (reserved_false_iff x).mp hx
  have hv : Payload s x x := ⟨hsync, by simp [he, hmark]⟩
  rw [receiveWire_payload hv hr, clear_escape he]

/-- After a `MARK`, the byte before a reserved one is that payload byte. -/
theorem receiveWire_escaped {s : State} {x : Byte} (hr : InFrame s) (he : s.escape = false) (hx : reserved x = true) :
    receiveWire (x - 1) { s with escape := true } = receive x s := by
  obtain ⟨hsync, hsucc⟩ := reserved_pred hx
  have hv : Payload { s with escape := true } (x - 1) x := ⟨hsync, hsucc.symm⟩
  rw [receiveWire_payload hv hr]
  exact congrArg (receive x) (clear_escape he)

/-- Settles O2: `destuff_stuff` for sequences, and the engine on a byte that is not reserved and on one that is. -/
theorem stuffedPayloadDecodesBack : Obligations.StuffedPayloadDecodesBack := by
  refine ⟨destuff_stuff, fun x s hd he => ⟨fun hx => ?_, fun hx => ?_⟩⟩
  · exact ⟨stuffByte_plain hx, receiveWire_plain hd.inFrame he hx⟩
  · exact ⟨stuffByte_reserved hx, receiveWire_mark (.inl he), { s with escape := true },
      execMark_inFrame hd.inFrame, receiveWire_escaped hd.inFrame he hx⟩

/-! ## The instruction a popped byte runs (R112, R131, R138) -/

/-- The right checksum in `VERIFY_SUM` runs the frame's command, its addition to `SUM` listed first (R113, R138). -/
theorem receive_checksum {s : State} (hr : s.rstate = .verifySum) :
    receive s.sum s = .run (decodeCommand s.cfg s.cmd (frameBody s)) (accumulate s.sum s) := by
  rw [receive, hr]
  exact if_pos rfl

/-- The step after the pop of the right checksum. -/
theorem step_popped_checksum {s : State} (h : At .verifySum s) {b : Byte} (hv : Payload s b s.sum)
    (rest : List Byte) :
    step (justPopped b rest s) = exec (decodeCommand s.cfg s.cmd (frameBody s))
      { s with rx := rest, escape := false, todo := [.write (.sum (s.sum + s.sum))] } := by
  obtain ⟨hy, hr⟩ := h
  have hd : Decoding s := .inr (.inr (.inr (.inr hr)))
  have hlist : accumulate s.sum { s with rx := rest, escape := false } =
      { s with rx := rest, escape := false, todo := [.write (.sum (s.sum + s.sum))] } := by
    simp [accumulate, enqueue, hy.1.2.2]
  rw [step_justPopped hy, receiveWire_payload (s := { s with rx := rest }) hv hd.inFrame, ← hlist]
  exact congrArg Fetched.outcome (receive_checksum (s := { s with rx := rest, escape := false }) hr)

/-- Settles O10: one step pops the byte, and the next runs the command, `SYNC` or `MARK`. -/
theorem stepRunsDecodedInstruction : Obligations.StepRunsDecodedInstruction := by
  refine ⟨fun s b rest h hx hv => ?_, fun s rest hy hs hx => ?_, fun s rest hy hs hx => ?_⟩
  · obtain ⟨hy, hr⟩ := h
    have hd : Decoding s := .inr (.inr (.inr (.inr hr)))
    exact ⟨step_pops hy (.inr hd) hx, step_popped_checksum ⟨hy, hr⟩ hv rest⟩
  · refine ⟨step_pops hy hs.symm hx, ?_⟩
    rw [step_justPopped hy, receiveWire_sync, Fetched.outcome_run]
  · have hmark : s.escape = false ∨ ¬InFrame s := hs.imp And.right fun hw hf => hf.1 hw
    refine ⟨step_pops hy (hs.symm.imp_right And.left) hx, ?_⟩
    rw [step_justPopped hy, receiveWire_mark (s := { s with rx := rest }) hmark, Fetched.outcome_run]

/-- Settles O30: MARK escapes inside a frame, and does nothing in the two states outside one. -/
theorem markCompletes : Obligations.MarkCompletes := fun _ =>
  ⟨fun ho hw => execMark_inFrame ⟨hw, ho⟩, fun hw => execMark_outside fun hf => hf.1 hw,
    fun ho => execMark_outside fun hf => hf.2 ho⟩

end Machine

end Sys2Proof

/-! SUPPORT. Proofs of the statements about the receiver (spec/41_receiver.md): every tick and every command comes to an
end or holds (R130, R140, R141, R192), and what each receive state makes of the byte at the front of the port
(R131 to R139, R143). -/

namespace Sys2Proof.Machine

/-! ## What is left once everything is done -/

/-- No listed action pops a byte. -/
theorem perform_rx (a : Action) (s : State) : (perform a s).rx = s.rx := by
  cases a with
  | write w => rw [perform_write, applyWrite_keeps]
  | ret => rfl
  | port e => exact perform_port_rx e s

theorem performAll_rx (as : List Action) (s : State) : (performAll as s).rx = s.rx := by
  induction as generalizing s with
  | nil => rfl
  | cons a rest ih => rw [performAll_cons, ih, perform_rx]

theorem settled_rx (s : State) : (settled s).rx = s.rx := performAll_rx s.todo _

/-- The list of a command, an error or an answer comes to the end of the tick, or to an instrument call (R141, R193). -/
theorem Agenda.ends_or_calls {c : Config} {as : List Action} (h : Agenda c as) (s : State) :
    (performAll as s).rstate = .waiting ∨ (performAll as s).inCall ≠ none := by
  rcases h.shape with ⟨pre, rfl, -, -⟩ | rfl | ⟨k, rfl⟩
  · left; rw [performAll_append]; rfl
  · exact .inl rfl
  · exact .inr nofun

theorem Agenda.ne_nil {c : Config} {as : List Action} (h : Agenda c as) : as ≠ [] := by
  rintro rfl
  rcases h.shape with ⟨pre, hpre, -, -⟩ | hreset | ⟨k, hcall⟩
  · exact List.append_ne_nil_of_right_ne_nil pre (List.cons_ne_nil _ _) hpre.symm
  · cases hreset
  · cases hcall

/-! ## How many steps are left of a tick (R142) -/

/-- How many steps a tick has left at most in a state with nothing to do: a byte takes at most eight, a dispatch lists
fewer actions than `replySteps`, and so does the return of the call it makes. -/
def restSteps (s : State) : Nat :=
  if s.inCall = none then
    2 * replySteps + 8 * s.rx.length + (if s.popped = none then 0 else 7) + if s.rstate = .verifySum then 0 else 1
  else replySteps

/-- How many steps a tick has left at most: one for each action to do, and, unless these end the tick, those of the
state that they come to. -/
def stepsLeft (s : State) : Nat :=
  s.todo.length + if s.todo ≠ [] ∧ (settled s).rstate = .waiting then 0 else restSteps (settled s)

theorem restSteps_of_inCall {s : State} (h : s.inCall ≠ none) : restSteps s = replySteps := if_neg h

theorem restSteps_le (s : State) : restSteps s ≤ 2 * replySteps + 8 * s.rx.length + 8 := by
  unfold restSteps
  split_ifs <;> omega

theorem restSteps_le_of_unpopped {s : State} (hc : s.inCall = none) (hp : s.popped = none) :
    restSteps s ≤ 2 * replySteps + 8 * s.rx.length + 1 := by
  rw [restSteps, if_pos hc, if_pos hp]
  split_ifs <;> omega

theorem stepsLeft_nil {s : State} (h : s.todo = []) : stepsLeft s = restSteps s := by
  simp [stepsLeft, h, settled_nil]

/-- Actions that end the tick or make an instrument call leave no more than what a call's return takes. -/
theorem stepsLeft_of_ends {s : State} (hne : s.todo ≠ [])
    (h : (settled s).rstate = .waiting ∨ (settled s).inCall ≠ none) : stepsLeft s ≤ s.todo.length + replySteps := by
  unfold stepsLeft
  split_ifs with hw
  · omega
  · rw [restSteps_of_inCall (h.resolve_left fun hr => hw ⟨hne, hr⟩)]

/-- After the tick's return nothing is left. -/
theorem stepsLeft_ret (as : List Action) {s : State} (ht : s.todo = []) :
    stepsLeft (enqueue (as ++ [.ret]) s) = (as ++ [Action.ret]).length := by
  have hw : (settled (enqueue (as ++ [.ret]) s)).rstate = .waiting := by
    rw [settled_enqueue ht, performAll_append]; rfl
  rw [stepsLeft, if_pos ⟨by simp, hw⟩, enqueue_todo, ht, List.nil_append, Nat.add_zero]

/-- A tick's fuel is more than the steps it has left. -/
theorem stepsLeft_lt_fuel (s : State) : stepsLeft s < 8 * s.rx.length + replySteps * (s.todo.length + 4) := by
  have hrest := restSteps_le (settled s)
  rw [settled_rx] at hrest
  unfold stepsLeft
  unfold replySteps at *
  split_ifs <;> omega

/-! ## Every step of a tick lowers it -/

/-- A step that does the next action: it is the tick's last, or fewer steps are left. -/
theorem stepsLeft_perform {s : State} {a : Action} {rest : List Action} (h : Inv s) (ht : s.todo = a :: rest) :
    returned (perform a { s with todo := rest }) = true ∨
      stepsLeft (perform a { s with todo := rest }) < stepsLeft s := by
  by_cases hr : a.Restarts s
  · rw [perform_restarts (s := { s with todo := rest }) hr]
    exact .inl rfl
  have hsettled := settled_perform hr ht
  have hp : (perform a s).popped = none := by
    rw [perform_popped hr]
    by_contra hne
    simp [h.alone (.inl hne)] at ht
  rw [perform_with_todo hr]
  have hs : stepsLeft s = rest.length + 1 + if (settled s).rstate = .waiting then 0 else restSteps (settled s) := by
    simp [stepsLeft, ht]
  cases rest with
  | nil =>
    rw [settled_nil rfl] at hsettled
    by_cases hw : (settled s).rstate = .waiting
    · rw [← hsettled] at hw
      have hw : (perform a s).rstate = .waiting := hw
      exact .inl (by simp [returned, hw, hp])
    · right
      rw [stepsLeft_nil rfl, hsettled, hs, if_neg hw]
      exact Nat.lt_add_of_pos_left (Nat.succ_pos _)
  | cons b more =>
    right
    rw [hs, stepsLeft, hsettled]
    simp

/-- A list of at most five writes, and a command's list after them. -/
theorem stepsLeft_lists {s : State} {as : List Action} (ws : List Write) {c : Config} (ht : s.todo = [])
    (hl : ws.length ≤ 5) (ha : Agenda c as) : stepsLeft (enqueue (ws.map .write ++ as) s) < 2 * replySteps := by
  have htodo : (enqueue (ws.map .write ++ as) s).todo = ws.map .write ++ as := by rw [enqueue_todo, ht, List.nil_append]
  have hends := stepsLeft_of_ends (s := enqueue (ws.map .write ++ as) s) (by simp [ha.ne_nil])
    (by rw [settled_enqueue ht, performAll_append]; exact ha.ends_or_calls _)
  have hlen := ha.length_le
  rw [htodo, List.length_append, List.length_map] at hends
  unfold replySteps at *
  omega

/-- The writes that a popped byte asks for take its eight steps, with its pop, the listing, and the end of
`READ_BODY`. -/
theorem stepsLeft_writes {s : State} (ws : List Write) (ht : s.todo = []) (hc : s.inCall = none) (hp : s.popped = none)
    (hl : ws.length ≤ 5) :
    stepsLeft (enqueue (ws.map .write) s) ≤ 2 * replySteps + 8 * s.rx.length + 6 := by
  have htodo : (enqueue (ws.map .write) s).todo = ws.map .write := by rw [enqueue_todo, ht, List.nil_append]
  have hkeeps : (performAll (ws.map .write) s).inCall = none ∧ (performAll (ws.map .write) s).popped = none := by
    rw [performAll_keeps (writes_plain ws)]; exact ⟨hc, hp⟩
  have hrest := restSteps_le_of_unpopped hkeeps.1 hkeeps.2
  rw [performAll_rx] at hrest
  rw [stepsLeft, settled_enqueue ht, htodo, List.length_map]
  split_ifs <;> omega

/-- A popped byte has seven of its steps left. -/
theorem stepsLeft_of_popped {s : State} (h : Idle s) (hp : s.popped ≠ none) :
    2 * replySteps + 8 * s.rx.length + 7 ≤ stepsLeft s := by
  obtain ⟨-, hc, ht⟩ := h
  rw [stepsLeft_nil ht, restSteps, if_pos hc, if_neg hp]
  exact Nat.le_add_right _ _

/-- Every step that is not a hold is the tick's last, or lowers the number of steps left. -/
theorem step_lowers_stepsLeft {s t : State} (h : Inv s) (hb : blocked s = false) (hstep : step s = .next t) :
    returned t = true ∨ stepsLeft t < stepsLeft s := by
  cases step_kinds hstep with
  | holds hblocked => rw [hb] at hblocked; cases hblocked
  | acts a rest hc ht => exact stepsLeft_perform h ht
  | pops b rest hy hr hx =>
    obtain ⟨⟨-, hc, ht⟩, hp⟩ := hy
    right
    have hx' : s.rx.length = rest.length + 1 := by rw [hx]; rfl
    rw [stepsLeft_nil (s := justPopped b rest s) ht, stepsLeft_nil ht]
    simp only [restSteps, justPopped, hc, hp, hx', if_true, reduceCtorEq, if_false]
    omega
  | completes hy hr hl =>
    obtain ⟨⟨-, hc, ht⟩, hp⟩ := hy
    right
    rw [stepsLeft_nil (s := { s with rstate := .verifySum }) ht, stepsLeft_nil ht]
    simp [restSteps, hc, hr]
  | writes b hy hp ws e hl hw =>
    right
    have hwrites := stepsLeft_writes (s := { s with popped := none, escape := e }) ws hy.2.2 hy.2.1 rfl hl
    exact (Nat.lt_succ_of_le hwrites).trans_le (stepsLeft_of_popped hy (by simp [hp]))
  | lists hy hr ws as e draws answers hl hw ha =>
    right
    have hlists := stepsLeft_lists (s := { s with popped := none, escape := e, draws := draws, answers := answers })
      ws hy.2.2 hl ha
    refine hlists.trans_le ?_
    obtain ⟨-, hc, ht⟩ := hy
    rw [stepsLeft_nil ht, restSteps, if_pos hc]
    omega
  | returns c hc as draws answers ha hp =>
    right
    have hc : s.inCall ≠ none := by simp [hc]
    have ht : s.todo = [] := h.alone (.inr hc)
    have hleft := stepsLeft_ret (s := { s with inCall := none, draws := draws, answers := answers }) as ht
    have hlen := ha.length_le
    rw [hleft, stepsLeft_nil ht, restSteps_of_inCall hc]
    exact hlen.trans_lt (by decide)

/-- With more fuel than the steps left, a tick comes to its return or to a hold, and keeps the invariant. -/
theorem tickSteps_ends (fuel : Nat) {s t : State} (h : Inv s) (hfuel : stepsLeft s < fuel)
    (ht : tickSteps fuel s = .next t) : Inv t ∧ (returned t = true ∨ blocked t = true) := by
  induction fuel generalizing s with
  | zero => exact absurd hfuel (Nat.not_lt_zero _)
  | succ fuel ih =>
    rw [tickSteps] at ht
    split at ht
    · next hb => cases ht; exact ⟨h, .inr hb⟩
    · next hb =>
      split at ht
      · next u hu =>
        have hinv := stepKeepsInv s u h hu
        split at ht
        · next hret => cases ht; exact ⟨hinv, .inl hret⟩
        · next hret =>
          have hless := (step_lowers_stepsLeft h (Bool.eq_false_iff.mpr hb) hu).resolve_left hret
          exact ih hinv (by omega) ht
      · cases ht
      · cases ht

/-- A tick that has returned, in a state of the invariant, has its direction at `RX` and no call under way. -/
theorem Inv.of_returned {s : State} (h : Inv s) (hr : returned s = true) :
    s.rstate = .waiting ∧ s.dir = .rx ∧ s.todo = [] ∧ s.inCall = none ∧ s.popped = none := by
  simp only [returned, Bool.and_eq_true, beq_iff_eq, List.isEmpty_iff, Option.isNone_iff_eq_none] at hr
  obtain ⟨⟨hw, ht⟩, hp⟩ := hr
  obtain ⟨-, hc⟩ := (frameInv_waiting hw).mp (h.frame_rested ht)
  exact ⟨hw, (h.rested ht).1, ht, hc, hp⟩

/-- Settles O17: each step of a tick lowers a bound on the steps left (`step_lowers_stepsLeft`), which its fuel
exceeds. -/
theorem tickEndsWaitingOrBlocked : Obligations.TickEndsWaitingOrBlocked := by
  intro s t h ht
  obtain ⟨hinv, hend⟩ := tickSteps_ends _ h (stepsLeft_lt_fuel s) ht
  exact hend.imp_left hinv.of_returned

/-! ## Every command ends the tick, or is in an instrument call (R141, R192, R193) -/

/-- Only an instrument call brings a call under way, and it is the last action of a list that keeps the bracket. -/
theorem perform_inCall_of_more {a : Action} {rest : List Action} {s : State} (h : ¬a.Restarts s)
    (hb : bracketed s.dir (a :: rest) = true) (hne : rest ≠ []) : (perform a s).inCall = s.inCall := by
  refine perform_inCall h fun c hcall => hne ?_
  subst hcall
  exact List.isEmpty_iff.mp (Bool.and_eq_true_iff.mp hb).2

/-- Actions that keep the direction bracket, done one a step: they leave `DIR` at `RX`, nothing to do, and the node as
it is once they are done, unless a device reset among them restarts it (R225, R292). -/
theorem finish_bracketed {s : State} (ha : admitted s.cfg = true) (hc : s.todo ≠ [] → s.inCall = none)
    (hp : s.popped = none) (hb : bracketed s.dir s.todo = true) :
    ∃ u, finishActions s = .next u ∧ u.dir = .rx ∧ u.todo = [] ∧ u.popped = none ∧
      (u.rstate = .waiting ∨ u = settled s) := by
  rw [finishActions]
  generalize hl : s.todo = as at hb hc
  induction as generalizing s with
  | nil => exact ⟨s, rfl, beq_iff_eq.mp hb, hl, hp, .inr (settled_nil hl).symm⟩
  | cons a rest ih =>
    have hc := hc (List.cons_ne_nil a rest)
    rw [List.length_cons, actionSteps_perform rest.length ha hc hl]
    by_cases hr : a.Restarts s
    · rw [perform_restarts (s := { s with todo := rest }) hr]
      exact ⟨_, actionSteps_nil _ rfl, rfl, rfl, rfl, .inl rfl⟩
    · rw [perform_with_todo hr, ← settled_perform hr hl]
      refine ih ?_ ?_ rfl (bracketed_perform hr hb) fun hne => ?_
      · exact ((perform_sameSetup a s).cfg ▸ ha : admitted (perform a s).cfg = true)
      · exact (perform_popped hr).trans hp
      · exact (perform_inCall_of_more hr hb hne).trans hc

/-- Actions that are all register writes are a list of writes. -/
theorem exists_writes {as : List Action} (h : ∀ a ∈ as, ∃ w, a = .write w) : ∃ ws : List Write, ws.map .write = as := by
  have hrange : as ∈ Set.range (List.map Action.write) := by
    rw [Set.range_list_map]
    exact fun a ha => (h a ha).imp fun _ => Eq.symm
  exact hrange

/-- Settles O52: what a command lists (`exec_lists`) keeps the direction bracket, and comes to the tick's end or to a
call. -/
theorem commandsEndTheTick : Obligations.CommandsEndTheTick := by
  intro i s t hw ⟨ha, hc, hwrites⟩ hp hd h
  obtain ⟨as, ht, hag⟩ := exec_lists hw h
  obtain ⟨ws, hws⟩ := exists_writes hwrites
  have htodo : t.todo = ws.map .write ++ as := by rw [ht, hws]; rfl
  have hframe : t.cfg = s.cfg ∧ t.dir = s.dir ∧ t.inCall = s.inCall ∧ t.popped = s.popped := by
    rw [ht]; exact ⟨rfl, rfl, rfl, rfl⟩
  obtain ⟨hcfg, hdir, hcall, hpopped⟩ := hframe
  have hbracket : bracketed t.dir t.todo = true := by
    rw [htodo, bracketed_writes, hdir, hd]; exact hag.bracketed
  obtain ⟨u, hu, hrx, hnil, hnone, hend⟩ :=
    finish_bracketed (hcfg ▸ ha) (fun _ => hcall.trans hc) (hpopped.trans hp) hbracket
  refine ⟨u, hu, hrx, hnil, hnone, hend.elim .inl fun hsettled => ?_⟩
  rw [hsettled, settled, htodo, performAll_append]
  exact hag.ends_or_calls _

/-! ## A fixed status frame, sent (R137, R138, R224) -/

/-- The actions of a fixed status frame and the tick's return. -/
theorem performAll_statusFrame {status : Byte} (h : statusFrameFits status = true) (s : State) :
    performAll (sendStatusFrame status ++ [.ret]) s = { s with
      dir := .rx
      rstate := .waiting
      out := s.out ++ [.dir .tx, .tx 0xE0, .tx 0x00, .tx 0x02, .tx status, .tx (status + 2), .dir .rx] } := by
  rw [performAll_append, performAll_sendStatusFrame, sendStatusFrame_eq h, portEvents_ports, replyTrace_status h]
  rfl

theorem statusFrame_plain (status : Byte) : (sendStatusFrame status ++ [Action.ret]).all Action.isPlain = true := rfl

/-- The actions of a fixed status frame: the direction, and pushes (R224). -/
theorem mem_sendStatusFrame {status : Byte} {a : Action} (h : a ∈ sendStatusFrame status) :
    (∃ d, a = .port (.dir d)) ∨ ∃ b, a = .port (.tx b) := by
  rcases List.mem_cons.mp h with rfl | h
  · exact .inl ⟨_, rfl⟩
  rcases List.mem_append.mp h with h | h
  · obtain ⟨b, -, rfl⟩ := List.mem_map.mp h
    exact .inr ⟨b, rfl⟩
  · exact .inl ⟨_, List.mem_singleton.mp h⟩

theorem performAll_rstate {as : List Action} (h : ∀ a ∈ as, ∀ s, (perform a s).rstate = s.rstate) (s : State) :
    (performAll as s).rstate = s.rstate := by
  induction as generalizing s with
  | nil => rfl
  | cons a rest ih =>
    rw [performAll_cons, ih fun b hb => h b (List.mem_cons_of_mem a hb), h a List.mem_cons_self]

/-- The receive state stays while a fixed status frame is sent. -/
theorem performAll_take_statusFrame_rstate (status : Byte) (k : Nat) (s : State) :
    (performAll ((sendStatusFrame status).take k) s).rstate = s.rstate := by
  refine performAll_rstate (fun a ha u => ?_) s
  rcases mem_sendStatusFrame (List.mem_of_mem_take ha) with ⟨d, rfl⟩ | ⟨b, rfl⟩ <;> rfl

/-! ## The end of an overflow (R137) -/

/-- `OVERFLOW`'s first step lists its frame and the tick's return. -/
theorem step_overflow {s : State} (h : At .overflow s) :
    step s = .next (enqueue (sendStatusFrame s.cfg.statusOverflow ++ [.ret]) s) := by
  obtain ⟨hy, hr⟩ := h
  have hfits := ((admitted_iff _).mp hy.1.1).overflow
  rw [step_of_ready hy, fetchFrame, hr]
  exact listIf_true hfits _ _ _

/-- The steps of `OVERFLOW` after its listing, up to any of its actions. -/
theorem steps_overflow {s : State} (h : At .overflow s) (k : Nat) (hk : k ≤ 8) :
    ∃ rest, steps (k + 1) s = .next
      { performAll ((sendStatusFrame s.cfg.statusOverflow ++ [Action.ret]).take k) s with todo := rest } := by
  obtain ⟨ha, hc, ht⟩ := h.1.1
  generalize hl : sendStatusFrame s.cfg.statusOverflow ++ [Action.ret] = as
  have hplain : as.all Action.isPlain = true := hl ▸ statusFrame_plain _
  have hlen : (as.take k).length = k := by rw [List.length_take, ← hl]; exact Nat.min_eq_left hk
  have htake : (as.take k).all Action.isPlain = true :=
    List.all_eq_true.mpr fun a hmem => List.all_eq_true.mp hplain a (List.mem_of_mem_take hmem)
  have hsteps := steps_plain (as.take k) (as.drop k) (enqueue as s) ha hc htake (by simp [ht])
  rw [hlen, enqueue, performAll_todo htake] at hsteps
  exact ⟨as.drop k, by rw [steps_succ k (step_overflow h), hl]; exact hsteps⟩

/-- Settles O25: the listing, and the eight actions listed. -/
theorem overflowReportsAndReturns : Obligations.OverflowReportsAndReturns := by
  intro s h
  have hfits := ((admitted_iff _).mp h.1.1.1).overflow
  rw [steps_succ 8 (step_overflow h), ← performAll_statusFrame hfits]
  exact steps_listed (statusFrame_plain _) h.1.1

/-! ## The states that decode (R133 to R138) -/

/-- Every state of a frame decodes but `OVERFLOW`, and `READ_BODY` once the body is complete. -/
theorem At.decoding {r : RState} {s : State} (h : At r s) (hr : r ∈ [.gotSync, .readCount, .readCommand, .verifySum]) :
    Decoding s := by
  simp only [List.mem_cons, List.not_mem_nil, or_false] at hr
  unfold Decoding
  rw [h.2]
  tauto

/-- A raw `SYNC` restarts such a state. -/
theorem At.restarts {r : RState} {s : State} (h : At r s) (hr : r ∈ [.gotSync, .readCount, .readCommand, .verifySum]) :
    RestartsOnSync s := takesByte_sync h.1 (.inr (h.decoding hr))

/-! ## A raw `SYNC`, and an empty port (R131, R139, R140) -/

/-- Settles O19: `takesByte_sync` where a byte is decoded, and in `OVERFLOW` the actions of its frame, which pop
nothing. -/
theorem syncRestartsEveryDecode : Obligations.SyncRestartsEveryDecode := by
  refine ⟨fun s hy hd => takesByte_sync hy (.inr hd), fun s h n hn => ?_⟩
  cases n with
  | zero => exact ⟨s, rfl, rfl, h.2⟩
  | succ k =>
    obtain ⟨rest, hsteps⟩ := steps_overflow h k (by omega)
    refine ⟨_, hsteps, performAll_rx _ s, ?_⟩
    change (performAll _ s).rstate = _
    rcases Nat.lt_or_ge k 8 with hk | hk
    · have htake : (sendStatusFrame s.cfg.statusOverflow ++ [Action.ret]).take k =
          (sendStatusFrame s.cfg.statusOverflow).take k := List.take_append_of_le_length (Nat.le_of_lt_succ hk)
      rw [htake, performAll_take_statusFrame_rstate, h.2, if_pos (by omega)]
    · obtain rfl : k = 8 := by omega
      rfl

/-- Settles O20: with an empty port there is nothing to pop, step after step. -/
theorem emptyPortHolds : Obligations.EmptyPortHolds := by
  intro n s hy hd hx
  have hstep : step s = .next s := by rw [step_of_ready hy, fetchFrame_pops (.inr hd), popByte_nil hx]
  induction n with
  | zero => rfl
  | succ n ih => rw [steps_succ n hstep, ih]

/-- Settles O29: `execSync_eq`, and the two writes that it lists. -/
theorem syncCompletes : Obligations.SyncCompletes := by
  refine fun s => ⟨fun hr => ⟨execSync_eq hr, fun h => ?_⟩, fun hr => ?_⟩
  · have hidle : Idle { s with escape := false } := h
    exact hidle.finish rfl
  · change execSync s = .next s
    rw [execSync, hr]

/-! ## `WAITING` (R131, R143) -/

/-- All the steps of a byte that starts no frame: it lists nothing. -/
theorem takeByte_discard {s : State} {b : Byte} {rest : List Byte} (h : At .waiting s) (hb : b ≠ syncByte)
    (hx : s.rx = b :: rest) : takeByte s = .next { s with rx := rest } := by
  have hsteps := steps_discard h hb hx
  rw [steps_succ 1 (step_pops h.1 (.inl h.2) hx), steps_one] at hsteps
  rw [takeByte, step_pops h.1 (.inl h.2) hx, andThen_next, hsteps, andThen_next]
  exact finish_nil h.1.1.2.2

/-- Settles O18: nothing to pop, a byte to discard, or a `SYNC`. -/
theorem waitingTakesOneByte : Obligations.WaitingTakesOneByte := by
  intro s ⟨hy, hr⟩
  refine ⟨fun hx => ?_, fun b rest hx hb => ⟨steps_discard ⟨hy, hr⟩ hb hx, takeByte_discard ⟨hy, hr⟩ hb hx⟩,
    takesByte_sync hy (.inl hr)⟩
  rw [step_of_ready hy, fetchFrame_pops (.inl hr), popByte_nil hx]

/-- Settles O27: `steps_drain`. -/
theorem leftoverBytesAreDrained : Obligations.LeftoverBytesAreDrained :=
  fun bytes rest _ h hb hx => steps_drain bytes rest h hb hx

/-! ## A payload byte, state by state (R133 to R135, R138) -/

/-- A frame to this node or to all goes on (R133). -/
theorem receive_routed {s : State} {v : Byte} (hr : s.rstate = .gotSync) (hm : v ≠ masterAddr)
    (ha : acceptsDest s v = true) : (receive v s).outcome = .next (enqueue [.write (.sum (s.sum + v)), .write (.dest v),
      .write (.bcast (broadcastFlag v)), .write (.rstate .readCount)] s) := by
  have ha : broadcastFlag v = true ∨ v = s.id := by simpa [acceptsDest] using ha
  simp [receive, hr, accumulate, hm, acceptsDest, ha]

/-- Settles O21: the byte's steps by `takesByte_payload`, for each of the four destinations. -/
theorem gotSyncRoutes : Obligations.GotSyncRoutes := by
  refine ⟨fun s h => h.restarts (by simp), fun s v rest ⟨hy, hr⟩ hv =>
    ⟨fun hm => ?_, fun hm hb hid => ?_, fun hm hb hid => ?_, fun hb => ?_⟩⟩
  · have hm : v = masterAddr := hm
    refine takesByte_payload hy (.inl hr) hv rfl ?_
    simp [receive, hr, accumulate, takeError, hm]
  · have hm : v ≠ masterAddr := hm
    have hb : broadcastFlag v = false := beq_eq_false_iff_ne.mpr hb
    refine takesByte_payload hy (.inl hr) hv rfl ?_
    simp [receive, hr, accumulate, takeError, hm, acceptsDest, hb, hid]
  · have hb : broadcastFlag v = false := beq_eq_false_iff_ne.mpr hb
    refine takesByte_payload hy (.inl hr) hv rfl ?_
    rw [receive_routed (s := { s with rx := rest, escape := false }) hr hm (by simp [acceptsDest, hid]), hb]
  · have hm : v ≠ masterAddr := by rw [hb]; decide
    have hb : broadcastFlag v = true := beq_iff_eq.mpr hb
    refine takesByte_payload hy (.inl hr) hv rfl ?_
    rw [receive_routed (s := { s with rx := rest, escape := false }) hr hm (by simp [acceptsDest, hb]), hb]

/-- Settles O22: the byte's steps by `takesByte_payload`, for each outcome of the capacity test. -/
theorem readCountTestsCapacity : Obligations.ReadCountTestsCapacity := by
  refine ⟨fun s h => h.restarts (by simp), fun s v rest ⟨hy, hr⟩ hv =>
    ⟨fun hl => ?_, fun hl hb => ?_, fun hl hb => ?_⟩⟩
  · refine takesByte_payload hy (.inr (.inl hr)) hv rfl ?_
    simp [receive, hr, accumulate, overCapacity, Nat.not_lt.mpr hl]
  · refine takesByte_payload hy (.inr (.inl hr)) hv rfl ?_
    simp [receive, hr, accumulate, overCapacity, hl, takeError, hb]
  · refine takesByte_payload hy (.inr (.inl hr)) hv rfl ?_
    simp [receive, hr, accumulate, overCapacity, hl, takeError, hb]

/-- Settles O23: the byte's steps by `takesByte_payload`. -/
theorem readCommandTakesAnyCode : Obligations.ReadCommandTakesAnyCode := by
  refine ⟨fun s h => h.restarts (by simp), fun s v rest h hv => ?_⟩
  refine takesByte_payload h.1 (h.decoding (by simp)) hv rfl ?_
  simp [receive, h.2, accumulate]

/-- A wrong checksum lists its addition to `SUM`, the error frame and the tick's return (R113, R138). -/
theorem receive_badSum {s : State} {v : Byte} (ha : admitted s.cfg = true) (hr : s.rstate = .verifySum)
    (hv : v ≠ s.sum) : (receive v s).outcome =
      .next (enqueue (.write (.sum (s.sum + v)) :: (sendStatusFrame s.cfg.statusSumErr ++ [.ret])) s) := by
  have hfits := ((admitted_iff _).mp ha).sumErr
  have herror : (receive v s).outcome = statusFrame s.cfg.statusSumErr (accumulate v s) := by
    simp [receive, hr, hv, takeError]
  rw [herror, statusFrame, listIf_true hfits, accumulate, enqueue_enqueue]
  rfl

/-- Settles O26: the pop and the listing by `steps_payload`, and the error frame's actions by `steps_listed`. -/
theorem checksumDecidesTheFrame : Obligations.ChecksumDecidesTheFrame := by
  refine ⟨fun s h => h.restarts (by simp), fun s v rest h ⟨b, hx, hv⟩ => ?_⟩
  have hd : Decoding s := h.decoding (by simp)
  have hsteps := steps_payload h.1 hd hx hv
  refine ⟨fun hsum => ?_, fun hsum => ?_⟩
  · subst hsum
    rw [steps_succ 1 (step_pops h.1 (.inr hd) hx), steps_one]
    exact step_popped_checksum h hv rest
  · have hidle : Idle { s with rx := rest, escape := false } := h.1.1
    have hfits := ((admitted_iff _).mp hidle.1).sumErr
    rw [receive_badSum (s := { s with rx := rest, escape := false }) hidle.1 h.2 hsum] at hsteps
    have hlisted := steps_listed
      (as := .write (.sum (s.sum + v)) :: (sendStatusFrame s.cfg.statusSumErr ++ [.ret])) rfl hidle
    rw [performAll_cons, performAll_statusFrame hfits] at hlisted
    exact (steps_add 2 9 hsteps).trans hlisted

end Sys2Proof.Machine

/-! SUPPORT. Proofs of the statements about the dispatcher (spec/42_dispatcher.md): what each command lists and leaves
(R174 to R185, R190), what the return of an instrument call does (R188, R189, R193), and the sequences of commands that
count (R184, R185), assign an address once (R175), and re-arm a chain (R246). -/

namespace Sys2Proof.Machine

/-! ## Replies through `TxBuf`, and READ_ID (R171, R176 to R180, R182, R183) -/

/-- An admitted configuration leaves room for a report and one more byte (R9 item 6). -/
theorem Dispatching.fits_two {s : State} (h : Dispatching s) (report v : Byte) :
    [report, v].length ≤ replyRoom s.cfg := ((admitted_iff _).mp h.1).two_le_room

theorem Dispatching.fits_one {s : State} (h : Dispatching s) (report : Byte) : [report].length ≤ replyRoom s.cfg :=
  Nat.le_of_succ_le (h.fits_two report report)

/-- A command that does nothing but reply: what it lists, and what is left once that is done (R171, R220). -/
theorem replyOk_done {s : State} (h : Dispatching s) {body : List Byte}
    (hl : body.length ≤ replyRoom s.cfg) :
    replyOk body s = .next (replying s.cfg.statusOk body s) ∧
      finishActions (replying s.cfg.statusOk body s) = .next (replied s.cfg.statusOk body (settled s)) :=
  ⟨replyOk_eq hl, finish_replying h _ _⟩

theorem senseByte_eq (l : Level) : senseByte l = if l = .high then 0x01 else 0x00 := by
  cases l <;> rfl

/-- Settles O40: `execPing` is `replyOk` of the report. -/
theorem pingReplies : Obligations.PingReplies := fun _ _ h => replyOk_done h (h.fits_one _)

/-- Settles O38: each query is `replyOk` of the report and its version byte. -/
theorem versionQueriesReply : Obligations.VersionQueriesReply := fun _ _ h =>
  ⟨replyOk_eq (h.fits_two _ _), replyOk_eq (h.fits_two _ _), replyOk_eq (h.fits_two _ _),
    fun _ => finish_replying h _ _⟩

/-- Settles O41: `execGetSense` is `replyOk` of the report and `senseByte`. -/
theorem getSenseRepliesInputLevel : Obligations.GetSenseRepliesInputLevel := by
  intro body s h
  rw [← senseByte_eq]
  exact replyOk_done h (h.fits_two _ _)

/-- Settles O39: the body of GET_FEATURES fits by R9 item 6. -/
theorem getFeaturesReplies : Obligations.GetFeaturesReplies := by
  intro body s h
  have hfits : (featuresBody s.cfg).length ≤ replyRoom s.cfg := by
    rw [featuresBody_length]; exact ((admitted_iff _).mp h.1).features
  exact replyOk_done h hfits

/-- Settles O37: the string fits the length byte by R9 item 6. -/
theorem readIdRepliesWithIdString : Obligations.ReadIdRepliesWithIdString := by
  intro body s h
  have hfits : 1 + s.cfg.idString.length ≤ 253 := ((admitted_iff _).mp h.1).idString
  exact ⟨listIf_true (decide_eq_true hfits) _ _ _, finish_replyingDirect h _ _⟩

/-! ## The counter (R184, R185) -/

/-- Byte addition is addition modulo 256 (R11). -/
theorem add_ofNat_eq (v : Byte) (n : Nat) : v + BitVec.ofNat 8 n = BitVec.ofNat 8 ((v.toNat + n) % 256) := by
  apply BitVec.eq_of_toNat_eq
  simp

/-- INCR's actions, done. -/
theorem finish_incr {s : State} (h : Dispatching s) (v : Byte) :
    finishActions (enqueue [freshReply, .write (.cntr v), .ret] s) =
      .next { settled s with cntr := v, tlen := 0, rstate := .waiting } := by
  rw [finish_enqueue h rfl]; rfl

/-- Settles O42: `execIncr`'s list holds `CNTR + 1`, and its three actions are plain. -/
theorem incrAddsOne : Obligations.IncrAddsOne := by
  intro body s
  rw [← add_ofNat_eq]
  exact ⟨rfl, fun h => finish_incr h _⟩

/-- Settles O43: `CNTR` is cleared between the appended body and the reply. -/
theorem cntrReportsAndClears : Obligations.CntrReportsAndClears := by
  intro body s h
  refine ⟨?_, ?_⟩
  · have hfits := h.fits_two s.cfg.reportOk s.cntr
    change reply _ _ _ _ s = _
    rw [reply, listIf_true (decide_eq_true hfits), List.append_nil]; rfl
  · rw [finish_enqueue h (by simp [freshReply, sendReply, Action.isPlain])]
    simp only [freshReply, performAll_cons, performAll_append, perform_write, applyWrite_tlen, sendReply]
    rw [performAll_txAppendAll _ 0 _ rfl]
    simp [replied]

/-- INCR dispatched by an idle node leaves it idle, its counter advanced and nothing sent. -/
theorem Idle.dispatch_incr {s : State} (h : Idle s) (body : List Byte) :
    dispatch (.incr body) s = .next { s with cntr := s.cntr + 1, tlen := 0, rstate := .waiting } := by
  have hdone := finish_incr h.dispatching (s.cntr + 1)
  rw [settled_nil h.2.2] at hdone
  exact hdone

/-- INCRs dispatched one after another, with what is dispatched after them. -/
theorem Idle.dispatchAll_incrs {s : State} (h : Idle s) (n : Nat) (rest : List Instr) :
    ∃ t, dispatchAll (List.replicate n (.incr []) ++ rest) s = dispatchAll rest t ∧ Idle t ∧ t.cfg = s.cfg ∧
      t.cntr = s.cntr + BitVec.ofNat 8 n ∧ t.out = s.out := by
  induction n generalizing s with
  | zero => exact ⟨s, rfl, h, rfl, (BitVec.add_zero _).symm, rfl⟩
  | succ n ih =>
    have hidle : Idle { s with cntr := s.cntr + 1, tlen := 0, rstate := .waiting } := h
    obtain ⟨t, hrun, ht, hcfg, hcntr, hout⟩ := ih hidle
    refine ⟨t, ?_, ht, hcfg, ?_, hout⟩
    · rw [List.replicate_succ, List.cons_append, dispatchAll, h.dispatch_incr, andThen_next, hrun]
    · rw [hcntr, Nat.add_comm, BitVec.ofNat_add, ← BitVec.add_assoc]; rfl

/-- Settles O54: the INCRs by induction on their number, and then the CNTR of O43. -/
theorem counterCountsIncrs : Obligations.CounterCountsIncrs := by
  intro n s h
  obtain ⟨t, hrun, ht, hcfg, hcntr, hout⟩ := h.dispatchAll_incrs n [.cntr []]
  obtain ⟨hexec, hfin⟩ := cntrReportsAndClears [] t ht.dispatching
  rw [settled_nil ht.2.2] at hfin
  refine ⟨{ replied t.cfg.statusOk [t.cfg.reportOk, t.cntr] t with cntr := 0x00 }, ?_, rfl, rfl, ht.2.2, ?_⟩
  · rw [hrun, dispatchAll, dispatch, hexec, andThen_next, hfin, andThen_next]; rfl
  · rw [← add_ofNat_eq, ← hcntr, ← hcfg, ← hout]; rfl

/-! ## Unknown commands (R181, R190) -/

/-- An unknown command of a directed frame lists the reply that reports it. -/
theorem takeError_unknown_directed {s : State} (hb : s.bcast = false) :
    takeError .unknownCommand s = .next (enqueue (sendReply s.cfg.statusUnknownCmd [] ++ [.ret]) s) := by
  rw [takeError, hb]; rfl

/-- An unknown command of a broadcast frame lists the tick's return alone. -/
theorem takeError_unknown_broadcast {s : State} (hb : s.bcast = true) :
    takeError .unknownCommand s = .next (enqueue [.ret] s) := by
  rw [takeError, hb]; rfl

/-- Settles O44: both commands are `takeError .unknownCommand` after `TLEN` is cleared. -/
theorem unknownCommandsReported : Obligations.UnknownCommandsReported := by
  intro code body s i h hi
  have hexec : exec i s = takeError .unknownCommand (enqueue [freshReply] s) := by
    rcases hi with rfl | rfl <;> rfl
  refine ⟨fun hb => ⟨?_, finish_replyingDirect h _ _⟩, fun hb => ⟨?_, finish_ending h⟩⟩
  · rw [hexec, takeError_unknown_directed (s := enqueue [freshReply] s) hb, enqueue_enqueue]; rfl
  · rw [hexec, takeError_unknown_broadcast (s := enqueue [freshReply] s) hb, enqueue_enqueue]; rfl

/-! ## ASSIGN_ADDR (R175) -/

theorem eligible_iff (s : State) : eligible s = true ↔ s.senseIn = .high ∧ s.id = unsetId := by
  simp [eligible]

/-- What is left once an address has been taken: the reply sent, and after it the sense output driven low (R175). -/
def assigned (a status : Byte) (body : List Byte) (s : State) : State :=
  { replied status body s with
    id := a
    senseOut := .low
    out := s.out ++ (replyTrace status body ++ [.senseOut .low]) }

theorem finish_assign {s : State} (h : Dispatching s) (a status : Byte) (body : List Byte) :
    finishActions (enqueue ([freshReply, .write (.id a)] ++ txAppendAll 0 body ++ sendReply status body ++
      [.port (.senseOut .low), .ret]) s) = .next (assigned a status body (settled s)) := by
  rw [finish_enqueue h (by simp [freshReply, sendReply, Action.isPlain])]
  simp only [freshReply, performAll_cons, performAll_append, perform_write, applyWrite_tlen, applyWrite_id,
    performAll_nil, sendReply]
  rw [performAll_txAppendAll body 0 _ rfl]
  simp [assigned, replied]

/-- An eligible node lists the address, its reply, and then the sense output (R175). -/
theorem execAssignAddr_eligible {s : State} (h : Dispatching s) (hs : s.senseIn = .high) (hid : s.id = unsetId)
    (a : Byte) (more : List Byte) :
    exec (.assignAddr (a :: more)) s = .next (enqueue ([freshReply, .write (.id a)] ++
      txAppendAll 0 [s.cfg.reportOk] ++ sendReply s.cfg.statusOk [s.cfg.reportOk] ++
      [.port (.senseOut .low), .ret]) s) := by
  have hfits := h.fits_one s.cfg.reportOk
  change execAssignAddr (a :: more) s = _
  rw [execAssignAddr, if_pos ((eligible_iff s).mpr ⟨hs, hid⟩)]
  change reply [freshReply, .write (.id a)] _ _ _ s = _
  rw [reply, listIf_true (decide_eq_true hfits), List.append_nil, List.append_assoc _ _ [Action.ret]]; rfl

/-- Any other node lists nothing but the tick's end. -/
theorem execAssignAddr_ineligible {s : State} (h : ¬(s.senseIn = .high ∧ s.id = unsetId)) (body : List Byte) :
    exec (.assignAddr body) s = .next (ending s) :=
  if_neg (mt (eligible_iff s).mp h)

/-- Settles O36: `execAssignAddr` on each side of the test, and the draw of an empty body. -/
theorem assignAddrNeedsEligibility : Obligations.AssignAddrNeedsEligibility := by
  refine ⟨fun a more s h hs hid => ⟨execAssignAddr_eligible h hs hid a more, ?_⟩, fun s hs hid => ?_,
    fun body s hno => ⟨execAssignAddr_ineligible hno body, finish_ending⟩⟩
  · have hout : (settled s).out = s.out := by rw [h.settled]
    rw [← hout]
    exact finish_assign h a _ _
  · have he : eligible s = true := (eligible_iff s).mpr ⟨hs, hid⟩
    have he' : eligible { s with draws := s.draws + 1 } = true := he
    change execAssignAddr [] s = execAssignAddr _ { s with draws := s.draws + 1 }
    rw [execAssignAddr, execAssignAddr, if_pos he, if_pos he']
    rfl

/-- Settles O55: the address taken is not `UNSET`, so the second ASSIGN_ADDR finds an ineligible node. -/
theorem secondAssignIsIgnored : Obligations.SecondAssignIsIgnored := by
  intro a b s h hs hid ha
  generalize ht : assigned a s.cfg.statusOk [s.cfg.reportOk] s = t
  have hidle : Idle t := ht ▸ h
  obtain ⟨hid', hsense⟩ : t.id = a ∧ t.senseOut = .low := ht ▸ ⟨rfl, rfl⟩
  have hno : ¬(t.senseIn = .high ∧ t.id = unsetId) := fun ⟨_, hunset⟩ => ha (hid'.symm.trans hunset)
  refine ⟨t, ended t, ?_, ?_, hid', hsense, rfl, hidle.2.2, rfl⟩
  · rw [dispatch, execAssignAddr_eligible h.dispatching hs hid, andThen_next, finish_assign h.dispatching,
      settled_nil h.2.2, ht]
  · rw [dispatch, execAssignAddr_ineligible hno, andThen_next, finish_ending hidle.dispatching,
      settled_nil hidle.2.2]

/-! ## RESET (R174, R291, R292) -/

/-- RESET with the right check byte lists the identity, the sense output and the device reset. -/
theorem execReset_match (s : State) (more : List Byte) :
    exec (.reset (s.cfg.resetCheck :: more)) s =
      .next (enqueue [freshReply, .write (.id unsetId), .port (.senseOut .high), .port .devReset, .ret] s) :=
  if_pos rfl

/-- RESET with another check byte lists nothing but the tick's end. -/
theorem execReset_mismatch {s : State} {b : Byte} (h : b ≠ s.cfg.resetCheck) (more : List Byte) :
    exec (.reset (b :: more)) s = .next (ending s) :=
  if_neg h

/-- A device reset that restarts the node is its tick's last action (R292). -/
theorem actionSteps_devReset_restarts {s : State} (ha : admitted s.cfg = true) (hc : s.inCall = none)
    (ht : s.todo = [.port .devReset, .ret]) (hr : Action.Restarts s (.port .devReset)) :
    actionSteps 2 s = .next (restartNode { s with out := s.out ++ [.devReset], draws := s.draws + 1 }) := by
  rw [actionSteps_perform 1 ha hc ht, perform_restarts (s := { s with todo := [.ret] }) hr, actionSteps_nil 1 rfl]
  rfl

/-- The actions of a RESET whose device reset restarts the node: what it wrote before is forgotten (R174, R292). -/
theorem finish_reset_restarts {s : State} (ha : admitted s.cfg = true) (hc : s.inCall = none)
    (ht : s.todo = [freshReply, .write (.id unsetId), .port (.senseOut .high), .port .devReset, .ret])
    (hr : Action.Restarts s (.port .devReset)) :
    finishActions s = .next (restartNode { s with
      out := s.out ++ [.senseOut .high] ++ [.devReset], draws := s.draws + 1 }) := by
  have hplain := actionSteps_plain [freshReply, .write (.id unsetId), .port (.senseOut .high)]
    [.port .devReset, .ret] 2 s ha hc rfl ht
  rw [finishActions, ht]
  exact hplain.trans (actionSteps_devReset_restarts ha hc rfl hr)

/-- RESET's actions, done at rest: the device reset has the effect drawn (R292). -/
theorem Idle.finish_reset {s : State} (h : Idle s) :
    finishActions (enqueue [freshReply, .write (.id unsetId), .port (.senseOut .high), .port .devReset, .ret] s) =
      .next (afterReset (Config.freeResetEffect s.stream s.draws) { s with
        id := unsetId
        senseOut := .high
        rstate := .waiting
        tlen := 0
        draws := s.draws + 1
        out := s.out ++ [.senseOut .high, .devReset] }) := by
  obtain ⟨ha, hc, ht⟩ := h
  have htodo (as : List Action) : (enqueue as s).todo = as := by rw [enqueue_todo, ht, List.nil_append]
  cases he : Config.freeResetEffect s.stream s.draws with
  | engineKept =>
    have hr : ¬Action.Restarts s (.port .devReset) := fun hr => by cases he.symm.trans hr.2
    rw [finish_reset_kept (s := enqueue _ s) ha hc (htodo _) hr]
    simp [afterReset, ht]
  | powerOn =>
    rw [finish_reset_restarts (s := enqueue _ s) ha hc (htodo _) ⟨rfl, he⟩]
    simp [afterReset, restartNode]

/-- Settles O34: the two lists of `execReset`, and the draw an empty body compares. -/
theorem resetTestsItsCheckByte : Obligations.ResetTestsItsCheckByte := by
  refine ⟨fun b more s hb => ⟨execReset_mismatch hb more, finish_ending⟩,
    fun more s => ⟨execReset_match s more, fun h => ?_⟩, fun s => rfl⟩
  have hkept : (settled s).stream = s.stream ∧ (settled s).draws = s.draws ∧ (settled s).out = s.out := by
    rw [h.settled]; exact ⟨rfl, rfl, rfl⟩
  obtain ⟨hstream, hdraws, hout⟩ := hkept
  rw [h.finish, ← hstream, ← hdraws, ← hout]
  exact h.idle.finish_reset

/-! ## Re-arming a chain (R246) -/

/-- RESET dispatched by an idle node, whatever the device reset does: the node is idle, unset, and drives high. -/
theorem Idle.dispatch_reset {s : State} (h : Idle s) :
    ∃ t, dispatch (.reset [s.cfg.resetCheck]) s = .next t ∧ Idle t ∧ t.cfg = s.cfg ∧ t.id = unsetId ∧
      t.senseOut = .high := by
  rw [dispatch, execReset_match, andThen_next, h.finish_reset]
  refine ⟨_, rfl, ?_⟩
  cases Config.freeResetEffect s.stream s.draws with
  | engineKept => exact ⟨h, rfl, rfl, rfl⟩
  | powerOn => exact ⟨⟨h.1, rfl, rfl⟩, rfl, rfl, rfl⟩

/-- Node `k` is idle, has this check byte, and is unset and drives high unless it is still to dispatch RESET. -/
def RearmedUnless (check : Byte) (pending : List Nat) (k : Nat) (n : State) : Prop :=
  Idle n ∧ n.cfg.resetCheck = check ∧ (k ∉ pending → n.id = unsetId ∧ n.senseOut = .high)

/-- Every node of the chain is so: the invariant of a RESET dispatched node by node. -/
def Rearming (check : Byte) (pending : List Nat) (c : Chain) : Prop :=
  ∀ k n, c.nodes[k]? = some n → RearmedUnless check pending k n

/-- A node that dispatches RESET is no longer pending. -/
theorem Rearming.dispatchNode {check : Byte} {k : Nat} {pending : List Nat} {c : Chain}
    (h : Rearming check (k :: pending) c) :
    ∃ d, dispatchNode (.reset [check]) k c = .next d ∧ d.firstSense = c.firstSense ∧
      d.nodes.length = c.nodes.length ∧ Rearming check pending d := by
  have others {j : Nat} {n : State} (hj : j ≠ k) (hn : c.nodes[j]? = some n) :
      RearmedUnless check pending j n := by
    obtain ⟨hidle, hcheck, hdone⟩ := h j n hn
    exact ⟨hidle, hcheck, fun hp => hdone (List.not_mem_cons_of_ne_of_not_mem hj hp)⟩
  rw [Machine.dispatchNode, runNode]
  cases hk : c.nodes[k]? with
  | none =>
    refine ⟨c, rfl, rfl, rfl, fun j n hn => others ?_ hn⟩
    rintro rfl
    rw [hk] at hn; cases hn
  | some n =>
    obtain ⟨hidle, rfl, -⟩ := h k n hk
    obtain ⟨t, hrun, htidle, hcfg, hid, hsense⟩ := Idle.dispatch_reset (s := sampled c k n) hidle
    have hrun : dispatch (.reset [n.cfg.resetCheck]) (sampled c k n) = .next t := hrun
    refine ⟨{ c with nodes := c.nodes.set k t }, by simp only [hrun], rfl, List.length_set, fun j m hm => ?_⟩
    by_cases hj : j = k
    · subst hj
      obtain ⟨hlt, -⟩ := List.getElem?_eq_some_iff.mp hk
      have hm : t = m := by simpa [hlt] using hm
      subst hm
      exact ⟨htidle, congrArg Config.resetCheck hcfg, fun _ => ⟨hid, hsense⟩⟩
    · exact others hj ((List.getElem?_set_ne (Ne.symm hj)).symm.trans hm)

/-- When all pending nodes have dispatched RESET, none is. -/
theorem Rearming.dispatchInOrder {check : Byte} {pending : List Nat} {c : Chain} (h : Rearming check pending c) :
    ∃ d, dispatchInOrder (.reset [check]) pending c = .next d ∧ d.firstSense = c.firstSense ∧
      d.nodes.length = c.nodes.length ∧ Rearming check [] d := by
  induction pending generalizing c with
  | nil => exact ⟨c, rfl, rfl, rfl, h⟩
  | cons k rest ih =>
    obtain ⟨d, hd, hfirst, hlen, hrest⟩ := h.dispatchNode
    obtain ⟨e, he, hfirst', hlen', hdone⟩ := ih hrest
    refine ⟨e, ?_, hfirst'.trans hfirst, hlen'.trans hlen, hdone⟩
    rw [Machine.dispatchInOrder, hd]; exact he

/-- A chain with no RESET pending is at the start of a sweep (R243). -/
theorem Rearming.sweptTo_zero {check : Byte} {c : Chain} (h : Rearming check [] c) (hf : c.firstSense = .high) :
    sweptTo 0 c := by
  refine ⟨Nat.zero_le _, hf, fun k n hn => ?_⟩
  obtain ⟨⟨-, hc, ht⟩, -, hdone⟩ := h k n hn
  exact ⟨ht, hc, fun hk => absurd hk (Nat.not_lt_zero k), fun _ => hdone List.not_mem_nil⟩

/-- Settles O59: at the start every node is pending. -/
theorem resetRearmsTheChain : Obligations.ResetRearmsTheChain := by
  intro c check hf hnodes
  have hstart : Rearming check (List.range c.nodes.length) c := by
    intro k n hn
    obtain ⟨hk, -⟩ := List.getElem?_eq_some_iff.mp hn
    obtain ⟨hidle, hcheck⟩ := hnodes n (List.mem_of_getElem? hn)
    exact ⟨hidle, hcheck, fun hno => absurd (List.mem_range.mpr hk) hno⟩
  obtain ⟨d, hd, hfirst, hlen, hdone⟩ := hstart.dispatchInOrder
  exact ⟨d, hd, hlen, hdone.sweptTo_zero (hfirst.trans hf)⟩

/-! ## The return of an instrument call (R188, R189, R193) -/

/-- A call whose return brings an answer. -/
def Call.IsAnswered (c : Call) : Prop :=
  ∃ time channel index value, c = .light time channel index value ∨ c = .control time channel index value

/-- The return from a LIGHT or CONTROL uses the instrument's next answer. -/
theorem InCall.step_answered {c : Call} {s : State} (h : InCall c s) (hc : c.IsAnswered) (hr : s.instrReady = true) :
    step s = useAnswer (takeAnswer { s with inCall := none }).1 (takeAnswer { s with inCall := none }).2 := by
  obtain ⟨ha, hcall, -⟩ := h
  rw [step_return ha hcall hr]
  obtain ⟨time, channel, index, value, rfl | rfl⟩ := hc <;> rfl

theorem takeAnswer_cons {s : State} {a : Answer} {more : List Answer} (h : s.answers = a :: more) :
    takeAnswer s = (a, { s with answers := more }) := by rw [takeAnswer, h]

theorem takeAnswer_nil {s : State} (h : s.answers = []) :
    takeAnswer s = (Config.freeAnswer s.stream s.draws, { s with draws := s.draws + 1 }) := by rw [takeAnswer, h]

/-! ### What each answer comes to (R188) -/

theorem useAnswer_unhandled {a : Answer} (h : a.handled = false) (s : State) :
    useAnswer a s = takeError .unknownCommand s := by rw [useAnswer, h]; rfl

theorem useAnswer_none {a : Answer} (h : a.handled = true) (hr : a.reply = none) (s : State) :
    useAnswer a s = .next (enqueue [.ret] s) := by rw [useAnswer, if_pos h, hr]

theorem useAnswer_some {a : Answer} {bytes : List Byte} (h : a.handled = true) (hr : a.reply = some bytes)
    (s : State) : useAnswer a s = listIf (decide (bytes.length ≤ replyRoom s.cfg)) .instrumentAnswer
      (txAppendAll 0 bytes ++ sendReply s.cfg.statusOk bytes ++ [.ret]) s := by
  rw [useAnswer, if_pos h, hr]

/-- An answer's reply, built from an empty `TxBuf` and sent. -/
theorem Idle.finish_answer {s : State} (h : Idle s) (hl : s.tlen = 0) (status : Byte) (body : List Byte) :
    finishActions (enqueue (txAppendAll 0 body ++ sendReply status body ++ [.ret]) s) =
      .next (replied status body s) := by
  rw [h.finish (by simp [sendReply, Action.isPlain]), performAll_append, performAll_append,
    performAll_txAppendAll body 0 s hl]
  simp [sendReply, replied]

/-- Settles O46: the return uses the queued answer (`InCall.step_answered`), case by case of what it is. -/
theorem lightAndControlFollowTheAnswer : Obligations.LightAndControlFollowTheAnswer := by
  intro s c a more h hc hr hq t silent unknown
  have hstep : step s = useAnswer a t := by
    rw [h.step_answered hc hr, takeAnswer_cons (s := { s with inCall := none }) hq]
  have hidle : Idle t := ⟨h.1, rfl, h.2.2⟩
  have hret : finishActions (enqueue [.ret] t) = .next { t with rstate := .waiting } := hidle.finish rfl
  refine ⟨fun hh hb => ⟨?_, hret⟩, fun hh hb => ⟨?_, ?_⟩, fun hh hn => ⟨?_, hret⟩,
    fun bytes hh hs hl => ⟨?_, fun htlen => hidle.finish_answer htlen _ _⟩, fun bytes hh hs hl => ?_⟩
  · rw [hstep, useAnswer_unhandled hh, takeError_unknown_broadcast (s := t) hb]
  · rw [hstep, useAnswer_unhandled hh, takeError_unknown_directed (s := t) hb]
  · rw [hidle.finish (by simp [sendReply, Action.isPlain]), performAll_append, sendReply, performAll_sendFrame]; rfl
  · rw [hstep, useAnswer_none hh hn]
  · rw [hstep, useAnswer_some hh hs]
    exact listIf_true (decide_eq_true hl) _ _ _
  · rw [hstep, useAnswer_some hh hs]
    exact if_neg (mt of_decide_eq_true (Nat.not_le.mpr hl))

/-- Using an answer looks at no draw. -/
theorem useAnswer_draws (a : Answer) (s : State) :
    useAnswer a { s with draws := s.draws + 1 } =
      andThen (useAnswer a s) fun t => .next { t with draws := t.draws + 1 } := by
  cases hh : a.handled with
  | false =>
    rw [useAnswer_unhandled hh, useAnswer_unhandled hh]
    rcases Bool.eq_false_or_eq_true s.bcast with hb | hb
    · rw [takeError_unknown_broadcast hb, takeError_unknown_broadcast (s := { s with draws := s.draws + 1 }) hb]; rfl
    · rw [takeError_unknown_directed hb, takeError_unknown_directed (s := { s with draws := s.draws + 1 }) hb]; rfl
  | true =>
    cases hr : a.reply with
    | none => rw [useAnswer_none hh hr, useAnswer_none hh hr]; rfl
    | some bytes =>
      rw [useAnswer_some hh hr, useAnswer_some hh hr]
      cases hl : decide (bytes.length ≤ replyRoom s.cfg) <;> rfl

/-- Settles O47: a drawn answer is used as the same answer queued is, one draw later. -/
theorem unqueuedAnswersAreDraws : Obligations.UnqueuedAnswersAreDraws := by
  intro s c h hc hr hq
  have hself : ({ s with inCall := none, answers := [] } : State) = { s with inCall := none } := by rw [← hq]
  rw [h.step_answered hc hr, takeAnswer_nil (s := { s with inCall := none }) hq,
    InCall.step_answered (s := { s with answers := [Config.freeAnswer s.stream s.draws] }) h hc hr,
    takeAnswer_cons (s := { s with inCall := none, answers := [Config.freeAnswer s.stream s.draws] }) rfl]
  exact (useAnswer_draws _ { s with inCall := none }).trans (by rw [← hself])

/-! ### While the instrument has not returned (R193) -/

/-- A step of a node whose instrument call has not returned leaves it as it is. -/
theorem step_unreturned {s : State} (ha : admitted s.cfg = true) {c : Call} (hc : s.inCall = some c)
    (hr : s.instrReady = false) : step s = .next s := by
  simp [step, fetch, underAdmitted, ha, hc, awaitReturn, hr]

/-- A state that a step leaves as it is stays so for any number of steps. -/
theorem steps_fixed {s : State} (h : step s = .next s) (n : Nat) : steps n s = .next s := by
  induction n with
  | zero => rfl
  | succ n ih => rw [steps_succ n h, ih]

theorem tickSteps_blocked {s : State} (h : blocked s = true) (fuel : Nat) : tickSteps fuel s = .next s := by
  cases fuel with
  | zero => rfl
  | succ fuel => rw [tickSteps, if_pos h]

/-- Settles O48: the call blocks every step and the tick, and the return of a note lists the tick's return. -/
theorem instrumentCallBlocksTheTick : Obligations.InstrumentCallBlocksTheTick := by
  refine ⟨fun n s ha hcall hr => ?_, fun s time channel note velocity hr hcall => ?_⟩
  · obtain ⟨c, hc⟩ := Option.ne_none_iff_exists'.mp hcall
    exact ⟨steps_fixed (step_unreturned ha hc hr) n, tickSteps_blocked (by simp [blocked, hc, hr]) _⟩
  · have hnote : ∃ c, InCall c s ∧ ∀ u, callReturn c u = .next (enqueue [.ret] u) :=
      hcall.elim (fun h => ⟨_, h, fun _ => rfl⟩) (fun h => ⟨_, h, fun _ => rfl⟩)
    obtain ⟨c, ⟨ha, hc, ht⟩, hreturn⟩ := hnote
    have hidle : Idle { s with inCall := none } := ⟨ha, rfl, ht⟩
    have hlist : ({ s with inCall := none, todo := [.ret] } : State) = enqueue [.ret] { s with inCall := none } := by
      rw [enqueue, ht]; rfl
    rw [hlist]
    exact ⟨(step_return ha hc hr).trans (hreturn _), hidle.finish rfl⟩

end Sys2Proof.Machine

/-! SUPPORT. Proofs of the statements about the transmitter (spec/43_transmitter.md): the fixed status frames (R224),
and what one tick sends (R226). -/

namespace Sys2Proof.Machine

/-! ## The fixed status frames (R224) -/

/-- The transmit port's actions say which bytes it carried. -/
theorem map_tx_injective : Function.Injective (List.map PortEvent.tx) :=
  List.map_injective_iff.mpr fun _ _ => PortEvent.tx.inj

/-- The empty reply of a status that needs no stuffing, byte by byte (R75, R224). -/
theorem encodeReply_status {status : Byte} (h : statusFrameFits status = true) :
    encodeReply status [] = [syncByte, masterAddr, 0x02, status, masterAddr + 0x02 + status] := by
  have htrace : PortEvent.dir .tx :: ([syncByte, masterAddr, 0x02, status, masterAddr + 0x02 + status].map .tx ++
      [.dir .rx]) = replyTrace status [] := by
    rw [← portEvents_ports (replyTrace status []), ← sendStatusFrame_eq h]; rfl
  have hbytes := List.append_cancel_right (List.cons.inj htrace).2
  exact (map_tx_injective hbytes).symm

/-- Settles O32: the five bytes are those of the empty reply (`sendStatusFrame_eq`), and `TSUM` is in none of the
frame's actions (`performAll_sendStatusFrame`). -/
theorem statusFramesAreFiveBytes : Obligations.StatusFramesAreFiveBytes := by
  intro s status h hstatus frame
  have hadmitted := (admitted_iff _).mp h.1
  have hfits : statusFrameFits status = true := by
    rcases hstatus with rfl | rfl
    · exact hadmitted.overflow
    · exact hadmitted.sumErr
  refine ⟨rfl, listIf_true hfits _ _ s, ?_, encodeReply_status hfits⟩
  have hdone := h.finish (statusFrame_plain status)
  rw [performAll_append, performAll_sendStatusFrame] at hdone
  exact hdone

/-! ## The steps of a tick (R142) -/

/-- What is left of a tick, with some fuel, once a step has come to `s`. -/
def tickRest (fuel : Nat) (s : State) : Host.Outcome State Fault Refusal :=
  if returned s then .next s else tickSteps fuel s

theorem tickSteps_succ (fuel : Nat) {s : State} (hb : blocked s = false) :
    tickSteps (fuel + 1) s = andThen (step s) (tickRest fuel) := by
  rw [tickSteps, hb]
  cases step s <;> rfl

theorem tickRest_of_returned (fuel : Nat) {s : State} (h : returned s = true) : tickRest fuel s = .next s := if_pos h

theorem tickRest_eq_next {fuel : Nat} {s t : State} (h : tickRest fuel s = .next t) :
    t = s ∨ tickSteps fuel s = .next t := by
  rw [tickRest] at h
  split at h
  · exact .inl (Host.Outcome.next.inj h).symm
  · exact .inr h

/-- One action of a tick (R5). -/
theorem tickRest_perform (fuel : Nat) {s : State} (h : Idle s) (a : Action) (rest : List Action) :
    tickRest (fuel + 1) (enqueue (a :: rest) s) = tickRest fuel (perform a (enqueue rest s)) := by
  obtain ⟨ha, hc, ht⟩ := h
  have htodo : (enqueue (a :: rest) s).todo = a :: rest := by rw [enqueue_todo, ht, List.nil_append]
  have hself : ({ enqueue (a :: rest) s with todo := rest } : State) = enqueue rest s := by
    simp [enqueue, ht]
  have hr : ¬returned (enqueue (a :: rest) s) = true := by simp [returned]
  have hb : blocked (enqueue (a :: rest) s) = false := by simp [blocked, hc, ht]
  rw [tickRest, if_neg hr, tickSteps_succ fuel hb, step_perform (s := enqueue (a :: rest) s) ha hc htodo,
    andThen_next, hself]

/-- A plain action does the same whatever is listed after it. -/
theorem perform_enqueue {a : Action} (ha : a.isPlain = true) (rest : List Action) (s : State) :
    perform a (enqueue rest s) = enqueue rest (perform a s) := by
  have htodo : (perform a s).todo = s.todo := by rw [perform_keeps ha]
  rw [enqueue, perform_todo ha, enqueue, htodo]

/-- Plain actions leave a node with nothing outstanding so. -/
theorem Ready.performAll {s : State} (h : Ready s) {as : List Action} (hp : as.all Action.isPlain = true) :
    Ready (performAll as s) := by
  rw [performAll_keeps hp]; exact h

/-- Plain actions of a tick, one after another. -/
theorem tickRest_plain {as : List Action} (hp : as.all Action.isPlain = true) (rest : List Action) {fuel : Nat}
    (hf : as.length ≤ fuel) {s : State} (h : Ready s) :
    tickRest fuel (enqueue (as ++ rest) s) = tickRest (fuel - as.length) (enqueue rest (performAll as s)) := by
  induction as generalizing s fuel with
  | nil => rfl
  | cons a as ih =>
    obtain ⟨hpa, hpas⟩ := Bool.and_eq_true_iff.mp hp
    obtain ⟨n, rfl⟩ := Nat.exists_eq_add_of_le' (Nat.one_le_of_lt hf)
    have hready : Ready (perform a s) := h.performAll (as := [a]) (Bool.and_eq_true_iff.mpr ⟨hpa, rfl⟩)
    rw [List.cons_append, tickRest_perform n h.1, perform_enqueue hpa, ih hpas (Nat.le_of_succ_le_succ hf) hready,
      performAll_cons, List.length_cons, Nat.add_sub_add_right]

/-- Plain actions and the tick's return are the last of a tick (R141). -/
theorem tickRest_ret {as : List Action} (hp : as.all Action.isPlain = true) {fuel : Nat} (hf : as.length < fuel)
    {s : State} (h : Ready s) :
    tickRest fuel (enqueue (as ++ [.ret]) s) = .next (performAll (as ++ [.ret]) s) := by
  have hplain : (as ++ [Action.ret]).all Action.isPlain = true := by rw [List.all_append, hp]; rfl
  have hdone := tickRest_plain hplain [] (fuel := fuel) (by simpa using hf) h
  obtain ⟨⟨-, -, ht⟩, hpop⟩ := h.performAll hplain
  have hw : (performAll (as ++ [.ret]) s).rstate = .waiting := by rw [performAll_append]; rfl
  rw [List.append_nil, enqueue_nil] at hdone
  rw [hdone, tickRest_of_returned _ (by simp [returned, ht, hpop, hw])]

/-- A device reset and the tick's return: whatever its effect, the reset is the last that goes out (R292). -/
theorem out_of_tickRest_devReset {fuel : Nat} (hf : 2 ≤ fuel) {s t : State} (h : Ready s)
    (ht : tickRest fuel (enqueue [.port .devReset, .ret] s) = .next t) : t.out = s.out ++ [.devReset] := by
  obtain ⟨n, rfl⟩ := Nat.exists_eq_add_of_le' hf
  rw [tickRest_perform (n + 1) h.1] at ht
  by_cases hr : Action.Restarts s (.port .devReset)
  · rw [perform_restarts (s := enqueue [.ret] s) hr, tickRest_of_returned _ rfl] at ht
    cases ht; rfl
  · rw [perform_devReset_kept (s := enqueue [.ret] s) hr] at ht
    have hlast := tickRest_ret (as := []) rfl (Nat.succ_pos n)
      (s := { s with out := s.out ++ [.devReset], draws := s.draws + 1 }) h
    cases ht.symm.trans hlast; rfl

/-! ## What a tick adds to the ports (R226) -/

/-- From `s` to `t` the ports have carried no reply, or one whole reply frame. -/
def SendsAtMostOneReply (s t : State) : Prop := ∃ events, t.out = s.out ++ events ∧ NothingOrOneReply events

theorem SendsAtMostOneReply.refl (s : State) : SendsAtMostOneReply s s := ⟨[], (List.append_nil _).symm, nothing_sent⟩

/-- Port actions that send nothing may come first. -/
theorem SendsAtMostOneReply.after_quiet {s u t : State} {events : List PortEvent} (h : SendsAtMostOneReply u t)
    (hu : u.out = s.out ++ events) (hq : quiet events) : SendsAtMostOneReply s t := by
  obtain ⟨later, ht, hlater⟩ := h
  exact ⟨events ++ later, by rw [ht, hu, List.append_assoc], hlater.after_quiet hq⟩

/-- Steps that leave the ports alone may come first. -/
theorem SendsAtMostOneReply.after {s u t : State} (h : SendsAtMostOneReply u t) (hu : u.out = s.out) :
    SendsAtMostOneReply s t :=
  h.after_quiet (by rw [hu, List.append_nil]) quiet_nil

/-- The rest of a tick sends what its steps do. -/
theorem sends_of_tickRest {fuel : Nat} {s t : State} (h : tickRest fuel s = .next t)
    (hs : tickSteps fuel s = .next t → SendsAtMostOneReply s t) : SendsAtMostOneReply s t := by
  rcases tickRest_eq_next h with rfl | h
  · exact .refl _
  · exact hs h

/-- A plain list of a command, done to the tick's return, sends nothing or one reply (R226). -/
theorem Agenda.ret_sends {c : Config} {as : List Action} (h : Agenda c (as ++ [.ret]))
    (hp : as.all Action.isPlain = true) {fuel : Nat} (hf : as.length < fuel) {s t : State} (hs : Ready s)
    (ht : tickRest fuel (enqueue (as ++ [.ret]) s) = .next t) : SendsAtMostOneReply s t := by
  have hplain : (as ++ [Action.ret]).all Action.isPlain = true := by rw [List.all_append, hp]; rfl
  cases ht.symm.trans (tickRest_ret hp hf hs)
  exact ⟨portEvents (as ++ [.ret]), by rw [performAll_keeps hplain], h.nothingOrOneReply⟩

/-- A tick in an instrument call sends nothing, or what the answer asks for (R188, R193). -/
theorem InCall.tickSteps_sends {c : Call} {s t : State} (h : InCall c s) (hp : s.popped = none) {fuel : Nat}
    (hf : replySteps ≤ fuel) (ht : tickSteps fuel s = .next t) : SendsAtMostOneReply s t := by
  obtain ⟨ha, hc, htodo⟩ := h
  cases hb : blocked s with
  | true => cases ht.symm.trans (tickSteps_blocked hb fuel); exact .refl _
  | false =>
    obtain ⟨n, rfl⟩ := Nat.exists_eq_add_of_le' ((by decide : 1 ≤ replySteps).trans hf)
    have hready : s.instrReady = true := by simpa [blocked, hc] using hb
    rw [tickSteps_succ n hb, step_return ha hc hready] at ht
    obtain ⟨u, hu, hrest⟩ := andThen_eq_next ht
    obtain ⟨as, hlist, hag, hplain⟩ := callReturn_lists hu
    rw [hlist] at hrest
    have hlen : as.length < n := by
      have hle := hag.length_le
      rw [List.length_append, List.length_singleton] at hle
      unfold replySteps at *
      omega
    have hs : Ready { s with inCall := none, draws := u.draws, answers := u.answers } := ⟨⟨ha, rfl, htodo⟩, hp⟩
    exact (hag.ret_sends hplain hlen hs hrest).after rfl

/-- A command's list, done in a tick, sends nothing or one reply (R226): its port actions are those of its list, and
after an instrument call those of the list that the answer asks for. -/
theorem Agenda.tickRest_sends {c : Config} {as : List Action} (h : Agenda c as) {fuel : Nat}
    (hf : as.length + replySteps ≤ fuel) {s t : State} (hs : Ready s)
    (ht : tickRest fuel (enqueue as s) = .next t) : SendsAtMostOneReply s t := by
  rcases h.shape with ⟨pre, rfl, hplain, -⟩ | rfl | ⟨k, rfl⟩
  · rw [List.length_append] at hf
    exact h.ret_sends hplain (by rw [List.length_singleton] at hf; omega) hs ht
  · have hpre : [freshReply, .write (.id unsetId), .port (.senseOut .high)].all Action.isPlain = true := rfl
    have hfuel : 5 ≤ fuel := (Nat.le_add_right 5 replySteps).trans hf
    have hrest := (tickRest_plain hpre [.port .devReset, .ret] ((by decide : 3 ≤ 5).trans hfuel) hs).symm.trans ht
    have hout := out_of_tickRest_devReset (show 2 ≤ fuel - 3 by omega) (hs.performAll hpre) hrest
    exact ⟨_, hout.trans (List.append_assoc ..), h.nothingOrOneReply⟩
  · have hfuel : 2 + replySteps ≤ fuel := hf
    obtain ⟨n, rfl⟩ := Nat.exists_eq_add_of_le' ((Nat.le_add_right 2 replySteps).trans hfuel)
    have hidle : Idle { s with tlen := 0 } := hs.1
    have hrest := (tickRest_perform (n + 1) hs.1 freshReply [.port (.call k)]).symm.trans ht
    have hcall := (tickRest_perform n hidle (.port (.call k)) []).symm.trans hrest
    rw [enqueue_nil] at hcall
    refine (sends_of_tickRest hcall fun hsteps => ?_).after_quiet rfl (quiet_call k)
    exact InCall.tickSteps_sends (c := k) ⟨hidle.1, rfl, hidle.2.2⟩ hs.2 (by omega) hsteps

/-- A pop takes one of its byte's eight steps. -/
theorem restSteps_justPopped {s : State} (h : Ready s) {b : Byte} {rest : List Byte} (hx : s.rx = b :: rest) :
    restSteps (justPopped b rest s) < restSteps s := by
  obtain ⟨⟨-, hc, -⟩, hp⟩ := h
  have hlen : s.rx.length = rest.length + 1 := by rw [hx]; rfl
  simp only [restSteps, justPopped, hc, hp, hlen, if_true, reduceCtorEq, if_false]
  omega

/-- The end of `READ_BODY` is one step (R136). -/
theorem restSteps_completed {s : State} (hc : s.inCall = none) (hr : s.rstate = .readBody) :
    restSteps { s with rstate := .verifySum } < restSteps s := by
  simp [restSteps, hc, hr]

/-- Register writes send nothing. -/
theorem performAll_writes_out (ws : List Write) (s : State) : (performAll (ws.map .write) s).out = s.out := by
  rw [performAll_keeps (writes_plain ws), portEvents_writes, List.append_nil]

/-- With more fuel than the steps left, a tick that starts with nothing to do sends nothing or one reply (R226): the
steps of a byte leave the ports alone and lower the number of steps left, until one lists a command's actions, which end
the tick, or make an instrument call whose return does. -/
theorem tickSteps_sends (fuel : Nat) {s t : State} (htodo : s.todo = []) (hc : s.inCall = none)
    (hf : restSteps s < fuel) (ht : tickSteps fuel s = .next t) : SendsAtMostOneReply s t := by
  induction fuel using Nat.strong_induction_on generalizing s with
  | _ fuel ih =>
  cases hb : blocked s with
  | true => cases ht.symm.trans (tickSteps_blocked hb fuel); exact .refl _
  | false =>
    obtain ⟨n, rfl⟩ := Nat.exists_eq_add_of_le' (Nat.one_le_of_lt hf)
    rw [tickSteps_succ n hb] at ht
    obtain ⟨u, hu, hrest⟩ := andThen_eq_next ht
    cases step_kinds hu with
    | holds hblocked => rw [hb] at hblocked; cases hblocked
    | acts a rest _ hacts => rw [htodo] at hacts; cases hacts
    | pops b rest hy hr hx =>
      have hless := restSteps_justPopped hy hx
      exact .after (u := justPopped b rest s)
        (sends_of_tickRest hrest (ih n (Nat.lt_succ_self n) htodo hc (by omega))) rfl
    | completes hy hr hl =>
      have hless := restSteps_completed hc hr
      exact .after (u := { s with rstate := .verifySum })
        (sends_of_tickRest hrest (ih n (Nat.lt_succ_self n) htodo hc (by omega))) rfl
    | writes b hy hp ws e hl hw =>
      have hready : Ready { s with popped := none, escape := e } := ⟨hy, rfl⟩
      have hleft := stepsLeft_of_popped hy (by simp [hp])
      rw [stepsLeft_nil htodo] at hleft
      have hroom : (ws.map Action.write).length ≤ n := by rw [List.length_map]; omega
      have hplain := tickRest_plain (writes_plain ws) [] hroom hready
      rw [List.append_nil, enqueue_nil, List.length_map] at hplain
      rw [hplain] at hrest
      obtain ⟨⟨-, hcall, hnil⟩, hpop⟩ := hready.performAll (writes_plain ws)
      have hbound := restSteps_le_of_unpopped hcall hpop
      rw [performAll_rx] at hbound
      change _ ≤ 2 * replySteps + 8 * s.rx.length + 1 at hbound
      exact .after (sends_of_tickRest hrest (ih _ (by omega) hnil hcall (by omega))) (performAll_writes_out ws _)
    | lists hy hr ws as e draws answers hl hw ha =>
      have hready : Ready { s with popped := none, escape := e, draws := draws, answers := answers } := ⟨hy, rfl⟩
      have hleft : 2 * replySteps ≤ restSteps s := by rw [restSteps, if_pos hc]; omega
      have hlen : as.length + 20 ≤ replySteps := Nat.add_le_of_le_sub (by decide) ha.length_le
      have hroom : (ws.map Action.write).length + (as.length + replySteps) ≤ n := by
        rw [List.length_map]; omega
      rw [tickRest_plain (writes_plain ws) as (by omega) hready] at hrest
      exact .after (ha.tickRest_sends (by omega) (hready.performAll (writes_plain ws)) hrest)
        (performAll_writes_out ws _)
    | returns c hcall => rw [hc] at hcall; cases hcall

/-- Settles O15: a tick's fuel exceeds the steps it has left (`stepsLeft_lt_fuel`), so that it runs to the end of the
one list of a command that it comes to (`tickSteps_sends`). -/
theorem tickSendsNothingOrOneReply : Obligations.TickSendsNothingOrOneReply := by
  intro s t htodo hc ht
  have hfuel := stepsLeft_lt_fuel s
  rw [stepsLeft_nil htodo] at hfuel
  exact tickSteps_sends _ htodo hc hfuel ht

end Sys2Proof.Machine

/-! SUPPORT. Proofs of the statements about the addressing of a chain (spec/44_addressing.md): which node of a swept
chain is eligible (R243), how an ASSIGN_ADDR moves the sweep one node further (R244), and a dispatch between the actions
of another node's (R245, R298). -/

namespace Sys2Proof.Machine

/-! ## The sense lines (R241 to R243) -/

theorem lineLevel_eq_high_iff (l : Level) : lineLevel l = .high ↔ l = .low := by cases l <;> decide

theorem senseInput_succ {c : Chain} {k : Nat} {n : State} (h : c.nodes[k]? = some n) :
    senseInput c (k + 1) = lineLevel n.senseOut := by rw [senseInput, h]

theorem nodeEligible_iff {c : Chain} {k : Nat} {n : State} (h : c.nodes[k]? = some n) :
    nodeEligible c k = true ↔ senseInput c k = .high ∧ n.id = unsetId := by
  rw [nodeEligible, h]; exact eligible_iff (sampled c k n)

/-- In a swept chain the input line is high up to the first fresh node, since every node before it drives low. -/
theorem sweptTo.senseInput_high_iff {j : Nat} {c : Chain} (h : sweptTo j c) {k : Nat} (hk : k < c.nodes.length) :
    senseInput c k = .high ↔ k ≤ j := by
  obtain ⟨-, hfirst, hnodes⟩ := h
  cases k with
  | zero => exact iff_of_true hfirst (Nat.zero_le j)
  | succ k =>
    have hn := List.getElem?_eq_getElem (Nat.lt_of_succ_lt hk)
    obtain ⟨-, -, haddressed, hfresh⟩ := hnodes k _ hn
    rw [senseInput_succ hn, lineLevel_eq_high_iff, Nat.succ_le_iff]
    by_cases hj : k < j
    · exact iff_of_true (haddressed hj).2 hj
    · rw [(hfresh (Nat.le_of_not_lt hj)).2]
      exact iff_of_false nofun hj

/-- Settles O57: the input line is high up to node `j`, and the identity is unset from node `j` on. -/
theorem onlyTheNextNodeIsEligible : Obligations.OnlyTheNextNodeIsEligible := by
  intro j c h k hk
  have hn := List.getElem?_eq_getElem hk
  obtain ⟨-, -, haddressed, hfresh⟩ := h.2.2 k _ hn
  have hid : c.nodes[k].id = unsetId ↔ j ≤ k :=
    ⟨fun hunset => Nat.le_of_not_lt fun hlt => (haddressed hlt).1 hunset, fun hle => (hfresh hle).1⟩
  rw [nodeEligible_iff hn, h.senseInput_high_iff hk, hid]
  exact Nat.le_antisymm_iff.symm

/-! ## ASSIGN_ADDR dispatched by one node of a chain (R175) -/

theorem runNode_some {k : Nat} {f : State → Host.Outcome State Fault Refusal} {c : Chain} {n t : State}
    (hn : c.nodes[k]? = some n) (hf : f (sampled c k n) = .next t) :
    runNode k f c = .next { c with nodes := c.nodes.set k t } := by
  simp only [runNode, hn, hf]

/-- An idle node that dispatches ASSIGN_ADDR is idle again, with the address and its output low if it is eligible, and
as it was if it is not. -/
theorem Idle.dispatch_assign {s : State} (h : Idle s) (a : Byte) :
    ∃ t, dispatch (.assignAddr [a]) s = .next t ∧ Idle t ∧ t.id = (if eligible s then a else s.id) ∧
      t.senseOut = if eligible s then .low else s.senseOut := by
  by_cases he : eligible s = true
  · obtain ⟨hs, hid⟩ := (eligible_iff s).mp he
    refine ⟨assigned a s.cfg.statusOk [s.cfg.reportOk] s, ?_, h, (if_pos he).symm, (if_pos he).symm⟩
    rw [dispatch, execAssignAddr_eligible h.dispatching hs hid, andThen_next, finish_assign h.dispatching,
      settled_nil h.2.2]
  · refine ⟨ended s, ?_, h, (if_neg he).symm, (if_neg he).symm⟩
    rw [dispatch, execAssignAddr_ineligible (mt (eligible_iff s).mpr he), andThen_next, finish_ending h.dispatching,
      settled_nil h.2.2]

theorem dispatchNode_assign {c : Chain} {k : Nat} {n : State} (hn : c.nodes[k]? = some n) (h : Idle n) (a : Byte) :
    ∃ t, dispatchNode (.assignAddr [a]) k c = .next { c with nodes := c.nodes.set k t } ∧ Idle t ∧
      t.id = (if nodeEligible c k then a else n.id) ∧ t.senseOut = if nodeEligible c k then .low else n.senseOut := by
  have hidle : Idle (sampled c k n) := h
  have he : nodeEligible c k = eligible (sampled c k n) := by rw [nodeEligible, hn]
  obtain ⟨t, ht, htidle, hid, hsense⟩ := hidle.dispatch_assign a
  rw [he]
  exact ⟨t, runNode_some hn ht, htidle, hid, hsense⟩

/-! ## The sweep (R243, R244) -/

/-- Node `k` as it stands in a chain swept to node `j`, with an admitted configuration and the identity `ids` has. -/
structure SweptNode (j : Nat) (ids : List Byte) (k : Nat) (n : State) : Prop where
  idle : Idle n
  id_at : ids[k]? = some n.id
  addressed : k < j → n.id ≠ unsetId ∧ n.senseOut = .low
  fresh : j ≤ k → n.id = unsetId ∧ n.senseOut = .high

/-- The chain part way through a sweep (`sweptTo`), every configuration admitted, and the nodes' identities. -/
structure Sweeping (j : Nat) (ids : List Byte) (c : Chain) : Prop where
  first : c.firstSense = .high
  length_eq : c.nodes.length = ids.length
  le_length : j ≤ ids.length
  node : ∀ k n, c.nodes[k]? = some n → SweptNode j ids k n

theorem sweptTo.sweeping {j : Nat} {c : Chain} (h : sweptTo j c) (ha : ∀ n ∈ c.nodes, admitted n.cfg = true) :
    Sweeping j (c.nodes.map State.id) c := by
  obtain ⟨hle, hfirst, hnodes⟩ := h
  refine ⟨hfirst, by rw [List.length_map], by rwa [List.length_map], fun k n hn => ?_⟩
  obtain ⟨htodo, hcall, haddressed, hfresh⟩ := hnodes k n hn
  exact ⟨⟨ha n (List.mem_of_getElem? hn), hcall, htodo⟩, by rw [List.getElem?_map, hn]; rfl, haddressed, hfresh⟩

theorem Sweeping.sweptTo {j : Nat} {ids : List Byte} {c : Chain} (h : Sweeping j ids c) : sweptTo j c := by
  refine ⟨h.le_length.trans_eq h.length_eq.symm, h.first, fun k n hn => ?_⟩
  obtain ⟨⟨-, hcall, htodo⟩, -, haddressed, hfresh⟩ := h.node k n hn
  exact ⟨htodo, hcall, haddressed, hfresh⟩

theorem Sweeping.nodeEligible_iff {j : Nat} {ids : List Byte} {c : Chain} (h : Sweeping j ids c) {k : Nat} {n : State}
    (hn : c.nodes[k]? = some n) : nodeEligible c k = true ↔ k = j :=
  onlyTheNextNodeIsEligible j c h.sweptTo k (List.getElem?_eq_some_iff.mp hn).1

/-- What holds of a new node `k`, and of every other node, holds of every node once it is replaced. -/
theorem forall_getElem?_set {P : Nat → State → Prop} {nodes : List State} {k : Nat} {t : State} (ht : P k t)
    (hother : ∀ i n, i ≠ k → nodes[i]? = some n → P i n) : ∀ i n, (nodes.set k t)[i]? = some n → P i n := by
  intro i n hn
  by_cases hi : i = k
  · obtain ⟨-, rfl⟩ := List.getElem?_eq_some_iff.mp hn
    subst hi
    rwa [List.getElem_set_self]
  · exact hother i n hi ((List.getElem?_set_ne (Ne.symm hi)).symm.trans hn)

/-- A node that is not the next one leaves the sweep where it is (R243). -/
theorem Sweeping.dispatch_other {j : Nat} {ids : List Byte} {c : Chain} (h : Sweeping j ids c) {k : Nat} (hk : k ≠ j)
    (a : Byte) : ∃ d, dispatchNode (.assignAddr [a]) k c = .next d ∧ Sweeping j ids d := by
  cases hn : c.nodes[k]? with
  | none => exact ⟨c, by rw [dispatchNode, runNode, hn], h⟩
  | some n =>
    obtain ⟨hidle, hat, haddressed, hfresh⟩ := h.node k n hn
    obtain ⟨t, ht, htidle, hid, hsense⟩ := dispatchNode_assign hn hidle a
    have hno : ¬nodeEligible c k = true := mt (h.nodeEligible_iff hn).mp hk
    rw [if_neg hno] at hid hsense
    refine ⟨_, ht, h.first, List.length_set.trans h.length_eq, h.le_length,
      forall_getElem?_set ?_ fun i m _ => h.node i m⟩
    exact ⟨htidle, by rw [hid, hat], by rwa [hid, hsense], by rwa [hid, hsense]⟩

/-- The next node takes the address, and the sweep has come one node further (R244). -/
theorem Sweeping.dispatch_next {j : Nat} {ids : List Byte} {c : Chain} (h : Sweeping j ids c) (hj : j < ids.length)
    {a : Byte} (ha : a ≠ unsetId) :
    ∃ d, dispatchNode (.assignAddr [a]) j c = .next d ∧ Sweeping (j + 1) (ids.set j a) d := by
  have hn := List.getElem?_eq_getElem (hj.trans_eq h.length_eq.symm)
  obtain ⟨t, ht, htidle, hid, hsense⟩ := dispatchNode_assign hn (h.node j _ hn).idle a
  have hyes : nodeEligible c j = true := (h.nodeEligible_iff hn).mpr rfl
  rw [if_pos hyes] at hid hsense
  refine ⟨_, ht, h.first, by simp [h.length_eq], by simpa using hj, forall_getElem?_set ?_ fun i m hi hm => ?_⟩
  · exact ⟨htidle, by rw [hid, List.getElem?_set_self hj], fun _ => ⟨hid ▸ ha, hsense⟩, fun hlt => by omega⟩
  · obtain ⟨hidle, hat, haddressed, hfresh⟩ := h.node i m hm
    exact ⟨hidle, (List.getElem?_set_ne (Ne.symm hi)).trans hat, fun hlt => haddressed (by omega),
      fun hle => hfresh (by omega)⟩

/-- The other nodes in any order, and then the next one. -/
theorem Sweeping.dispatchInOrder {j : Nat} {ids : List Byte} {c : Chain} (h : Sweeping j ids c) (hj : j < ids.length)
    {a : Byte} (ha : a ≠ unsetId) {others : List Nat} (hno : j ∉ others) :
    ∃ d, dispatchInOrder (.assignAddr [a]) (others ++ [j]) c = .next d ∧ Sweeping (j + 1) (ids.set j a) d := by
  induction others generalizing c with
  | nil =>
    obtain ⟨d, hd, hsweep⟩ := h.dispatch_next hj ha
    exact ⟨d, by rw [List.nil_append, Machine.dispatchInOrder, hd]; rfl, hsweep⟩
  | cons k rest ih =>
    obtain ⟨d, hd, hsweep⟩ := h.dispatch_other (List.ne_of_not_mem_cons hno).symm a
    obtain ⟨e, he, hdone⟩ := ih hsweep (List.not_mem_of_not_mem_cons hno)
    exact ⟨e, by rw [List.cons_append, Machine.dispatchInOrder, hd]; exact he, hdone⟩

/-- Settles O58: the nodes before the eligible one leave the sweep where it is, and that one moves it. -/
theorem sweepMovesOneNodeFurther : Obligations.SweepMovesOneNodeFurther := by
  intro j c a others h hj hadmitted ha hno
  obtain ⟨d, hd, hsweep⟩ := (h.sweeping hadmitted).dispatchInOrder (by rwa [List.length_map]) ha hno
  have hid {k : Nat} {n : State} (hn : d.nodes[k]? = some n) : ((c.nodes.map State.id).set j a)[k]? = some n.id :=
    (hsweep.node k n hn).id_at
  refine ⟨d, hd, hsweep.sweptTo, ?_, fun k m n hk hm hn => ?_⟩
  · have hlt : j < d.nodes.length := by rw [hsweep.length_eq, List.length_set, List.length_map]; exact hj
    have hn := List.getElem?_eq_getElem hlt
    have hat := hid hn
    rw [List.getElem?_set_self (by rwa [List.length_map])] at hat
    exact ⟨_, hn, (Option.some.inj hat).symm⟩
  · have hat := hid hn
    rw [List.getElem?_set_ne (Ne.symm hk), List.getElem?_map, hm] at hat
    exact (Option.some.inj hat).symm

/-! ## A dispatch between the actions of another node's (R245, R298) -/

/-- What ASSIGN_ADDR lists before the tick's return (R175, `execAssignAddr_eligible`). -/
def assignActions (c : Config) (a : Byte) : List Action :=
  [freshReply, .write (.id a)] ++ txAppendAll 0 [c.reportOk] ++ sendReply c.statusOk [c.reportOk] ++
    [.port (.senseOut .low)]

/-- What ASSIGN_ADDR lists between the identity and the sense output: the reply. -/
def assignReply (c : Config) : List Action := txAppendAll 0 [c.reportOk] ++ sendReply c.statusOk [c.reportOk]

theorem assignActions_eq (c : Config) (a : Byte) :
    assignActions c a = freshReply :: .write (.id a) :: (assignReply c ++ [.port (.senseOut .low)]) := by
  simp [assignActions, assignReply]

theorem assignReply_ordinary {c : Config} {a : Action} (h : a ∈ assignReply c) : a.isOrdinary = true := by
  rcases List.mem_append.mp h with h | h
  · exact List.all_eq_true.mp (txAppendAll_ordinary _ _) a h
  · exact List.all_eq_true.mp (sendFrame_ordinary _ _) a h

theorem assignActions_plain (c : Config) (a : Byte) : (assignActions c a).all Action.isPlain = true := by
  simp [assignActions, freshReply, sendReply, Action.isPlain]

/-- An ordinary action writes neither `ID` nor `SENSE_OUT` (R22, R23). -/
theorem perform_ordinary {a : Action} (h : a.isOrdinary = true) (s : State) :
    (perform a s).id = s.id ∧ (perform a s).senseOut = s.senseOut := by
  rcases perform_identity a s with hsame | ⟨ha, -⟩ | ⟨ha, -⟩ | ⟨⟨ha, -⟩, -⟩
  · exact hsame
  all_goals rw [ha] at h; cases h

/-- What no action of a list changes, the list does not change. -/
theorem performAll_unchanged {α : Type} (f : State → α) {as : List Action}
    (h : ∀ a ∈ as, ∀ s, f (perform a s) = f s) (s : State) : f (performAll as s) = f s := by
  induction as generalizing s with
  | nil => rfl
  | cons a rest ih =>
    rw [performAll_cons, ih fun b hb => h b (List.mem_cons_of_mem a hb), h a List.mem_cons_self]

/-- `ID` part way through ASSIGN_ADDR's actions: the address from the second action on (R175). -/
theorem performAll_take_assignActions_id (c : Config) (a : Byte) (k : Nat) (s : State) :
    (performAll ((assignActions c a).take k) s).id = if 2 ≤ k then a else s.id := by
  rw [assignActions_eq]
  match k with
  | 0 | 1 => rfl
  | k + 2 =>
    rw [if_pos (Nat.le_add_left 2 k), List.take_succ_cons, List.take_succ_cons, performAll_cons, performAll_cons]
    refine performAll_unchanged State.id (fun b hb u => ?_) _
    rcases List.mem_append.mp (List.mem_of_mem_take hb) with hb | hb
    · exact (perform_ordinary (assignReply_ordinary hb) u).1
    · rw [List.mem_singleton.mp hb]; rfl

/-- `SENSE_OUT` part way through ASSIGN_ADDR's actions: low once the last of them is done (R175). -/
theorem performAll_take_assignActions_senseOut (c : Config) (a : Byte) {k : Nat} (hk : k ≤ (assignActions c a).length)
    (s : State) : (performAll ((assignActions c a).take k) s).senseOut =
      if k = (assignActions c a).length then .low else s.senseOut := by
  have hsplit : assignActions c a = (freshReply :: .write (.id a) :: assignReply c) ++ [.port (.senseOut .low)] :=
    assignActions_eq c a
  split
  · next hall => rw [hall, List.take_length, hsplit, performAll_append]; rfl
  · next hpart =>
    rw [hsplit, List.length_append, List.length_singleton] at hk hpart
    rw [hsplit, List.take_append_of_le_length (by omega)]
    refine performAll_unchanged State.senseOut (fun b hb u => ?_) s
    rcases List.mem_cons.mp (List.mem_of_mem_take hb) with rfl | hb
    · rfl
    rcases List.mem_cons.mp hb with rfl | hb
    · rfl
    · exact (perform_ordinary (assignReply_ordinary hb) u).2

/-- An eligible node that dispatches ASSIGN_ADDR and then does `k` of the actions listed, one a step (R5, R175). -/
theorem Idle.assign_partway {s : State} (h : Idle s) (hs : s.senseIn = .high) (hid : s.id = unsetId) (a : Byte)
    {k : Nat} (hk : k ≤ (assignActions s.cfg a).length) :
    ∃ t u, exec (.assignAddr [a]) s = .next t ∧ t.senseIn = .high ∧ t.todo = assignActions s.cfg a ++ [.ret] ∧
      steps k t = .next u ∧ u.id = (if 2 ≤ k then a else unsetId) ∧
      u.senseOut = if k = (assignActions s.cfg a).length then .low else s.senseOut := by
  have hexec := execAssignAddr_eligible h.dispatching hs hid a []
  obtain ⟨ha, hc, ht⟩ := h
  have hlist : exec (.assignAddr [a]) s = .next (enqueue (assignActions s.cfg a ++ [.ret]) s) := by
    rw [hexec, assignActions, List.append_assoc _ _ [Action.ret]]; rfl
  have htodo : (enqueue (assignActions s.cfg a ++ [.ret]) s).todo = assignActions s.cfg a ++ [.ret] := by
    rw [enqueue_todo, ht, List.nil_append]
  have hplain : ((assignActions s.cfg a).take k).all Action.isPlain = true :=
    List.all_eq_true.mpr fun b hb => List.all_eq_true.mp (assignActions_plain s.cfg a) b (List.mem_of_mem_take hb)
  have hsteps := steps_plain ((assignActions s.cfg a).take k) ((assignActions s.cfg a).drop k ++ [.ret])
    (enqueue (assignActions s.cfg a ++ [.ret]) s) ha hc hplain
    (by rw [htodo, ← List.append_assoc, List.take_append_drop])
  rw [List.length_take_of_le hk] at hsteps
  refine ⟨_, _, hlist, hs, htodo, hsteps, ?_, performAll_take_assignActions_senseOut _ _ hk _⟩
  rw [← hid]
  exact performAll_take_assignActions_id ..

/-- The second node of two is eligible where the first drives low and it is unset itself (R241, R243). -/
theorem nodeEligible_second {first : Level} {m n : State} :
    nodeEligible { firstSense := first, nodes := [m, n] } 1 = true ↔ m.senseOut = .low ∧ n.id = unsetId := by
  rw [nodeEligible_iff rfl, senseInput_succ rfl, lineLevel_eq_high_iff]

/-- Settles O60: the second node's input is high once the first's last action is done, and not before it. -/
theorem lateDispatchTakesTheSameAddress : Obligations.LateDispatchTakesTheSameAddress := by
  intro m n a k hm hn h ha body actions hk
  obtain ⟨-, -, hnodes⟩ := h
  obtain ⟨hmtodo, hmcall, -, hmfresh⟩ := hnodes 0 m rfl
  obtain ⟨hntodo, hncall, -, hnfresh⟩ := hnodes 1 n rfl
  obtain ⟨hmid, hmsense⟩ := hmfresh (Nat.zero_le 0)
  obtain ⟨hnid, -⟩ := hnfresh (Nat.zero_le 1)
  have hfirst : Idle { m with senseIn := .high } := ⟨hm, hmcall, hmtodo⟩
  obtain ⟨t, u, hexec, htin, httodo, hsteps, huid, husense⟩ := hfirst.assign_partway rfl hmid a hk
  have htsampled : sampled { firstSense := .high, nodes := [t, n] } 0 t = t := by rw [← htin]; rfl
  obtain ⟨v, hdispatch, -, hvid, -⟩ :=
    dispatchNode_assign (c := { firstSense := .high, nodes := [u, n] }) (k := 1) rfl ⟨hn, hncall, hntodo⟩ a
  have heligible : nodeEligible { firstSense := .high, nodes := [u, n] } 1 = true ↔ k = actions.length := by
    rw [nodeEligible_second, and_iff_left hnid, husense]
    split
    · next hall => exact iff_of_true rfl hall
    · next hpart => rw [hmsense]; exact iff_of_false nofun hpart
  refine ⟨{ firstSense := .high, nodes := [t, n] }, { firstSense := .high, nodes := [u, n] },
    { firstSense := .high, nodes := [u, v] }, runNode_some rfl hexec, ?_, runNode_some rfl (htsampled ▸ hsteps),
    hdispatch, ?_⟩
  · rw [List.map_cons, List.map_cons, List.map_nil, httodo, hntodo]; rfl
  · rw [List.map_cons, List.map_cons, List.map_nil, huid, hvid, hnid]
    simp only [heligible]

end Sys2Proof.Machine

/-! SUPPORT. Proofs of the statements about the exceptions (spec/60_exceptions.md): what taking an error of any class
lists, and what it keeps of the node (R260, R267, R268). -/

namespace Sys2Proof.Machine

/-! ## Lists that keep the registers (R22 to R24) -/

/-- An ordinary action does not write `CNTR` (R24). -/
theorem perform_ordinary_cntr {a : Action} (h : a.isOrdinary = true) (s : State) : (perform a s).cntr = s.cntr := by
  rcases perform_counter a s with hsame | ha | ⟨⟨ha, -⟩, -⟩
  · exact hsame
  all_goals rw [ha] at h; cases h

/-- Ordinary actions, one after another, write none of `ID`, `SENSE_OUT` and `CNTR`. -/
theorem performAll_ordinary {as : List Action} (h : as.all Action.isOrdinary = true) (s : State) :
    (performAll as s).id = s.id ∧ (performAll as s).senseOut = s.senseOut ∧ (performAll as s).cntr = s.cntr := by
  have ordinary {a : Action} (ha : a ∈ as) : a.isOrdinary = true := List.all_eq_true.mp h a ha
  exact ⟨performAll_unchanged State.id (fun a ha u => (perform_ordinary (ordinary ha) u).1) s,
    performAll_unchanged State.senseOut (fun a ha u => (perform_ordinary (ordinary ha) u).2) s,
    performAll_unchanged State.cntr (fun a ha u => perform_ordinary_cntr (ordinary ha) u) s⟩

/-! ## A pending `MARK` dropped before the writes left to do (R112) -/

/-- A change of the state that each action of a list lets through can be made before the list or after it. -/
theorem performAll_comm {f : State → State} {as : List Action}
    (h : ∀ a ∈ as, ∀ s, perform a (f s) = f (perform a s)) (s : State) :
    performAll as (f s) = f (performAll as s) := by
  induction as generalizing s with
  | nil => rfl
  | cons a rest ih =>
    rw [performAll_cons, performAll_cons, h a List.mem_cons_self, ih fun b hb => h b (List.mem_cons_of_mem a hb)]

/-- Whether a `MARK` is pending has no part in the register writes left to do. -/
theorem Dispatching.settled_escape {s : State} (h : Dispatching s) (e : Bool) :
    Machine.settled { s with escape := e } = { Machine.settled s with escape := e } := by
  refine performAll_comm (f := fun u => { u with escape := e }) (fun a ha u => ?_) { s with todo := [] }
  obtain ⟨w, rfl⟩ := h.2.2 a ha
  cases w <;> rfl

/-! ## Taking an error (R260 to R268) -/

/-- Taking an error of any class lists ordinary actions that write neither buffer, and changes nothing else but whether
a `MARK` is pending. -/
theorem takeError_lists {e : ErrorClass} {s t : State} (h : takeError e s = .next t) :
    ∃ as, t = enqueue as { s with escape := t.escape } ∧ as.all Action.isOrdinary = true ∧
      as.all Action.keepsBuffers = true := by
  cases e with
  | framing => cases h; exact ⟨_, rfl, rfl, rfl⟩
  | capacity =>
    cases h
    refine ⟨_, rfl, ?_⟩
    split <;> exact ⟨rfl, rfl⟩
  | integrity =>
    obtain ⟨-, rfl⟩ := listIf_eq_next h
    exact ⟨_, rfl, rfl, rfl⟩
  | routing => cases h; exact ⟨_, rfl, rfl, rfl⟩
  | unknownCommand =>
    rcases Bool.eq_false_or_eq_true s.bcast with hb | hb
    · rw [takeError_unknown_broadcast hb] at h
      cases h
      exact ⟨_, rfl, rfl, rfl⟩
    · rw [takeError_unknown_directed hb] at h
      cases h
      refine ⟨_, rfl, ?_, ?_⟩
      · rw [sendReply, List.all_append, sendFrame_ordinary]; rfl
      · rw [sendReply, List.all_append, sendFrame_keepsBuffers]; rfl

/-- Settles O53: what every class lists (`takeError_lists`) comes after the writes left to do, and leaves the registers
and the buffers as these leave them. -/
theorem errorsKeepTheNode : Obligations.ErrorsKeepTheNode := by
  intro e s t hs h
  obtain ⟨as, ht, hordinary, hbuffers⟩ := takeError_lists h
  have hplain := all_isPlain_of_keepsBuffers hbuffers
  have hdone : finishActions t = .next (performAll as { settled s with escape := t.escape }) := by
    rw [← hs.settled_escape, ← finish_enqueue (s := { s with escape := t.escape }) hs hplain, ← ht]
  obtain ⟨hid, hsense, hcntr⟩ := performAll_ordinary hordinary { settled s with escape := t.escape }
  obtain ⟨hrx, htx⟩ := performAll_keepsBuffers hbuffers { settled s with escape := t.escape }
  refine ⟨?_, _, hdone, hid, hsense, hcntr, hrx, htx, ?_⟩
  · rw [ht]; rfl
  · rw [performAll_keeps hplain, hs.settled]
    exact ⟨rfl, rfl, rfl, rfl, rfl⟩

end Sys2Proof.Machine
